-- ==== Sys2Proof/Word.lean ====
section
/-! DEFINITION. The word types of the block (00_scope R13): a 64-bit word, a byte, and the reading of a
word as a binary64 value, which is the word itself (R13: "A Bits64 word is read as F64 by taking its bits as
the binary64 encoding"). Arithmetic on them stands in Machine/Float.lean. -/

namespace Sys2Proof

/-- `Bits64` of R13: a 64-bit word, as a register or a DMEM word holds it. -/
abbrev Word := BitVec 64

/-- A byte of a word; byte order is R73's (Machine/Ops.lean). -/
abbrev Byte := BitVec 8

/-- `F64` of R13: a binary64 value, held as its encoding. -/
abbrev F64 := BitVec 64

end Sys2Proof
end

