-- ==== Sys2Proof/Syntax.lean ====
section
/-! DEFINITION. The 15 commands (30_encoding R101), one constructor a row of spec/opcode_table.json, in the
table's order. A command that acts on an existing instance carries its handle (R102); every other operand is in
the ARG registers (R106, R107). -/

namespace Sys2Proof

/-- A decoded command: `(op, h)` of R105. -/
inductive Instr where
  /-- FIR_INIT, R160. -/
  | firInit
  /-- FIR_PROCESS, R161. -/
  | firProcess (h : Nat)
  /-- FIR_RELEASE, R162. -/
  | firRelease (h : Nat)
  /-- IIR_INIT, R180. -/
  | iirInit
  /-- IIR_SET_SECTION, R182. -/
  | iirSetSection (h : Nat)
  /-- IIR_PROCESS, R183. -/
  | iirProcess (h : Nat)
  /-- IIR_RELEASE, R185. -/
  | iirRelease (h : Nat)
  /-- LMS_INIT, R210. -/
  | lmsInit
  /-- LMS_PROCESS, R211. -/
  | lmsProcess (h : Nat)
  /-- LMS_RELEASE, R212. -/
  | lmsRelease (h : Nat)
  /-- RLS_INIT, R230. -/
  | rlsInit
  /-- RLS_PROCESS, R231. -/
  | rlsProcess (h : Nat)
  /-- RLS_RELEASE, R232. -/
  | rlsRelease (h : Nat)
  /-- QPSK_MODULATE, R263. -/
  | qpskModulate
  /-- QPSK_DEMODULATE, R280. -/
  | qpskDemodulate
  deriving DecidableEq, Repr

/-- The handle of a command that uses one (R102). -/
def Instr.handle : Instr → Option Nat
  | .firInit => none
  | .firProcess h => some h
  | .firRelease h => some h
  | .iirInit => none
  | .iirSetSection h => some h
  | .iirProcess h => some h
  | .iirRelease h => some h
  | .lmsInit => none
  | .lmsProcess h => some h
  | .lmsRelease h => some h
  | .rlsInit => none
  | .rlsProcess h => some h
  | .rlsRelease h => some h
  | .qpskModulate => none
  | .qpskDemodulate => none

end Sys2Proof
end

