-- ==== Sys2Proof/WellFormed.lean ====
section
/-! DEFINITION. When a command can be written as a command word: its handle, if it uses one, fits the 8 bits of
HANDLE (30_encoding R100, R102: "read as an unsigned integer 0..255"). A handle beyond NUM_SLOTS is well formed;
the command answers it with ERR_BAD_HANDLE (R102, R136). -/

namespace Sys2Proof

/-- The HANDLE field of R100 is 8 bits wide. -/
abbrev handleFits (h : Nat) : Prop := h < 256

/-- R100, R102: the handle, where there is one, fits its field. -/
abbrev WellFormed (i : Instr) : Prop := ∀ h ∈ i.handle, handleFits h

end Sys2Proof
end

