-- ==== Sys2Proof/Decode.lean ====
section
/-! DEFINITION. The decoder of 30_encoding R105, total on every 64-bit word, rejecting each illegal word of R104 by
name; after it the encoder of R111, written from the same opcode map (R101). -/

namespace Sys2Proof

/-- Why a word is Illegal (R104), one name a clause. -/
inductive DecodeError where
  /-- Bits 63:16 are not all 0 (R103). -/
  | reservedBitsSet
  /-- OP is reserved (R101). -/
  | reservedOpcode
  /-- OP is one of the six that take no handle and HANDLE is not 0 (R102). -/
  | handleNotZero
  deriving DecidableEq, Repr

/-- Bits 7:0 of a command word (R100). -/
def opField (w : Word) : Nat := w.toNat % 2 ^ 8

/-- Bits 15:8 of a command word (R100). -/
def handleField (w : Word) : Nat := w.toNat / 2 ^ 8 % 2 ^ 8

/-- Bits 63:16 of a command word (R100). -/
def reservedField (w : Word) : Nat := w.toNat / 2 ^ 16

/-- A command without a handle: HANDLE must be 0 (R102). -/
def withoutHandle (h : Nat) (i : Instr) : Except DecodeError Instr :=
  if h = 0 then .ok i else .error .handleNotZero

/-- The opcode map of R101, applied to OP and HANDLE. -/
def decodeFields (op h : Nat) : Except DecodeError Instr :=
  match op with
  | 0x10 => withoutHandle h .firInit
  | 0x11 => .ok (.firProcess h)
  | 0x12 => .ok (.firRelease h)
  | 0x20 => withoutHandle h .iirInit
  | 0x21 => .ok (.iirSetSection h)
  | 0x22 => .ok (.iirProcess h)
  | 0x23 => .ok (.iirRelease h)
  | 0x30 => withoutHandle h .lmsInit
  | 0x31 => .ok (.lmsProcess h)
  | 0x32 => .ok (.lmsRelease h)
  | 0x40 => withoutHandle h .rlsInit
  | 0x41 => .ok (.rlsProcess h)
  | 0x42 => .ok (.rlsRelease h)
  | 0x50 => withoutHandle h .qpskModulate
  | 0x60 => withoutHandle h .qpskDemodulate
  | _ => .error .reservedOpcode

/-- `decode(w)` of R105, its tests in R105's order. -/
def decode (w : Word) : Except DecodeError Instr :=
  if reservedField w ≠ 0 then .error .reservedBitsSet
  else decodeFields (opField w) (handleField w)

/-- The command a host word of `nbits` bits spells, every bit above `nbits` 0; `none` where it is Illegal. The CMD
register takes a 64-bit word (R37, R100). -/
def decodeTableWord (nbits w : Nat) : Option Instr :=
  match decode (BitVec.ofNat 64 (w % 2 ^ nbits)) with
  | .ok i => some i
  | .error _ => none

/-- OP of each command (R101). -/
def opcodeOf : Instr → Nat
  | .firInit => 0x10
  | .firProcess _ => 0x11
  | .firRelease _ => 0x12
  | .iirInit => 0x20
  | .iirSetSection _ => 0x21
  | .iirProcess _ => 0x22
  | .iirRelease _ => 0x23
  | .lmsInit => 0x30
  | .lmsProcess _ => 0x31
  | .lmsRelease _ => 0x32
  | .rlsInit => 0x40
  | .rlsProcess _ => 0x41
  | .rlsRelease _ => 0x42
  | .qpskModulate => 0x50
  | .qpskDemodulate => 0x60

/-- The word of R111, 48 zero bits, h[7:0], OP, for any OP and any h. -/
def commandWord (op h : Nat) : Word := BitVec.ofNat 64 (h % 2 ^ 8 * 2 ^ 8 + op)

/-- The word of a command (R100, R111); HANDLE is 0 where the command takes none (R102). -/
def encode (i : Instr) : Word := commandWord (opcodeOf i) (i.handle.getD 0)

end Sys2Proof
end

