-- ==== Sys2Proof/Config.lean ====
section
/-! DEFINITION. What an implementation of the block fixes (00_scope R11) and the values the spec leaves open.
The capacities are plain numbers (`Params`), which State carries so that a statement about every state holds for
every choice of them (log 4). Each open VALUE is an opaque constant with no body: nothing can be proved of it. -/

namespace Sys2Proof.Config

/-- The capacities of R11: NUM_SLOTS, N_MAX, S_MAX, DMEM_WORDS. -/
structure Params where
  /-- NUM_SLOTS: number of engine instance slots. -/
  numSlots : Nat
  /-- N_MAX: largest tap count an FIR, LMS or RLS slot holds. -/
  nMax : Nat
  /-- S_MAX: largest number of IIR sections a slot holds. -/
  sMax : Nat
  /-- DMEM_WORDS: number of 64-bit words of data memory. -/
  dmemWords : Nat
  deriving DecidableEq, Repr

/-- The default values of the table of R11. -/
def Params.default : Params := { numSlots := 8, nMax := 256, sMax := 64, dmemWords := 65536 }

/-- The legal ranges of the table of R11. -/
abbrev Params.legal (p : Params) : Prop :=
  1 ≤ p.numSlots ∧ p.numSlots ≤ 256 ∧ 1 ≤ p.nMax ∧ 1 ≤ p.sMax ∧ 1 ≤ p.dmemWords ∧ p.dmemWords ≤ 65536

/-- NAN_RESULT (R18, I1): the bits from which the k-th drawn NaN result is made (log 5). -/
opaque nanBits : Nat → Word

/-- The value of a DMEM word that nothing has written since reset, by the draw and the word address (R42, R80, I2;
log 6, log 7). -/
opaque unwrittenWord : Nat → Nat → Word

/-- EMPTY_WINDOW_RESULT, the constellation point, re then im (R288, I3; log 8). -/
opaque emptyPoint : Nat → F64 × F64

/-- EMPTY_WINDOW_RESULT, the dibit, b0 then b1 (R288, I3; log 8). -/
opaque emptyDibit : Nat → Bool × Bool

/-- COS where item I4 fixes no value (R11, D4; log 9). -/
opaque cosOpen : F64 → F64

/-- SIN where item I4 fixes no value (R11, D4; log 9). -/
opaque sinOpen : F64 → F64

/-- ATAN2, operands in the order (y, x), where item I4 fixes no value (R11, D4; log 9). -/
opaque atan2Open : F64 → F64 → F64

end Sys2Proof.Config
end

