-- ==== Sys2Proof/Machine/Float.lean ====
section
/-! DEFINITION. IEEE 754 binary64 arithmetic with roundTiesToEven (00_scope R13, R16, R17, R19), computed as exact
integers or ratios of integers and rounded once. A finite value is held as a whole number of units of 2^-1074, the
smallest positive binary64 value. A NaN result is `F64.nanMark`, a stand-in that no state holds: whatever stores
the result of an operation stores `F64.settle` of it, which puts a drawn quiet NaN there (R18; log 5). The rules
of IEEE 754 the spec refers to by name are log 13. -/

namespace Sys2Proof.Machine

/-! ## The encoding (R13) -/

/-- Bit 63, the sign: true is negative. -/
def F64.sign (x : F64) : Bool := decide (2 ^ 63 ≤ x.toNat)

/-- Bits 62:0, exponent and fraction as one number; it orders the magnitudes. -/
def F64.mag (x : F64) : Nat := x.toNat % 2 ^ 63

/-- The magnitude bits of infinity: exponent all ones, fraction 0. -/
def F64.infMag : Nat := 0x7FF0000000000000

def F64.isNaN (x : F64) : Bool := decide (F64.infMag < F64.mag x)

def F64.isInf (x : F64) : Bool := decide (F64.mag x = F64.infMag)

/-- "x is finite" of R17: neither an infinity nor a NaN. -/
def F64.isFinite (x : F64) : Bool := decide (F64.mag x < F64.infMag)

def F64.isZero (x : F64) : Bool := decide (F64.mag x = 0)

/-- A word from a sign and magnitude bits. -/
def F64.pack (neg : Bool) (mag : Nat) : F64 := BitVec.ofNat 64 ((if neg then 2 ^ 63 else 0) + mag)

/-- +0.0 -/
def F64.zero : F64 := 0x0000000000000000#64

/-- 1.0 -/
def F64.one : F64 := 0x3FF0000000000000#64

/-- -1.0 -/
def F64.minusOne : F64 := 0xBFF0000000000000#64

/-- The stand-in for a NaN result, until `F64.settle` draws its bits. -/
def F64.nanMark : F64 := 0x7FF8000000000000#64

/-! ## The named constants (R21) -/

/-- TWO_PI of R21. -/
def F64.twoPi : F64 := 0x401921FB54442D18#64

/-- HALF_PI of R21. -/
def F64.halfPi : F64 := 0x3FF921FB54442D18#64

/-- HALF_PI with the sign set, the lower end of a sector of R289. -/
def F64.negHalfPi : F64 := 0xBFF921FB54442D18#64

/-- PI_F of R21. -/
def F64.piF : F64 := 0x400921FB54442D18#64

/-- AMP of R21. -/
def F64.amp : F64 := 0x3FE6A09E667F3BCD#64

/-- AMP with the sign set (R260). -/
def F64.negAmp : F64 := 0xBFE6A09E667F3BCD#64

/-! ## Exact values and rounding -/

/-- The magnitude of a finite value in units of 2^-1074 (R19: subnormals included). -/
def F64.units (x : F64) : Nat :=
  let e := F64.mag x / 2 ^ 52
  if e = 0 then F64.mag x else (2 ^ 52 + F64.mag x % 2 ^ 52) * 2 ^ (e - 1)

/-- A finite value with its sign, in units of 2^-1074. -/
def F64.signedUnits (x : F64) : Int := if F64.sign x then -(F64.units x : Int) else (F64.units x : Int)

/-- How many units of 2^-1074 make 1.0. -/
def F64.unitsOfOne : Nat := 2 ^ 1074

/-- The magnitude bits of the binary64 value nearest to `n / d` units, ties to even, overflow to infinity (R16).
`u` is the spacing of binary64 values around `n / d`, a power of two; 53 bits are kept above it. -/
def F64.roundMag (n d : Nat) : Nat :=
  let sh := Nat.log2 (n / d) - 52
  let u := d * 2 ^ sh
  let q := n / u
  let r := n % u
  let q' := if u < 2 * r ∨ (2 * r = u ∧ q % 2 = 1) then q + 1 else q
  min (sh * 2 ^ 52 + q') F64.infMag

/-- The binary64 value nearest to `n / d` units with the given sign. -/
def F64.round (neg : Bool) (n d : Nat) : F64 := F64.pack neg (F64.roundMag n d)

/-! ## The four operations (R16): one rounding each -/

def F64.neg (x : F64) : F64 := F64.pack (!F64.sign x) (F64.mag x)

def F64.add (x y : F64) : F64 :=
  if F64.isNaN x || F64.isNaN y then F64.nanMark
  else if F64.isInf x then (if F64.isInf y && (F64.sign x != F64.sign y) then F64.nanMark else x)
  else if F64.isInf y then y
  else
    let t := F64.signedUnits x + F64.signedUnits y
    if t = 0 then F64.pack (F64.sign x && F64.sign y) 0
    else F64.round (decide (t < 0)) t.natAbs 1

def F64.sub (x y : F64) : F64 := F64.add x (F64.neg y)

def F64.mul (x y : F64) : F64 :=
  let s := F64.sign x != F64.sign y
  if F64.isNaN x || F64.isNaN y then F64.nanMark
  else if F64.isInf x || F64.isInf y then
    (if F64.isZero x || F64.isZero y then F64.nanMark else F64.pack s F64.infMag)
  else F64.round s (F64.units x * F64.units y) F64.unitsOfOne

def F64.div (x y : F64) : F64 :=
  let s := F64.sign x != F64.sign y
  if F64.isNaN x || F64.isNaN y then F64.nanMark
  else if F64.isInf x then (if F64.isInf y then F64.nanMark else F64.pack s F64.infMag)
  else if F64.isInf y then F64.pack s 0
  else if F64.isZero y then (if F64.isZero x then F64.nanMark else F64.pack s F64.infMag)
  else F64.round s (F64.units x * F64.unitsOfOne) (F64.units y)

/-- `f64(n)` of R287: the binary64 value of a natural number (exact below 2^53). -/
def F64.ofNat (n : Nat) : F64 := F64.round false (n * F64.unitsOfOne) 1

/-- `Σ_{i=0}^{n-1} t_i` of R16: from +0.0, the index ascending. -/
def F64.sum (n : Nat) (t : Nat → F64) : F64 := (List.range n).foldl (fun acc i => F64.add acc (t i)) F64.zero

/-! ## Comparisons (R17): false with a NaN operand, and -0.0 = +0.0 -/

/-- The order of the values that are not NaN. -/
def F64.key (x : F64) : Int := if F64.sign x then -(F64.mag x : Int) else (F64.mag x : Int)

def F64.lt (x y : F64) : Bool := !F64.isNaN x && !F64.isNaN y && decide (F64.key x < F64.key y)

def F64.le (x y : F64) : Bool := !F64.isNaN x && !F64.isNaN y && decide (F64.key x ≤ F64.key y)

def F64.eq (x y : F64) : Bool := !F64.isNaN x && !F64.isNaN y && decide (F64.key x = F64.key y)

/-! ## Stored results -/

/-- The k-th drawn quiet NaN (R18, I1): exponent all ones and the quiet bit set, every other bit open. -/
def F64.nanResult (k : Nat) : F64 := Config.nanBits k ||| 0x7FF8000000000000#64

/-- What is stored for an operation's result at draw k: the result, or the drawn NaN if it is a NaN (R18). -/
def F64.settle (k : Nat) (x : F64) : F64 := if F64.isNaN x then F64.nanResult k else x

/-- `F64.settle` of a row of results, at consecutive draws from k. -/
def F64.settleAll (k : Nat) : List F64 → List F64
  | [] => []
  | x :: xs => F64.settle k x :: F64.settleAll (k + 1) xs

end Sys2Proof.Machine
end

