-- ==== Sys2Proof/Machine/State.lean ====
section
/-! DEFINITION. The state of the block (10_state R30) as plain data, its value after reset (R54), and the reasons a
step can stop. The fields of the MODEL's own (params, draws, inputs, response) say so. -/

namespace Sys2Proof.Machine

/-- The status codes of STATUS.ERR (60_exceptions R312); the codes 0x0A to 0xFF are never written (I10). -/
inductive Code where
  /-- OK, 0x00. -/
  | ok
  /-- ERR_INVALID_LENGTH, 0x01. -/
  | invalidLength
  /-- ERR_INVALID_PARAM, 0x02. -/
  | invalidParam
  /-- ERR_ALLOC, 0x03. -/
  | alloc
  /-- ERR_ILLEGAL_CMD, 0x04. -/
  | illegalCmd
  /-- ERR_BAD_HANDLE, 0x05. -/
  | badHandle
  /-- ERR_WRONG_TYPE, 0x06. -/
  | wrongType
  /-- ERR_ADDR, 0x07. -/
  | addr
  /-- ERR_FATAL, 0x08. -/
  | fatal
  /-- FAULT_A0_ZERO, 0x09. -/
  | a0Zero
  deriving DecidableEq, Repr

/-- STATUS (R36), one field a field of the register; the reserved bits hold nothing and read 0 (`Status.word`). -/
structure Status where
  busy : Bool
  done : Bool
  ovr : Bool
  nf : Bool
  emptyWin : Bool
  fatal : Bool
  err : Code
  deriving DecidableEq, Repr

/-- ARG0 to ARG7 (R34). -/
structure Args where
  arg0 : Word
  arg1 : Word
  arg2 : Word
  arg3 : Word
  arg4 : Word
  arg5 : Word
  arg6 : Word
  arg7 : Word
  deriving DecidableEq, Repr

/-- The command in flight: the CMD word and ARG0 to ARG7 as captured at its acceptance (R40). -/
structure Pending where
  word : Word
  args : Args
  deriving DecidableEq, Repr

/-- FIRState of R46: `c.length = buf.length = n`, `0 ≤ pos < n` (`FirState.wf`). -/
structure FirState where
  n : Nat
  c : List F64
  buf : List F64
  pos : Nat
  deriving DecidableEq, Repr

/-- One second-order section of R47. -/
structure Section where
  b0 : F64
  b1 : F64
  b2 : F64
  a0 : F64
  a1 : F64
  a2 : F64
  x1 : F64
  x2 : F64
  y1 : F64
  y2 : F64
  deriving DecidableEq, Repr

/-- IIRState of R47: `sec.length = s`, processed in order. -/
structure IirState where
  s : Nat
  sec : List Section
  deriving DecidableEq, Repr

/-- LMSState of R48. -/
structure LmsState where
  n : Nat
  mu : F64
  w : List F64
  buf : List F64
  pos : Nat
  deriving DecidableEq, Repr

/-- RLSState of R49: `p` is the list of the rows of P. -/
structure RlsState where
  n : Nat
  lam : F64
  delta : F64
  w : List F64
  buf : List F64
  pos : Nat
  p : List (List F64)
  deriving DecidableEq, Repr

/-- What an instance slot holds (R45). -/
inductive Slot where
  | free
  | fir (f : FirState)
  | iir (q : IirState)
  | lms (l : LmsState)
  | rls (r : RlsState)
  deriving DecidableEq, Repr

/-- The model fault marks of 60_exceptions R330: set once, never cleared. -/
structure Marks where
  /-- UNWRITTEN_READ: a command read a DMEM word not written since reset (R80). -/
  unwrittenRead : Bool
  /-- HOST_BUS_ERROR: a host access of R329. -/
  hostBusError : Bool
  /-- HOST_HAZARD: a host access of R356 while BUSY = 1 (R357). -/
  hostHazard : Bool
  deriving DecidableEq, Repr

/-- What the outside world does next: an access of the host (R70, R74), the reset input (R350), a turn left to the
core (R132), or the host's WAIT (R112). Widths are in bits, offsets are byte offsets from the block's base; the aperture is
0x00000 to 0xFFFFF (R38, R70), and an offset beyond it is answered as a reserved one (DESIGN CHOICE, log 31). -/
inductive Input where
  | load (width : Nat) (offset : Nat)
  | store (width : Nat) (offset : Nat) (data : Word)
  | reset
  | coreTurn
  | wait
  deriving DecidableEq, Repr

/-- The block's answer to a host access. -/
inductive Response where
  /-- An admitted load returns a word. -/
  | data (w : Word)
  /-- An admitted store is performed, or ignored where the register is read-only. -/
  | stored
  /-- The bus error response of R39. -/
  | busError
  /-- The access is a hazard of R356; the spec gives it no modelled effect (R357). -/
  | unmodelled
  deriving DecidableEq, Repr

/-- Data memory: (byte address, byte), addresses strictly rising; byte k of DMEM word a has address 8a+k (R72, R73).
A byte that is not listed has not been written since reset and has no value (R42; log 6, log 22). -/
abbrev Memory := List Host.Cell

/-- The canonical form: addresses strictly rise. What an unlisted address reads as is no value, so no entry can equal
it. -/
abbrev Memory.wf (m : List Host.Cell) : Prop := m.Pairwise (fun a b => a.1 < b.1)

/-- The block's state (R30). -/
structure State where
  /-- The capacities of this implementation (R11); the model's own field, no step writes it (log 4). -/
  params : Config.Params
  /-- CTRL.IE (R32). -/
  ie : Bool
  /-- STATUS (R36). -/
  status : Status
  /-- RES0 (R35). -/
  res0 : Word
  /-- RES1 (R35). -/
  res1 : Word
  /-- ARG0 to ARG7 (R34). -/
  args : Args
  /-- PENDING (R40). -/
  pending : Option Pending
  /-- DMEM and written[] (R42). -/
  mem : Memory
  /-- slot[0 .. NUM_SLOTS-1] (R45). -/
  slots : List Slot
  /-- The model fault marks (R330). -/
  marks : Marks
  /-- How many free values have been drawn; the model's own field (log 5). -/
  draws : Nat
  /-- What the outside world does next, oldest first; the model's own field (log 1). -/
  inputs : List Input
  /-- The answer to the latest host access; the model's own field (log 3). -/
  response : Option Response
  deriving DecidableEq, Repr

/-- Why a step could stop the machine with a fault. There is none: the block raises no trap (60_exceptions R310), every
error is a status code, and the model fault marks of R330 are state. Nobody raises one (log 20). -/
inductive Fault where
  deriving DecidableEq, Repr

/-- Why an instruction could have no meaning. -/
inductive Refusal where
  /-- An instruction of the table the model does not cover yet; raised by an arm of exec only, and by no arm of this
  model. Safe: it stops. -/
  | notModelled (mnemonic : String)
  deriving DecidableEq, Repr

/-- STATUS after reset (R54). -/
def Status.reset : Status :=
  { busy := false, done := false, ovr := false, nf := false, emptyWin := false, fatal := false, err := .ok }

/-- ARG0 to ARG7 after reset (R54). -/
def Args.reset : Args :=
  { arg0 := 0, arg1 := 0, arg2 := 0, arg3 := 0, arg4 := 0, arg5 := 0, arg6 := 0, arg7 := 0 }

/-- The marks at power-on (R54). -/
def Marks.clear : Marks := { unwrittenRead := false, hostBusError := false, hostHazard := false }

/-- Power-on of a block with the given capacities (R54, R350: "Power-on is a reset"). -/
def State.powerOn (p : Config.Params) : State :=
  { params := p
    ie := false
    status := Status.reset
    res0 := 0
    res1 := 0
    args := Args.reset
    pending := none
    mem := []
    slots := List.replicate p.numSlots .free
    marks := Marks.clear
    draws := 0
    inputs := []
    response := none }

/-- The machine right after power-on (R54), with the default capacities of R11 and no host access waiting. -/
def State.reset : State := State.powerOn Config.Params.default

end Sys2Proof.Machine
end

