-- ==== Sys2Proof/Machine/Flags.lean ====
section
/-! DEFINITION. STATUS and CTRL as words (10_state R32, R36), the write-1-to-clear rule, the code numbers (60_exceptions
R312), the flag NF (40_command R142) and the interrupt line (R316). -/

namespace Sys2Proof.Machine

/-- STATUS.ERR of a code (R312). -/
def Code.byte : Code → BitVec 8
  | .ok => 0x00#8
  | .invalidLength => 0x01#8
  | .invalidParam => 0x02#8
  | .alloc => 0x03#8
  | .illegalCmd => 0x04#8
  | .badHandle => 0x05#8
  | .wrongType => 0x06#8
  | .addr => 0x07#8
  | .fatal => 0x08#8
  | .a0Zero => 0x09#8

/-- STATUS as the host reads it (R36): reserved bits read 0. -/
def Status.word (s : Status) : Word :=
  0#48 ++ s.err.byte ++ 0#2 ++ BitVec.ofBool s.fatal ++ BitVec.ofBool s.emptyWin ++ BitVec.ofBool s.nf ++
    BitVec.ofBool s.ovr ++ BitVec.ofBool s.done ++ BitVec.ofBool s.busy

/-- A host write to STATUS: the W1C bits written as 1 are cleared, every other bit is kept (R36, R76). -/
def Status.clearOnes (s : Status) (w : Word) : Status :=
  { s with
    done := s.done && !w.getLsbD 1
    ovr := s.ovr && !w.getLsbD 2
    nf := s.nf && !w.getLsbD 3
    emptyWin := s.emptyWin && !w.getLsbD 4 }

/-- CTRL as the host reads it (R32): reserved bits read 0. -/
def ctrlWord (ie : Bool) : Word := 0#63 ++ BitVec.ofBool ie

/-- A host write to CTRL keeps bit 0 only (R32). -/
def ctrlWrite (w : Word) : Bool := w.getLsbD 0

/-- `irq = CTRL.IE ∧ STATUS.DONE` (R316). -/
def State.irq (s : State) : Bool := s.ie && s.status.done

/-- NF after an OK completion that wrote the given F64 values: set if one is an infinity or a NaN, never cleared
(R142). -/
def Status.noteResults (s : Status) (vs : List F64) : Status :=
  { s with nf := s.nf || vs.any (fun v => !F64.isFinite v) }

end Sys2Proof.Machine
end

