-- ==== Sys2Proof/Machine/Operands.lean ====
section
/-! DEFINITION. The operand forms of 30_encoding R106 (F64, I64, U64), the assignment of operands to ARG registers per
command (R107), and the registers by number. Every command reads the snapshot in PENDING, never the live ARG
registers (R40, R107). -/

namespace Sys2Proof.Machine

/-- `i64(b)`: two's complement (R13, R106). -/
def i64 (w : Word) : Int := w.toInt

/-- A U64 operand: a DMEM word address (R13, R106). -/
def u64 (w : Word) : Nat := w.toNat

/-- `f64(b)`: no conversion is made (R106). -/
def f64 (w : Word) : F64 := w

/-- `zext_64(n)` of an index or a count (R108, R139). -/
def zext64 (n : Nat) : Word := BitVec.ofNat 64 n

/-- ARG k (R34). -/
def Args.get (a : Args) (k : Nat) : Word :=
  match k with
  | 0 => a.arg0
  | 1 => a.arg1
  | 2 => a.arg2
  | 3 => a.arg3
  | 4 => a.arg4
  | 5 => a.arg5
  | 6 => a.arg6
  | _ => a.arg7

/-- ARG k written (R34). -/
def Args.set (a : Args) (k : Nat) (v : Word) : Args :=
  match k with
  | 0 => { a with arg0 := v }
  | 1 => { a with arg1 := v }
  | 2 => { a with arg2 := v }
  | 3 => { a with arg3 := v }
  | 4 => { a with arg4 := v }
  | 5 => { a with arg5 := v }
  | 6 => { a with arg6 := v }
  | _ => { a with arg7 := v }

/-- The ARG values the executing command reads: those captured in PENDING (R107). With nothing pending no command
executes; the live registers then stand for the snapshot a CMD write would take (log 10). -/
def State.operands (s : State) : Args :=
  match s.pending with
  | some p => p.args
  | none => s.args

/-- Operands of IIR_INIT (R180). -/
structure IirInitOperands where
  bLen : Int
  bAddr : Nat
  aLen : Int
  aAddr : Nat
  deriving DecidableEq, Repr

/-- The row IIR_INIT of R107. -/
def iirInitOperands (a : Args) : IirInitOperands :=
  { bLen := i64 a.arg0, bAddr := u64 a.arg1, aLen := i64 a.arg2, aAddr := u64 a.arg3 }

/-- Operands of QPSK_MODULATE (R263). -/
structure ModulateOperands where
  bitsAddr : Nat
  numBits : Int
  fc : F64
  fs : F64
  sps : Int
  outAddr : Nat
  deriving DecidableEq, Repr

/-- The row QPSK_MODULATE of R107. -/
def modulateOperands (a : Args) : ModulateOperands :=
  { bitsAddr := u64 a.arg0, numBits := i64 a.arg1, fc := f64 a.arg2, fs := f64 a.arg3, sps := i64 a.arg4,
    outAddr := u64 a.arg5 }

/-- Operands of QPSK_DEMODULATE (R280). -/
structure DemodulateOperands where
  inAddr : Nat
  length : Int
  fc : F64
  fs : F64
  sps : Int
  delay : Int
  bitsAddr : Nat
  consAddr : Nat
  deriving DecidableEq, Repr

/-- The row QPSK_DEMODULATE of R107. -/
def demodulateOperands (a : Args) : DemodulateOperands :=
  { inAddr := u64 a.arg0, length := i64 a.arg1, fc := f64 a.arg2, fs := f64 a.arg3, sps := i64 a.arg4,
    delay := i64 a.arg5, bitsAddr := u64 a.arg6, consAddr := u64 a.arg7 }

/-- `a mod N` of R15, the unique r with 0 ≤ r < N, as an index of a circular buffer. -/
def ringIndex (a : Int) (n : Nat) : Nat := (a % (n : Int)).toNat

/-- `ceil_div(a, b)` of R15. -/
def ceilDiv (a b : Nat) : Nat := (a + b - 1) / b

end Sys2Proof.Machine
end

