-- ==== Sys2Proof/Machine/Ops.lean ====
section
/-! DEFINITION. The named operations every command is made of: DMEM (10_state R42, 20_memory R72 to R80), completion and
`raise Error` (40_command R132, 60_exceptions R311), the checks before a command's own (R133 to R137), slots and
allocation (R45, R139, R145), acceptance of a CMD write (R130, R131) and reset (70_reset R350). -/

namespace Sys2Proof.Machine

/-- What a meaning answers. -/
abbrev Answer := Host.Outcome State Fault Refusal

/-! ## Data memory -/

/-- The byte at a DMEM byte address, `none` where nothing has been written since reset. -/
def Memory.byte (m : List Host.Cell) (a : Nat) : Option Byte :=
  match m with
  | [] => none
  | (k, v) :: rest => if k = a then some v else Memory.byte rest a

/-- One byte written, the list kept in address order. -/
def Memory.putByte (m : List Host.Cell) (a : Nat) (b : Byte) : List Host.Cell :=
  match m with
  | [] => [(a, b)]
  | (k, v) :: rest =>
    if a < k then (a, b) :: (k, v) :: rest
    else if a = k then (a, b) :: rest
    else (k, v) :: Memory.putByte rest a b

/-- Byte k of a word (R73, little-endian: byte k holds bits 8k+7 : 8k). -/
def wordByte (w : Word) (k : Nat) : Byte := w.extractLsb' (8 * k) 8

/-- The word of eight bytes, byte 0 first (R73). -/
def wordOfBytes (b0 b1 b2 b3 b4 b5 b6 b7 : Byte) : Word := b7 ++ b6 ++ b5 ++ b4 ++ b3 ++ b2 ++ b1 ++ b0

/-- DMEM word a, `none` where it has not been written since reset (R42). -/
def Memory.word (m : List Host.Cell) (a : Nat) : Option Word :=
  match Memory.byte m (8 * a), Memory.byte m (8 * a + 1), Memory.byte m (8 * a + 2), Memory.byte m (8 * a + 3),
    Memory.byte m (8 * a + 4), Memory.byte m (8 * a + 5), Memory.byte m (8 * a + 6), Memory.byte m (8 * a + 7) with
  | some b0, some b1, some b2, some b3, some b4, some b5, some b6, some b7 =>
    some (wordOfBytes b0 b1 b2 b3 b4 b5 b6 b7)
  | _, _, _, _, _, _, _, _ => none

/-- DMEM word a written (R42, R73). -/
def Memory.putWord (m : List Host.Cell) (a : Nat) (w : Word) : List Host.Cell :=
  (List.range 8).foldl (fun m k => Memory.putByte m (8 * a + k) (wordByte w k)) m

/-- `MemWrite(a, n, v)` of R14: the words of v at a, a+1, … in order. -/
def Memory.putWords (m : List Host.Cell) (a : Nat) : List Word → List Host.Cell
  | [] => m
  | w :: ws => Memory.putWords (Memory.putWord m a w) (a + 1) ws

/-- `written[a]` (R42). -/
def State.written (s : State) (a : Nat) : Bool := (Memory.word s.mem a).isSome

/-- The value read at word a + i as the i-th word of a read: what was written there, else an open value (R42, R80). -/
def State.wordRead (s : State) (a i : Nat) : Word :=
  (Memory.word s.mem (a + i)).getD (Config.unwrittenWord (s.draws + i) (a + i))

/-- `MemRead(a, n)` of R14. -/
def State.readWords (s : State) (a n : Nat) : List Word := (List.range n).map (s.wordRead a)

/-- Are the n words from a all written? -/
def State.allWritten (s : State) (a n : Nat) : Bool := (List.range n).all (fun i => s.written (a + i))

/-- What a `MemRead(a, n)` leaves behind: the mark UNWRITTEN_READ if a word was not written (R80), and n draws used. -/
def State.noteReads (s : State) (a n : Nat) : State :=
  { s with
    marks := { s.marks with unwrittenRead := s.marks.unwrittenRead || !s.allWritten a n }
    draws := s.draws + n }

/-- `MemWrite` on the state. -/
def State.writeWords (s : State) (a : Nat) (ws : List Word) : State := { s with mem := Memory.putWords s.mem a ws }

/-- The range check of R78, exact, without wrap: does an array of n words at word a lie in DMEM? -/
def State.inRange (s : State) (a n : Nat) : Bool := decide (a + n ≤ s.params.dmemWords)

/-! ## Completion and errors -/

/-- The completion writes of R132. -/
def State.complete (s : State) (code : Code) : State :=
  { s with status := { s.status with err := code, done := true, busy := false }, pending := none }

/-- `raise Error(code)` (R14, R311): the command completes with the code and changes nothing else; FAULT_A0_ZERO also
latches FATAL (R186). This is all the block has of exceptions (R310, R318), and nothing returns from it (R319). -/
def State.raised (s : State) (code : Code) : State :=
  { s with status := { s.status with fatal := s.status.fatal || decide (code = Code.a0Zero) } }.complete code

/-- A command that ends in an error answers the state of R311. -/
def raiseError (code : Code) (s : State) : Answer := .next (s.raised code)

/-- A command that passed every check completes with OK (R141). -/
def completeOk (s : State) : Answer := .next (s.complete .ok)

/-! ## The checks before a command's own (R133) -/

/-- Step 1: STATUS.FATAL refuses the command (R134). -/
def guardFatal (s : State) (k : Answer) : Answer := if s.status.fatal then raiseError .fatal s else k

/-- What slot h holds; beyond the slots there is nothing. -/
def State.slot (s : State) (h : Nat) : Slot := s.slots.getD h .free

def Slot.isFree : Slot → Bool
  | .free => true
  | .fir _ => false
  | .iir _ => false
  | .lms _ => false
  | .rls _ => false

def Slot.asFir : Slot → Option FirState
  | .fir f => some f
  | .free => none
  | .iir _ => none
  | .lms _ => none
  | .rls _ => none

def Slot.asIir : Slot → Option IirState
  | .iir q => some q
  | .free => none
  | .fir _ => none
  | .lms _ => none
  | .rls _ => none

def Slot.asLms : Slot → Option LmsState
  | .lms l => some l
  | .free => none
  | .fir _ => none
  | .iir _ => none
  | .rls _ => none

def Slot.asRls : Slot → Option RlsState
  | .rls r => some r
  | .free => none
  | .fir _ => none
  | .iir _ => none
  | .lms _ => none

/-- Steps 1, 3 and 4 of R133 for a command on handle h whose engine kind is the one `kind` recognises: FATAL, then a
handle of NUM_SLOTS or more or of a FREE slot (R136), then a slot of another kind (R137); then the command. -/
def withEngine {α : Type} (kind : Slot → Option α) (h : Nat) (s : State) (k : α → Answer) : Answer :=
  guardFatal s
    (if s.params.numSlots ≤ h ∨ (s.slot h).isFree then raiseError .badHandle s
     else
       match kind (s.slot h) with
       | none => raiseError .wrongType s
       | some e => k e)

/-! ## Slots -/

/-- slot[h] written. -/
def State.setSlot (s : State) (h : Nat) (v : Slot) : State := { s with slots := s.slots.set h v }

/-- The smallest index with slot[h] = FREE (R139). -/
def State.freeSlot (s : State) : Option Nat := s.slots.findIdx? Slot.isFree

/-- Step 6 of R133: slot allocation, else ERR_ALLOC (R139). -/
def withFreeSlot (s : State) (k : Nat → Answer) : Answer :=
  match s.freeSlot with
  | none => raiseError .alloc s
  | some h => k h

/-- The end of an INIT: the new engine state in slot h, its handle in RES0 (R139). -/
def finishInit (h : Nat) (v : Slot) (s : State) : Answer :=
  completeOk { s.setSlot h v with res0 := zext64 h }

/-- The end of a RELEASE (R145). -/
def finishRelease (h : Nat) (s : State) : Answer := completeOk (s.setSlot h .free)

/-- The end of a PROCESS: the engine state in slot h, the output in RES0 and NF by R142; `drawn` free values have been
used. -/
def finishProcess (h : Nat) (v : Slot) (y : F64) (drawn : Nat) (s : State) : Answer :=
  completeOk
    { s.setSlot h v with
      res0 := y
      status := s.status.noteResults [y]
      draws := s.draws + drawn }

/-! ## CMD writes (R130, R131) and reset (R350) -/

/-- Acceptance of a command word (R130). The draw counter, the model's own, goes on by one: a command completes before
DMEM can be loaded again, so an unwritten word may then read differently (R76; log 7). -/
def State.accept (s : State) (w : Word) : State :=
  { s with
    pending := some { word := w, args := s.args }
    status := { s.status with busy := true, done := false }
    draws := s.draws + 1 }

/-- A host write of w to CMD: accepted while BUSY = 0, dropped with OVR set while BUSY = 1. -/
def State.writeCmd (s : State) (w : Word) : State :=
  if s.status.busy then { s with status := { s.status with ovr := true } } else s.accept w

/-- The reset input (R350, R54): every piece of state at its reset value, whatever is in flight; the marks stay (R330).
Of the model's own fields the capacities and the rest of the inputs stay, and the draw counter goes on by one (log 17). -/
def State.resetInput (s : State) : State :=
  { State.powerOn s.params with marks := s.marks, draws := s.draws + 1, inputs := s.inputs }

/-! ## An illegal command word -/

/-- Steps 1 and 2 of R133 for a word that decodes to nothing: ERR_FATAL, else ERR_ILLEGAL_CMD (R134, R135). -/
def illegalCommand (s : State) : Answer := guardFatal s (raiseError .illegalCmd s)

end Sys2Proof.Machine
end

