-- ==== Sys2Proof/Machine/Fir.lean ====
section
/-! DEFINITION. The FIR engine (41_fir R160 to R162). -/

namespace Sys2Proof.Machine

/-- FIR{N, c, buf = [+0.0]*N, pos = 0} of R160. -/
def FirState.fresh (n : Nat) (c : List F64) : FirState :=
  { n := n, c := c, buf := List.replicate n F64.zero, pos := 0 }

/-- `s.buf[s.pos] <- x; s.pos <- (s.pos + 1) mod s.N` of R161. -/
def FirState.push (f : FirState) (x : F64) : FirState :=
  { f with buf := f.buf.set f.pos x, pos := (f.pos + 1) % f.n }

/-- The sum of R161, after the cursor has moved: c[i] times the i-th newest sample. -/
def FirState.output (f : FirState) : F64 :=
  F64.sum f.n (fun i =>
    F64.mul (f.c.getD i F64.zero) (f.buf.getD (ringIndex ((f.pos : Int) - 1 - (i : Int)) f.n) F64.zero))

/-- FIR_INIT (R160). -/
def execFirInit (s : State) : Answer :=
  let n := i64 s.operands.arg0
  let ca := u64 s.operands.arg1
  guardFatal s
    (if n ≤ 0 then raiseError .invalidLength s
     else if !s.inRange ca n.toNat then raiseError .addr s
     else if s.params.nMax < n.toNat then raiseError .alloc s
     else withFreeSlot s (fun h =>
       finishInit h (.fir (FirState.fresh n.toNat (s.readWords ca n.toNat))) (s.noteReads ca n.toNat)))

/-- FIR_PROCESS (R161). -/
def execFirProcess (h : Nat) (s : State) : Answer :=
  withEngine Slot.asFir h s (fun f =>
    let f' := f.push (f64 s.operands.arg0)
    finishProcess h (.fir f') (F64.settle s.draws f'.output) 1 s)

/-- FIR_RELEASE (R162). -/
def execFirRelease (h : Nat) (s : State) : Answer := withEngine Slot.asFir h s (fun _ => finishRelease h s)

end Sys2Proof.Machine
end

