-- ==== Sys2Proof/Machine/Iir.lean ====
section
/-! DEFINITION. The IIR biquad cascade (42_iir R180 to R186). -/

namespace Sys2Proof.Machine

/-- Section i of R180 and R181 from the words of b and of a, histories +0.0. -/
def sectionOf (b a : List F64) (i : Nat) : Section :=
  { b0 := b.getD (3 * i) F64.zero, b1 := b.getD (3 * i + 1) F64.zero, b2 := b.getD (3 * i + 2) F64.zero
    a0 := a.getD (3 * i) F64.zero, a1 := a.getD (3 * i + 1) F64.zero, a2 := a.getD (3 * i + 2) F64.zero
    x1 := F64.zero, x2 := F64.zero, y1 := F64.zero, y2 := F64.zero }

/-- IIR{S, sec} of R180. -/
def IirState.fresh (n : Nat) (b a : List F64) : IirState := { s := n, sec := (List.range n).map (sectionOf b a) }

/-- y of R184, before it is stored: direct form I, evaluated as parenthesised there. -/
def Section.output (q : Section) (v : F64) : F64 :=
  F64.div
    (F64.sub
      (F64.sub (F64.add (F64.add (F64.mul q.b0 v) (F64.mul q.b1 q.x1)) (F64.mul q.b2 q.x2)) (F64.mul q.a1 q.y1))
      (F64.mul q.a2 q.y2))
    q.a0

/-- The shift of R184: x2 <- x1, x1 <- v, y2 <- y1, y1 <- y. -/
def Section.shift (q : Section) (v y : F64) : Section := { q with x2 := q.x1, x1 := v, y2 := q.y1, y1 := y }

/-- The loop of R183 from draw k: each section's output is the next one's input; the last one's is the cascade's. -/
def cascade (k : Nat) : List Section → F64 → List Section × F64
  | [], v => ([], v)
  | q :: qs, v =>
    let y := F64.settle k (q.output v)
    let rest := cascade (k + 1) qs y
    (q.shift v y :: rest.1, rest.2)

/-- Check 1 of R183: some section has a0 = 0.0, of either sign (R17, R186). -/
def IirState.hasZeroA0 (q : IirState) : Bool := q.sec.any (fun t => F64.eq t.a0 F64.zero)

/-- The six coefficients of R182 written over one section, its history kept. -/
def Section.withCoefficients (q : Section) (b0 b1 b2 a0 a1 a2 : F64) : Section :=
  { q with b0 := b0, b1 := b1, b2 := b2, a0 := a0, a1 := a1, a2 := a2 }

/-- IIR_INIT (R180). -/
def execIirInit (s : State) : Answer :=
  let o := iirInitOperands s.operands
  guardFatal s
    (if o.bLen ≤ 0 ∨ o.aLen ≤ 0 then raiseError .invalidLength s
     else if o.bLen % 3 ≠ 0 ∨ o.aLen % 3 ≠ 0 ∨ o.bLen ≠ o.aLen then raiseError .invalidLength s
     else if !s.inRange o.bAddr o.bLen.toNat || !s.inRange o.aAddr o.aLen.toNat then raiseError .addr s
     else if s.params.sMax < o.bLen.toNat / 3 then raiseError .alloc s
     else withFreeSlot s (fun h =>
       let b := s.readWords o.bAddr o.bLen.toNat
       let s1 := s.noteReads o.bAddr o.bLen.toNat
       let a := s1.readWords o.aAddr o.aLen.toNat
       finishInit h (.iir (IirState.fresh (o.bLen.toNat / 3) b a)) (s1.noteReads o.aAddr o.aLen.toNat)))

/-- IIR_SET_SECTION (R182). -/
def execIirSetSection (h : Nat) (s : State) : Answer :=
  withEngine Slot.asIir h s (fun q =>
    let a := s.operands
    let idx := i64 a.arg0
    if idx < 0 ∨ (q.s : Int) ≤ idx then raiseError .invalidParam s
    else
      completeOk (s.setSlot h (.iir
        { q with sec := q.sec.modify idx.toNat (fun t =>
            t.withCoefficients (f64 a.arg1) (f64 a.arg2) (f64 a.arg3) (f64 a.arg4) (f64 a.arg5) (f64 a.arg6)) })))

/-- IIR_PROCESS (R183, R184, R186). -/
def execIirProcess (h : Nat) (s : State) : Answer :=
  withEngine Slot.asIir h s (fun q =>
    if q.hasZeroA0 then raiseError .a0Zero s
    else
      let r := cascade s.draws q.sec (f64 s.operands.arg0)
      finishProcess h (.iir { q with sec := r.1 }) r.2 q.sec.length s)

/-- IIR_RELEASE (R185). -/
def execIirRelease (h : Nat) (s : State) : Answer := withEngine Slot.asIir h s (fun _ => finishRelease h s)

end Sys2Proof.Machine
end

