-- ==== Sys2Proof/Machine/Lms.lean ====
section
/-! DEFINITION. The LMS adaptive engine (43_lms R210 to R212). -/

namespace Sys2Proof.Machine

/-- LMS{N, mu, w = [+0.0]*N, buf = [+0.0]*N, pos = 0} of R210. -/
def LmsState.fresh (n : Nat) (mu : F64) : LmsState :=
  { n := n, mu := mu, w := List.replicate n F64.zero, buf := List.replicate n F64.zero, pos := 0 }

/-- `buf[(pos − i) mod N]`, the i-th newest sample while the cursor still stands on the newest (R211). -/
def tapAt (buf : List F64) (pos n i : Nat) : F64 := buf.getD (ringIndex ((pos : Int) - (i : Int)) n) F64.zero

/-- The a-priori output of R211 over a buffer that already holds the input. -/
def LmsState.output (l : LmsState) (buf : List F64) : F64 :=
  F64.sum l.n (fun i => F64.mul (l.w.getD i F64.zero) (tapAt buf l.pos l.n i))

/-- The weight update of R211, `w[i] + ((mu · e) · buf[(pos − i) mod N])`, before the results are stored. -/
def LmsState.updated (l : LmsState) (buf : List F64) (e : F64) : List F64 :=
  (List.range l.n).map (fun i =>
    F64.add (l.w.getD i F64.zero) (F64.mul (F64.mul l.mu e) (tapAt buf l.pos l.n i)))

/-- One LMS sample from draw k: the new engine state and the output (R211). -/
def LmsState.sample (l : LmsState) (k : Nat) (x d : F64) : LmsState × F64 :=
  let buf := l.buf.set l.pos x
  let y := l.output buf
  let e := F64.sub d y
  ({ l with w := F64.settleAll (k + 1) (l.updated buf e), buf := buf, pos := (l.pos + 1) % l.n }, F64.settle k y)

/-- LMS_INIT (R210). -/
def execLmsInit (s : State) : Answer :=
  let n := i64 s.operands.arg0
  let mu := f64 s.operands.arg1
  guardFatal s
    (if n ≤ 0 then raiseError .invalidLength s
     else if !F64.lt F64.zero mu || !F64.isFinite mu then raiseError .invalidParam s
     else if s.params.nMax < n.toNat then raiseError .alloc s
     else withFreeSlot s (fun h => finishInit h (.lms (LmsState.fresh n.toNat mu)) s))

/-- LMS_PROCESS (R211). -/
def execLmsProcess (h : Nat) (s : State) : Answer :=
  withEngine Slot.asLms h s (fun l =>
    let r := l.sample s.draws (f64 s.operands.arg0) (f64 s.operands.arg1)
    finishProcess h (.lms r.1) r.2 (1 + l.n) s)

/-- LMS_RELEASE (R212). -/
def execLmsRelease (h : Nat) (s : State) : Answer := withEngine Slot.asLms h s (fun _ => finishRelease h s)

end Sys2Proof.Machine
end

