-- ==== Sys2Proof/Machine/Trig.lean ====
section
/-! DEFINITION. The parameters COS, SIN and ATAN2 (00_scope R11, D4), functions of their operands alone. Where item I4
of 93_implementation_defined fixes a value or a range (its properties 2 to 5) the definitions below have it; every
other value is the open constant of Config (log 9). The engines take the three as an argument (`Trig`), so that a
statement can also be made for every choice of them. -/

namespace Sys2Proof.Machine

/-- A choice of COS, SIN and ATAN2; ATAN2 takes (y, x). -/
structure Trig where
  cos : F64 → F64
  sin : F64 → F64
  atan2 : F64 → F64 → F64

/-- π/4 and 3π/4 as item I4 property 5 uses them (PI_F / 4, and 3π/4 rounded; 95_test_vectors 2.10; log 26). -/
def F64.quarterPi : F64 := 0x3FE921FB54442D18#64

/-- See `F64.quarterPi`. -/
def F64.threeQuarterPi : F64 := 0x4002D97C7F3321D2#64

/-- The value v with the sign of `neg` put on it. -/
def F64.withSign (neg : Bool) (v : F64) : F64 := F64.pack neg (F64.mag v)

/-- v if it is in [-bound, bound], else the given value of that range: how an open value meets a range of I4. -/
def F64.within (bound v other : F64) : F64 :=
  if F64.le (F64.withSign true bound) v && F64.le v bound then v else other

/-- COS: 1.0 at +0.0, NaN off the finite values, in [-1, 1] elsewhere (I4 properties 1 to 3). -/
def F64.cos (x : F64) : F64 :=
  if x = F64.zero then F64.one
  else if !F64.isFinite x then F64.nanMark
  else F64.within F64.one (Config.cosOpen x) F64.one

/-- SIN: +0.0 at +0.0, NaN off the finite values, in [-1, 1] elsewhere (I4 properties 1 to 3). -/
def F64.sin (x : F64) : F64 :=
  if x = F64.zero then F64.zero
  else if !F64.isFinite x then F64.nanMark
  else F64.within F64.one (Config.sinOpen x) F64.zero

/-- ATAN2 of (y, x): NaN for a NaN operand, the special cases of I4 property 5, in [-π, π] elsewhere (property 4). -/
def F64.atan2 (y x : F64) : F64 :=
  let sy := F64.sign y
  let sx := F64.sign x
  if F64.isNaN y || F64.isNaN x then F64.nanMark
  else if F64.isInf y then
    (if F64.isInf x then F64.withSign sy (if sx then F64.threeQuarterPi else F64.quarterPi)
     else F64.withSign sy F64.halfPi)
  else if F64.isZero y then F64.withSign sy (if sx then F64.piF else F64.zero)
  else if F64.isInf x then F64.withSign sy (if sx then F64.piF else F64.zero)
  else if F64.isZero x then F64.withSign sy F64.halfPi
  else F64.within F64.piF (Config.atan2Open y x) F64.zero

/-- The choice this machine runs with. -/
def trig : Trig := { cos := F64.cos, sin := F64.sin, atan2 := F64.atan2 }

end Sys2Proof.Machine
end

