-- ==== Sys2Proof/Machine/QpskMod.lean ====
section
/-! DEFINITION. The QPSK modulator (45_qpsk_mod R260 to R264), and the phase rules it shares with the demodulator
(R283). -/

namespace Sys2Proof.Machine

/-- The constellation point of the dibit (b0, b1), re then im (R260). -/
def symbolPoint (b0 b1 : Bool) : F64 × F64 :=
  (if b1 then F64.negAmp else F64.amp, if b0 then F64.negAmp else F64.amp)

/-- `inc <- (TWO_PI · fc) / fs` (R261). -/
def phaseInc (fc fs : F64) : F64 := F64.div (F64.mul F64.twoPi fc) fs

/-- `θ <- θ + inc; if θ ≥ TWO_PI: θ <- θ − TWO_PI` (R262). -/
def phaseStep (inc t : F64) : F64 :=
  let t' := F64.add t inc
  if F64.le F64.twoPi t' then F64.sub t' F64.twoPi else t'

/-- The phases of n consecutive samples from θ (R262: a sample uses θ, then θ advances). -/
def phases (inc : F64) : Nat → F64 → List F64
  | 0, _ => []
  | n + 1, t => t :: phases inc n (phaseStep inc t)

/-- One output sample of R263, `( I·c − Q·sn , I·sn + Q·c )` (R20). -/
def rotated (T : Trig) (p : F64 × F64) (t : F64) : F64 × F64 :=
  let c := T.cos t
  let sn := T.sin t
  (F64.sub (F64.mul p.1 c) (F64.mul p.2 sn), F64.add (F64.mul p.1 sn) (F64.mul p.2 c))

/-- The words of a row of complex values, re then im (R43, R109). -/
def complexWords : List (F64 × F64) → List Word
  | [] => []
  | p :: ps => p.1 :: p.2 :: complexWords ps

/-- A bit word of R264 check 6: the I64 value 0 or 1. -/
def isBit (w : Word) : Bool := decide (i64 w = 0 ∨ i64 w = 1)

/-- Bit i of a bit array (R44). -/
def bitAt (bits : List Word) (i : Nat) : Bool := decide (i64 (bits.getD i 0) = 1)

/-- Sample n of R263, n = k·sps + m with m < sps, at phase t: the symbol of bits 2k and 2k+1, rotated. -/
def sampleAt (T : Trig) (bits : List Word) (sps n : Nat) (t : F64) : F64 × F64 :=
  let k := n / sps
  rotated T (symbolPoint (bitAt bits (2 * k)) (bitAt bits (2 * k + 1))) t

/-- The `len` output samples of R263, before they are stored. -/
def modulated (T : Trig) (bits : List Word) (sps len : Nat) (inc : F64) : List (F64 × F64) :=
  (phases inc len F64.zero).mapIdx (fun n t => sampleAt T bits sps n t)

/-- A frequency or rate of R264 check 2 and R280 check 2: positive and finite. -/
def isRate (x : F64) : Bool := F64.lt F64.zero x && F64.isFinite x

/-- QPSK_MODULATE (R263, R264). -/
def execQpskModulate (s : State) : Answer :=
  let o := modulateOperands s.operands
  let nb := o.numBits.toNat
  let len := nb / 2 * o.sps.toNat
  guardFatal s
    (if o.numBits ≤ 0 ∨ o.numBits % 2 ≠ 0 then raiseError .invalidLength s
     else if !isRate o.fc || !isRate o.fs then raiseError .invalidParam s
     else if o.sps ≤ 0 then raiseError .invalidParam s
     else if !s.inRange o.bitsAddr nb then raiseError .addr s
     else if !s.inRange o.outAddr (2 * len) then raiseError .addr s
     else
       let bits := s.readWords o.bitsAddr nb
       let s1 := s.noteReads o.bitsAddr nb
       if !bits.all isBit then raiseError .invalidParam s1
       else
         let out := F64.settleAll s1.draws
           (complexWords (modulated trig bits o.sps.toNat len (phaseInc o.fc o.fs)))
         completeOk
           { s1.writeWords o.outAddr out with
             res0 := zext64 len
             status := s1.status.noteResults out
             draws := s1.draws + 2 * len })

end Sys2Proof.Machine
end

