-- ==== Sys2Proof/Machine/QpskDemod.lean ====
section
/-! DEFINITION. The QPSK demodulator with symbol decision (46_qpsk_demod R280 to R292). -/

namespace Sys2Proof.Machine

/-- `downconvert((r, i), θ)` of R284. -/
def downconvert (T : Trig) (p : F64 × F64) (t : F64) : F64 × F64 :=
  let c := T.cos t
  let sn := T.sin t
  (F64.add (F64.mul p.1 c) (F64.mul p.2 sn), F64.sub (F64.mul p.2 c) (F64.mul p.1 sn))

/-- The complex samples of a row of words, re then im (R43). -/
def complexOfWords : List Word → List (F64 × F64)
  | re :: im :: ws => (f64 re, f64 im) :: complexOfWords ws
  | [] => []
  | [_] => []

/-- `bb` of R280: every processed sample downconverted at its phase, the first at +0.0 (R283). -/
def baseband (T : Trig) (smp : List (F64 × F64)) (inc : F64) : List (F64 × F64) :=
  List.zipWith (downconvert T) smp (phases inc smp.length F64.zero)

/-- `lo` of symbol m (R286). -/
def windowLo (sps m : Nat) : Nat := m * sps + sps / 4

/-- `hi` of symbol m, clipped to the L processed samples (R286). -/
def windowHi (sps len m : Nat) : Nat := min (m * sps + 3 * sps / 4) len

/-- The average of R287 over the samples lo .. hi−1. -/
def average (bb : List (F64 × F64)) (lo hi : Nat) : F64 × F64 :=
  let cnt := F64.ofNat (hi - lo)
  (F64.div (F64.sum (hi - lo) (fun n => (bb.getD (lo + n) (F64.zero, F64.zero)).1)) cnt,
   F64.div (F64.sum (hi - lo) (fun n => (bb.getD (lo + n) (F64.zero, F64.zero)).2)) cnt)

/-- The sector of an angle (R289): the quadrants, each closed below; π and NaN fall to the last arm. -/
def sectorOf (ang : F64) : Bool × Bool :=
  if F64.le F64.zero ang && F64.lt ang F64.halfPi then (false, false)
  else if F64.le F64.halfPi ang && F64.lt ang F64.piF then (false, true)
  else if F64.le F64.negHalfPi ang && F64.lt ang F64.zero then (true, false)
  else (true, true)

/-- `decide(p)` of R289. -/
def decideSymbol (T : Trig) (p : F64 × F64) : Bool × Bool := sectorOf (T.atan2 p.2 p.1)

/-- What one symbol contributes: its constellation point as stored, its dibit, and whether its window was empty. -/
structure Decision where
  point : F64 × F64
  dibit : Bool × Bool
  empty : Bool
  deriving DecidableEq, Repr

/-- Symbol m of R280 at draw k: the average and its sector, or the open EMPTY_WINDOW_RESULT (R288). -/
def decisionAt (T : Trig) (bb : List (F64 × F64)) (sps len k m : Nat) : Decision :=
  let lo := windowLo sps m
  let hi := windowHi sps len m
  if hi ≤ lo then { point := Config.emptyPoint k, dibit := Config.emptyDibit k, empty := true }
  else
    let p := average bb lo hi
    { point := (F64.settle k p.1, F64.settle (k + 1) p.2), dibit := decideSymbol T p, empty := false }

/-- The decisions of the `m` symbols from draw k, two draws a symbol. -/
def decisions (T : Trig) (bb : List (F64 × F64)) (sps len k m : Nat) : List Decision :=
  (List.range m).map (fun j => decisionAt T bb sps len (k + 2 * j) j)

/-- A bit as the I64 word 0 or 1 (R44, R291). -/
def bitWord (b : Bool) : Word := if b then 1 else 0

/-- The bit words of R291, b0 then b1 of each symbol. -/
def bitWords : List Decision → List Word
  | [] => []
  | d :: ds => bitWord d.dibit.1 :: bitWord d.dibit.2 :: bitWords ds

/-- D of R281: the delay clamped below the length. -/
def clampedDelay (length delay : Int) : Nat := (min delay (length - 1)).toNat

/-- QPSK_DEMODULATE (R280). -/
def execQpskDemodulate (s : State) : Answer :=
  let o := demodulateOperands s.operands
  let skip := clampedDelay o.length o.delay
  let len := o.length.toNat - skip
  let m := ceilDiv len o.sps.toNat
  guardFatal s
    (if o.length ≤ 0 then raiseError .invalidLength s
     else if !isRate o.fc || !isRate o.fs then raiseError .invalidParam s
     else if o.sps ≤ 0 then raiseError .invalidParam s
     else if o.delay < 0 then raiseError .invalidParam s
     else if !s.inRange o.inAddr (2 * o.length.toNat) then raiseError .addr s
     else if !s.inRange o.bitsAddr (2 * m) || !s.inRange o.consAddr (2 * m) then raiseError .addr s
     else
       let smp := complexOfWords (s.readWords (o.inAddr + 2 * skip) (2 * len))
       let s1 := s.noteReads (o.inAddr + 2 * skip) (2 * len)
       let ds := decisions trig (baseband trig smp (phaseInc o.fc o.fs)) o.sps.toNat len s1.draws m
       let cons := complexWords (ds.map (fun d => d.point))
       let s2 := (s1.writeWords o.bitsAddr (bitWords ds)).writeWords o.consAddr cons
       completeOk
         { s2 with
           res0 := zext64 (2 * m)
           res1 := zext64 m
           status := { s2.status.noteResults cons with
             emptyWin := s2.status.emptyWin || ds.any (fun d => d.empty) }
           draws := s2.draws + 2 * m })

end Sys2Proof.Machine
end

