-- ==== Sys2Proof/Machine/Rls.lean ====
section
/-! DEFINITION. The RLS adaptive engine (44_rls R230 to R232), the steps of R231 one definition each. -/

namespace Sys2Proof.Machine

/-- P = r · I_N of R230: r on the diagonal, +0.0 elsewhere. -/
def diagonal (n : Nat) (r : F64) : List (List F64) :=
  (List.range n).map (fun i => (List.range n).map (fun j => if i = j then r else F64.zero))

/-- RLS{N, lam, delta, w, buf, pos, P} of R230, with r = 1.0 / delta. -/
def RlsState.fresh (n : Nat) (lam delta : F64) : RlsState :=
  { n := n, lam := lam, delta := delta
    w := List.replicate n F64.zero, buf := List.replicate n F64.zero, pos := 0
    p := diagonal n (F64.div F64.one delta) }

/-- `P[i][j]` (R49: row i, column j). -/
def entry (p : List (List F64)) (i j : Nat) : F64 := (p.getD i []).getD j F64.zero

/-- `x[i] <- s.buf[(s.pos − i) mod N]` (R231), over a buffer that already holds the input. -/
def RlsState.taps (r : RlsState) (buf : List F64) : List F64 := (List.range r.n).map (tapAt buf r.pos r.n)

/-- Step 1: `Σ w[i] · x[i]`. -/
def RlsState.output (r : RlsState) (x : List F64) : F64 :=
  F64.sum r.n (fun i => F64.mul (r.w.getD i F64.zero) (x.getD i F64.zero))

/-- Step 3: `Px[i] = Σ_j P[i][j] · x[j]`. -/
def RlsState.px (r : RlsState) (x : List F64) : List F64 :=
  (List.range r.n).map (fun i => F64.sum r.n (fun j => F64.mul (entry r.p i j) (x.getD j F64.zero)))

/-- Step 4: `denom = λ + Σ x[i] · Px[i]`. -/
def RlsState.denom (r : RlsState) (x px : List F64) : F64 :=
  F64.add r.lam (F64.sum r.n (fun i => F64.mul (x.getD i F64.zero) (px.getD i F64.zero)))

/-- Step 5: `k[i] = Px[i] / denom`. -/
def RlsState.gain (r : RlsState) (px : List F64) (denom : F64) : List F64 :=
  (List.range r.n).map (fun i => F64.div (px.getD i F64.zero) denom)

/-- Step 6: `w[i] + (k[i] · e)`. -/
def RlsState.newWeights (r : RlsState) (k : List F64) (e : F64) : List F64 :=
  (List.range r.n).map (fun i => F64.add (r.w.getD i F64.zero) (F64.mul (k.getD i F64.zero) e))

/-- Step 7: `(P[i][j] − ((k[i] · k[j]) · denom)) / λ` (C5). -/
def RlsState.newEntry (r : RlsState) (k : List F64) (denom : F64) (i j : Nat) : F64 :=
  F64.div (F64.sub (entry r.p i j) (F64.mul (F64.mul (k.getD i F64.zero) (k.getD j F64.zero)) denom)) r.lam

/-- Step 7 for every entry, the result of row i and column j stored at draw `d + i·N + j`. -/
def RlsState.newP (r : RlsState) (d : Nat) (k : List F64) (denom : F64) : List (List F64) :=
  (List.range r.n).map (fun i =>
    (List.range r.n).map (fun j => F64.settle (d + i * r.n + j) (r.newEntry k denom i j)))

/-- One RLS sample from draw d: the new engine state and the output (R231). -/
def RlsState.sample (r : RlsState) (d : Nat) (xin des : F64) : RlsState × F64 :=
  let buf := r.buf.set r.pos xin
  let x := r.taps buf
  let y := r.output x
  let e := F64.sub des y
  let px := r.px x
  let denom := r.denom x px
  let k := r.gain px denom
  ({ r with
      w := F64.settleAll (d + 1) (r.newWeights k e)
      buf := buf
      pos := (r.pos + 1) % r.n
      p := r.newP (d + 1 + r.n) k denom },
    F64.settle d y)

/-- RLS_INIT (R230). -/
def execRlsInit (s : State) : Answer :=
  let n := i64 s.operands.arg0
  let lam := f64 s.operands.arg1
  let delta := f64 s.operands.arg2
  guardFatal s
    (if n ≤ 0 then raiseError .invalidLength s
     else if !(F64.lt F64.zero lam && F64.le lam F64.one) then raiseError .invalidParam s
     else if !F64.lt F64.zero delta || !F64.isFinite delta then raiseError .invalidParam s
     else if s.params.nMax < n.toNat then raiseError .alloc s
     else withFreeSlot s (fun h => finishInit h (.rls (RlsState.fresh n.toNat lam delta)) s))

/-- RLS_PROCESS (R231). -/
def execRlsProcess (h : Nat) (s : State) : Answer :=
  withEngine Slot.asRls h s (fun r =>
    let t := r.sample s.draws (f64 s.operands.arg0) (f64 s.operands.arg1)
    finishProcess h (.rls t.1) t.2 (1 + r.n + r.n * r.n) s)

/-- RLS_RELEASE (R232). -/
def execRlsRelease (h : Nat) (s : State) : Answer := withEngine Slot.asRls h s (fun _ => finishRelease h s)

end Sys2Proof.Machine
end

