-- ==== Sys2Proof/Machine/Dispatch.lean ====
section
/-! DEFINITION. One arm per command, each one direct call of its meaning. -/

namespace Sys2Proof.Machine

def exec (i : Instr) (s : State) : Host.Outcome State Fault Refusal :=
  match i with
  -- 41_fir
  | .firInit => Sys2Proof.Machine.execFirInit s
  | .firProcess h => Sys2Proof.Machine.execFirProcess h s
  | .firRelease h => Sys2Proof.Machine.execFirRelease h s
  -- 42_iir
  | .iirInit => Sys2Proof.Machine.execIirInit s
  | .iirSetSection h => Sys2Proof.Machine.execIirSetSection h s
  | .iirProcess h => Sys2Proof.Machine.execIirProcess h s
  | .iirRelease h => Sys2Proof.Machine.execIirRelease h s
  -- 43_lms
  | .lmsInit => Sys2Proof.Machine.execLmsInit s
  | .lmsProcess h => Sys2Proof.Machine.execLmsProcess h s
  | .lmsRelease h => Sys2Proof.Machine.execLmsRelease h s
  -- 44_rls
  | .rlsInit => Sys2Proof.Machine.execRlsInit s
  | .rlsProcess h => Sys2Proof.Machine.execRlsProcess h s
  | .rlsRelease h => Sys2Proof.Machine.execRlsRelease h s
  -- 45_qpsk_mod, 46_qpsk_demod
  | .qpskModulate => Sys2Proof.Machine.execQpskModulate s
  | .qpskDemodulate => Sys2Proof.Machine.execQpskDemodulate s

end Sys2Proof.Machine
end

