-- ==== Sys2Proof/Machine/HostBus.lean ====
section
/-! DEFINITION. Host accesses: the aperture map (10_state R38), which accesses are admitted (R39, 20_memory R74), what a
load returns and a store does (R31 to R37, R42, R76), the bus error (60_exceptions R329) and the BUSY hazard
(70_reset R356, R357). -/

namespace Sys2Proof.Machine

/-- The ID register (R31). -/
def idValue : Word := 0x0000000146495250#64

/-- What stands at an aperture offset (R38). -/
inductive Target where
  | id
  | ctrl
  | status
  | cmd
  | res0
  | res1
  /-- ARG k. -/
  | arg (k : Nat)
  /-- DMEM word a. -/
  | dmem (a : Nat)
  deriving DecidableEq, Repr

/-- The first byte offset of the DMEM window (R38, R72). -/
def dmemOffset : Nat := 0x80000

/-- The map of R38 at an aligned offset; `none` where it is reserved, and beyond the 1 MiB aperture, of which the spec
says nothing (DESIGN CHOICE, log 31: such an access is a bus error, like the reserved offsets above the DMEM window). -/
def targetAt (p : Config.Params) (off : Nat) : Option Target :=
  if off < 0x8 then some .id
  else if off < 0x10 then some .ctrl
  else if off < 0x18 then some .status
  else if off < 0x20 then some .cmd
  else if off < 0x28 then some .res0
  else if off < 0x30 then some .res1
  else if off < 0x40 then none
  else if off < 0x80 then some (.arg ((off - 0x40) / 8))
  else if off < dmemOffset then none
  else if off < dmemOffset + 8 * p.dmemWords then some (.dmem ((off - dmemOffset) / 8))
  else none

/-- What an access of this width (in bits) at this offset reaches; `none` is a bus error: not 64 bits wide, not
aligned, or a reserved offset (R39, R74). -/
def admitted (p : Config.Params) (width off : Nat) : Option Target :=
  if width = 64 ∧ off % 8 = 0 then targetAt p off else none

/-- Is an access there a hazard while BUSY = 1 (R39, R356)? ID, CTRL, STATUS and CMD are safe at any time. -/
def Target.hazardous : Target → Bool
  | .id => false
  | .ctrl => false
  | .status => false
  | .cmd => false
  | .res0 => true
  | .res1 => true
  | .arg _ => true
  | .dmem _ => true

/-- What a load returns. CMD reads 0 (R37). A DMEM word that has not been written reads as an open value (I2), the same
at every load while no command completes in between (R76; log 7). -/
def readTarget (t : Target) (s : State) : Word :=
  match t with
  | .id => idValue
  | .ctrl => ctrlWord s.ie
  | .status => s.status.word
  | .cmd => 0
  | .res0 => s.res0
  | .res1 => s.res1
  | .arg k => s.args.get k
  | .dmem a => s.wordRead a 0

/-- What a store does (R76). Stores to ID and RES are ignored (R31, R35); a store to CMD requests a command. -/
def writeTarget (t : Target) (w : Word) (s : State) : State :=
  match t with
  | .id => s
  | .ctrl => { s with ie := ctrlWrite w }
  | .status => { s with status := s.status.clearOnes w }
  | .cmd => s.writeCmd w
  | .res0 => s
  | .res1 => s
  | .arg k => { s with args := s.args.set k w }
  | .dmem a => s.writeWords a [w]

/-- The bus error of R329: no effect on the block, the mark HOST_BUS_ERROR. -/
def State.busError (s : State) : State :=
  { s with marks := { s.marks with hostBusError := true }, response := some .busError }

/-- The hazard of R357: the mark HOST_HAZARD and no other modelled effect. -/
def State.hazard (s : State) : State :=
  { s with marks := { s.marks with hostHazard := true }, response := some .unmodelled }

/-- A host access: bus error if it is not admitted, hazard if it must not be made while BUSY = 1, else `k`. -/
def hostAccess (width off : Nat) (s : State) (k : Target → State) : State :=
  match admitted s.params width off with
  | none => s.busError
  | some t => if s.status.busy && t.hazardous then s.hazard else k t

/-- A host load: it answers, and leaves the block as it was (R76). -/
def hostLoad (width off : Nat) (s : State) : State :=
  hostAccess width off s (fun t => { s with response := some (.data (readTarget t s)) })

/-- A host store. -/
def hostStore (width off : Nat) (w : Word) (s : State) : State :=
  hostAccess width off s (fun t => { writeTarget t w s with response := some .stored })

end Sys2Proof.Machine
end

