-- ==== Sys2Proof/Machine/Sequencer.lean ====
section
/-! DEFINITION. What one step does: the outside world's next input, or the core's turn (00_scope R10, 20_memory R83,
40_command R132). -/

namespace Sys2Proof.Machine

/-- The core's turn (R132): the pending command, decoded and executed completely; an illegal word is answered by R133
steps 1 and 2. With nothing pending the block is idle and keeps all state (60_exceptions R327, 70_reset R351). -/
def coreTurn (s : State) : Answer :=
  match s.pending with
  | none => .next s
  | some p =>
    match decode p.word with
    | .error _ => illegalCommand s
    | .ok i => exec i s

/-- The host's WAIT (R112), polling STATUS until BUSY = 0. While BUSY = 1 the core gets its turn and the host goes on
waiting (R366); the poll that reads BUSY = 0 ends the wait (log 2). `s` already has the wait taken off its inputs. -/
def waitTurn (s : State) : Answer :=
  if s.status.busy then coreTurn { s with inputs := Input.wait :: s.inputs } else .next (hostLoad 64 0x010 s)

/-- One input performed, already taken off the list. -/
def runInput (i : Input) (s : State) : Answer :=
  match i with
  | .load width off => .next (hostLoad width off s)
  | .store width off w => .next (hostStore width off w s)
  | .reset => .next s.resetInput
  | .coreTurn => coreTurn s
  | .wait => waitTurn s

/-- The next step: the first input, or the core's turn when the outside world has none (weak fairness, R366). -/
def nextStep (s : State) : Answer :=
  match s.inputs with
  | [] => coreTurn s
  | i :: rest => runInput i { s with inputs := rest }

end Sys2Proof.Machine
end

