-- ==== Sys2Proof/Machine/Step.lean ====
section
/-! DEFINITION. The step of the machine, and how the host places a command for the next step. -/

namespace Sys2Proof.Machine

/-- One step: one input of the outside world, or one turn of the core. -/
def step (s : State) : Host.Outcome State Fault Refusal := nextStep s

/-- `s` with the command word w just accepted (R130) and no further input before the core's turn, so that the next step
executes it. The block fetches nothing (R33, R86): a command comes from the host's write to CMD, for which this stands
(log 12). -/
def State.withFetchWord (s : State) (nbits w : Nat) : State :=
  { s.accept (BitVec.ofNat 64 (w % 2 ^ nbits)) with inputs := [] }

end Sys2Proof.Machine
end

