-- ==== Sys2Proof/Machine/HostScript.lean ====
section
/-! DEFINITION. The host script lines of 30_encoding R110 to R112 as the accesses they stand for. Host variables,
labels and branches are the host's own and make no access to the block (R112), so a line here has its operands
already evaluated (log 28). -/

namespace Sys2Proof.Machine

/-- A register a script line names (R110). -/
inductive ScriptReg where
  | id
  | ctrl
  | status
  | res0
  | res1
  | arg (k : Fin 8)
  deriving DecidableEq, Repr

/-- Its aperture offset (R38). -/
def ScriptReg.offset : ScriptReg → Nat
  | .id => 0x000
  | .ctrl => 0x008
  | .status => 0x010
  | .res0 => 0x020
  | .res1 => 0x028
  | .arg k => 0x040 + 8 * k.val

/-- A mnemonic of R101, without its handle. -/
inductive Mnemonic where
  | firInit
  | firProcess
  | firRelease
  | iirInit
  | iirSetSection
  | iirProcess
  | iirRelease
  | lmsInit
  | lmsProcess
  | lmsRelease
  | rlsInit
  | rlsProcess
  | rlsRelease
  | qpskModulate
  | qpskDemodulate
  deriving DecidableEq, Repr

/-- The command a mnemonic names, on handle h where it uses one (R101, R102). -/
def Mnemonic.command (h : Nat) : Mnemonic → Instr
  | .firInit => .firInit
  | .firProcess => .firProcess h
  | .firRelease => .firRelease h
  | .iirInit => .iirInit
  | .iirSetSection => .iirSetSection h
  | .iirProcess => .iirProcess h
  | .iirRelease => .iirRelease h
  | .lmsInit => .lmsInit
  | .lmsProcess => .lmsProcess h
  | .lmsRelease => .lmsRelease h
  | .rlsInit => .rlsInit
  | .rlsProcess => .rlsProcess h
  | .rlsRelease => .rlsRelease h
  | .qpskModulate => .qpskModulate
  | .qpskDemodulate => .qpskDemodulate

/-- The word `CMD <MNEMONIC> <h>` stores, whether or not the mnemonic uses a handle (R111): h other than 0 on one that
does not is an illegal word (R104). -/
def Mnemonic.word (m : Mnemonic) (h : Nat) : Word := commandWord (opcodeOf (m.command h)) h

/-- One line of a host program (R110, R112), operands evaluated. -/
inductive ScriptLine where
  /-- `WR <reg>, <value>` -/
  | wr (r : ScriptReg) (v : Word)
  /-- `WRD <a>, <value>` -/
  | wrd (a : Nat) (v : Word)
  /-- `RD <reg> -> <name>` -/
  | rd (r : ScriptReg)
  /-- `RDD <a> -> <name>` -/
  | rdd (a : Nat)
  /-- `CMD <MNEMONIC> [<h>]`; h omitted is 0. -/
  | cmd (m : Mnemonic) (h : Nat)
  /-- `WAIT` -/
  | wait
  /-- `CALL <MNEMONIC> [<h>] (v0, v1, …) -> (r0[, r1])`; h omitted is 0; `second` says that r1 is named. -/
  | call (m : Mnemonic) (h : Nat) (vs : List Word) (second : Bool)
  deriving DecidableEq, Repr

/-- A 64-bit load of a register. -/
def loadReg (r : ScriptReg) : Input := .load 64 r.offset

/-- A 64-bit store to a register. -/
def storeReg (r : ScriptReg) (v : Word) : Input := .store 64 r.offset v

/-- The offset of DMEM word a, 0x80000 + 8·a, without wrap (R72, R110). A line may name a word that does not exist:
from DMEM_WORDS on the offset is reserved, and from 65536 on it lies beyond the aperture, where the spec says nothing
and the model answers a bus error (DESIGN CHOICE, log 31). -/
def wordOffset (a : Nat) : Nat := dmemOffset + 8 * a

/-- The store of the command word (R111). -/
def storeCmd (m : Mnemonic) (h : Nat) : Input := .store 64 0x018 (m.word h)

/-- Step 1 of the CALL expansion: `WR ARG0, v0`, `WR ARG1, v1`, and so on, one store per given value (R112). There is
no ARG8 (R34, R38), and the spec does not say what a CALL with more than eight values is: here each value after the
eighth is a store to the reserved offset 0x080, a bus error (DESIGN CHOICE, log 33). -/
def storeArgs (k : Nat) : List Word → List Input
  | [] => []
  | v :: vs => .store 64 (0x040 + 8 * min k 8) v :: storeArgs (k + 1) vs

/-- The accesses of a line (R110 to R112). -/
def ScriptLine.inputs : ScriptLine → List Input
  | .wr r v => [storeReg r v]
  | .wrd a v => [.store 64 (wordOffset a) v]
  | .rd r => [loadReg r]
  | .rdd a => [.load 64 (wordOffset a)]
  | .cmd m h => [storeCmd m h]
  | .wait => [.wait]
  | .call m h vs second =>
    storeArgs 0 vs ++ [storeReg .status 0x2, storeCmd m h, .wait, loadReg .status, loadReg .res0] ++
      (if second then [loadReg .res1] else [])

/-- A host program's accesses, in order. -/
def scriptInputs : List ScriptLine → List Input
  | [] => []
  | l :: ls => l.inputs ++ scriptInputs ls

end Sys2Proof.Machine
end

