-- ==== Sys2Proof/Safety.lean ====
section
/-! DEFINITION. The words claims are stated in: what a run premises (60_exceptions R330, 70_reset R368, R369), the
invariant of the machine (10_state R40, R42, R45 to R49), what a stored result may be (00_scope R18), the accuracy of
COS, SIN and ATAN2 (93_implementation_defined I4), what a circular buffer holds (41_fir R163), and what a command leaves
alone (40_command R147). -/

namespace Sys2Proof.Machine

/-! ## Runs -/

/-- "no mark set", the premise of every claim about a run (R330). -/
abbrev State.unmarked (s : State) : Prop := s.marks = Marks.clear

/-- The clean entry of R368: the state of R54, just after power-on or a reset, with no mark set and any capacities. The
accesses that write the program's first DMEM words and ARG values are the first of `inputs`. What is neither of R54 nor a
mark may be anything: the draw counter, the inputs and the response (model fields, log 1, 3, 5). -/
abbrev State.cleanEntry (s : State) : Prop :=
  s = { State.powerOn s.params with draws := s.draws, inputs := s.inputs, response := s.response }

/-- The end of a run (R369): the host has made its last access and no command is in flight. -/
abbrev State.runOver (s : State) : Prop := s.inputs = [] ∧ s.pending = none

/-- A final state, the one a claim about a run may end in: the run is over and no mark is set. "The faulted state is
never a final state" (R357, of HOST_HAZARD; for the other two marks DEDUCED from 93 part 1, log 32). -/
abbrev State.final (s : State) : Prop := s.runOver ∧ s.unmarked

/-- It is the core's turn in s, and s0 is the state its command starts from: the host has nothing left to do, leaves the
core its turn, or waits while BUSY = 1 (R132, R366, R112). -/
def State.coreStarts (s s0 : State) : Prop :=
  (s.inputs = [] ∧ s0 = s) ∨ (∃ rest, s.inputs = .coreTurn :: rest ∧ s0 = { s with inputs := rest }) ∨
    (∃ rest, s.inputs = .wait :: rest ∧ s.status.busy = true ∧ s0 = s)

/-! ## The invariant -/

/-- R46. -/
def FirState.wf (p : Config.Params) (f : FirState) : Bool :=
  decide (1 ≤ f.n) && decide (f.n ≤ p.nMax) && decide (f.c.length = f.n) && decide (f.buf.length = f.n) &&
    decide (f.pos < f.n)

/-- R47. -/
def IirState.wf (p : Config.Params) (q : IirState) : Bool :=
  decide (1 ≤ q.s) && decide (q.s ≤ p.sMax) && decide (q.sec.length = q.s)

/-- R48 and the check of R210. -/
def LmsState.wf (p : Config.Params) (l : LmsState) : Bool :=
  decide (1 ≤ l.n) && decide (l.n ≤ p.nMax) && decide (l.w.length = l.n) && decide (l.buf.length = l.n) &&
    decide (l.pos < l.n) && F64.lt F64.zero l.mu && F64.isFinite l.mu

/-- R49 and the checks of R230. -/
def RlsState.wf (p : Config.Params) (r : RlsState) : Bool :=
  decide (1 ≤ r.n) && decide (r.n ≤ p.nMax) && decide (r.w.length = r.n) && decide (r.buf.length = r.n) &&
    decide (r.pos < r.n) && decide (r.p.length = r.n) && r.p.all (fun row => decide (row.length = r.n)) &&
    F64.lt F64.zero r.lam && F64.le r.lam F64.one && F64.lt F64.zero r.delta && F64.isFinite r.delta

/-- What a slot holds has the shape of its engine's record. -/
def Slot.wf (p : Config.Params) : Slot → Bool
  | .free => true
  | .fir f => f.wf p
  | .iir q => q.wf p
  | .lms l => l.wf p
  | .rls r => r.wf p

/-- The invariant of the machine: legal capacities (R11), memory in canonical form and made of whole words of DMEM
(R42), NUM_SLOTS slots (R45) each of the shape of R46 to R49, and PENDING exactly while BUSY (R40). -/
structure State.Inv (s : State) : Prop where
  legal : s.params.legal
  memory : Memory.wf s.mem
  wholeWords : ∀ c ∈ s.mem, c.1 < 8 * s.params.dmemWords ∧ (Memory.word s.mem (c.1 / 8)).isSome = true
  slotCount : s.slots.length = s.params.numSlots
  slotShapes : ∀ v ∈ s.slots, v.wf s.params = true
  pendingWhileBusy : s.status.busy = s.pending.isSome

/-- P[i][j] and P[j][i] are the same value, or both NaN (R49). -/
def RlsState.symmetric (r : RlsState) : Prop :=
  ∀ i j, i < r.n → j < r.n → entry r.p i j = entry r.p j i ∨
    (F64.isNaN (entry r.p i j) = true ∧ F64.isNaN (entry r.p j i) = true)

/-! ## Values -/

/-- w is what may be stored where an operation's result is v: v itself, or any quiet NaN where v is a NaN (R18). -/
def F64.Stores (v w : F64) : Prop := if F64.isNaN v then 0x7FF8000000000000 ≤ F64.mag w else w = v

/-- v is finite and within k ulps of the real r: 2^e is at most the spacing of binary64 values at r (93 item I4). -/
def F64.withinUlps (k : ℝ) (v : F64) (r : ℝ) : Prop :=
  F64.isFinite v = true ∧ ∃ e : ℤ, -1074 ≤ e ∧ (e = -1074 ∨ (2 : ℝ) ^ (e + 52) ≤ |r|) ∧
    |(F64.signedUnits v : ℝ) / 2 ^ 1074 - r| ≤ k * 2 ^ e

/-- Property 6 of item I4 for a choice of COS, SIN and ATAN2, at k ulps. A claim that needs it takes `trig.accurate 1` as
a premise; one that needs the correctly rounded default by name takes `trig.accurate (1/2)` (R11, I4; log 9). -/
def Trig.accurate (T : Trig) (k : ℝ) : Prop :=
  (∀ x, F64.isFinite x = true →
    F64.withinUlps k (T.cos x) (Real.cos ((F64.signedUnits x : ℝ) / 2 ^ 1074)) ∧
      F64.withinUlps k (T.sin x) (Real.sin ((F64.signedUnits x : ℝ) / 2 ^ 1074))) ∧
  (∀ y x, F64.isFinite y = true → F64.isFinite x = true → F64.isZero y = false ∨ F64.isZero x = false →
    F64.isZero y = true ∧ F64.sign y = true ∧ F64.sign x = true ∨
      F64.withinUlps k (T.atan2 y x)
        (Complex.arg ⟨(F64.signedUnits x : ℝ) / 2 ^ 1074, (F64.signedUnits y : ℝ) / 2 ^ 1074⟩))

/-- The circular buffer holds u, the newest sample first, and +0.0 before it (R163, R213). -/
def ringHolds (buf : List F64) (pos n : Nat) (u : List F64) : Prop :=
  ∀ i < n, buf.getD (ringIndex ((pos : Int) - 1 - (i : Int)) n) F64.zero = u.getD i F64.zero

/-! ## Endings and frames of a command -/

/-- s after a command that ends with code c and changes nothing else (R311, R132). -/
def State.endedWith (s : State) (c : Code) : State :=
  { s with status := { s.status with err := c, done := true, busy := false }, pending := none }

/-- The completion of R132 with OK, on the fields it writes; the other bits of STATUS but NF and EMPTY_WIN are kept. -/
def State.completedOk (s t : State) : Prop :=
  t.status.err = .ok ∧ t.status.done = true ∧ t.status.busy = false ∧ t.pending = none ∧
    t.status.ovr = s.status.ovr ∧ t.status.fatal = s.status.fatal

/-- What no command writes (R34, R147): ARG, CTRL, the capacities, and the outside world's side. -/
def State.hostSideKept (s t : State) : Prop :=
  t.params = s.params ∧ t.ie = s.ie ∧ t.args = s.args ∧ t.inputs = s.inputs ∧ t.response = s.response

/-- t differs from s in the marks by UNWRITTEN_READ alone, set exactly if the command read a word never written, which is
what `unwritten` says (R80, R330). -/
def State.marksUnwrittenRead (s t : State) (unwritten : Prop) : Prop :=
  t.marks.hostBusError = s.marks.hostBusError ∧ t.marks.hostHazard = s.marks.hostHazard ∧
    (t.marks.unwrittenRead = true ↔ s.marks.unwrittenRead = true ∨ unwritten)

/-- Every byte of DMEM reads as before. -/
def State.memoryKept (s t : State) : Prop := ∀ x, Memory.byte t.mem x = Memory.byte s.mem x

/-- Every slot but h holds what it held. -/
def State.otherSlotsKept (h : Nat) (s t : State) : Prop :=
  t.slots.length = s.slots.length ∧ ∀ g, g ≠ h → t.slot g = s.slot g

/-- The frame of a command that writes slot h, RES0 and STATUS only. -/
def State.onlySlotChanged (h : Nat) (s t : State) : Prop :=
  s.hostSideKept t ∧ s.memoryKept t ∧ State.otherSlotsKept h s t ∧ t.res1 = s.res1 ∧
    t.status.emptyWin = s.status.emptyWin

end Sys2Proof.Machine
end

