-- ==== Sys2Proof/Certificates/Slice0/Obligations.lean ====
section
/-! DEFINITION. The statements for the provers, from the numbered rules of spec/. A next state is spelled out field by
field or as a record update of the state before; the fields marks, draws, inputs and response of State are model
fields (log 1, 3, 5; marks are R330's). -/

open Sys2Proof Sys2Proof.Machine

/-! ## Encoding (30_encoding) -/

/-- R105, R111: every command, with every handle its field admits, decodes to itself. -/
def Obligations.DecodeOfEncodeIsTheCommand : Prop := ∀ i : Instr, WellFormed i → decode (encode i) = .ok i

/-- R104, R105: a word that decodes is the word of the command it decodes to, so each command has one word. -/
def Obligations.EncodeOfDecodeIsTheWord : Prop :=
  ∀ (w : Word) (i : Instr), decode w = .ok i → encode i = w ∧ WellFormed i

/-- R104: the illegal words, exactly. -/
def Obligations.IllegalWordsAreExactlyThese : Prop :=
  ∀ w : Word, (∃ e, decode w = .error e) ↔
    (w.toNat / 2 ^ 16 ≠ 0 ∨
      w.toNat % 256 ∉ [0x10, 0x11, 0x12, 0x20, 0x21, 0x22, 0x23, 0x30, 0x31, 0x32, 0x40, 0x41, 0x42, 0x50, 0x60] ∨
      (w.toNat % 256 ∈ [0x10, 0x20, 0x30, 0x40, 0x50, 0x60] ∧ w.toNat / 256 % 256 ≠ 0))

/-- R101, R111: command words of 95_test_vectors 2.1, one a family and the largest handle, read; and the two examples of
R111, written. A sanity statement. -/
def Obligations.SpecCommandWordsDecode : Prop :=
  decode 0x0000000000000311#64 = .ok (.firProcess 3) ∧ encode (.firProcess 3) = 0x0000000000000311#64 ∧
    decode 0x0000000000000321#64 = .ok (.iirSetSection 3) ∧ decode 0x0000000000000332#64 = .ok (.lmsRelease 3) ∧
    decode 0x0000000000000040#64 = .ok .rlsInit ∧ decode 0x0000000000000050#64 = .ok .qpskModulate ∧
    encode .qpskModulate = 0x0000000000000050#64 ∧
    decode 0x0000000000000060#64 = .ok .qpskDemodulate ∧ decode 0x000000000000FF11#64 = .ok (.firProcess 255)

/-! ## Steps (40_command, 70_reset) -/

/-- R132, R105: at the core's turn, the step is exec of the decoded command on the state its turn starts from. -/
def Obligations.StepRunsTheDecodedCommand : Prop :=
  ∀ (s s0 : State) (p : Pending) (i : Instr),
    s.coreStarts s0 → s.pending = some p → decode p.word = .ok i → step s = exec i s0

/-- R135. -/
def Obligations.IllegalCommandChangesNothingElse : Prop :=
  ∀ (s s0 : State) (p : Pending) (e : DecodeError),
    s.coreStarts s0 → s.pending = some p → s.status.fatal = false → decode p.word = .error e →
      step s = .next (s0.endedWith .illegalCmd)

/-- R134: every command, illegal words included. -/
def Obligations.FatalRefusesEveryCommand : Prop :=
  ∀ (s s0 : State) (p : Pending),
    s.coreStarts s0 → s.pending = some p → s.status.fatal = true → step s = .next (s0.endedWith .fatal)

/-- R310, R366, R132: no state stops the machine, and a pending command completes at the core's next turn. -/
def Obligations.EveryStepAnswersAndCommandsComplete : Prop :=
  (∀ s : State, ∃ t, step s = .next t) ∧
  ∀ (s s0 : State), s.coreStarts s0 → s.pending.isSome = true →
    ∃ t, step s = .next t ∧ t.pending = none ∧ t.status.done = true ∧ t.status.busy = false

/-- R327: with nothing pending and no host access the block keeps all state. -/
def Obligations.IdleBlockKeepsAllState : Prop :=
  ∀ s : State, s.pending = none → s.inputs = [] → step s = .next s

/-- R130 (the draw counter, a model field, goes on: log 7). -/
def Obligations.CmdWriteIsAcceptedWhenIdle : Prop :=
  ∀ (s : State) (w : Word) (rest : List Input),
    s.inputs = .store 64 0x018 w :: rest → s.status.busy = false →
      ∃ t, step s = .next t ∧
        t = { s with
              inputs := rest
              pending := some { word := w, args := s.args }
              status := { s.status with busy := true, done := false }
              draws := t.draws
              response := t.response }

/-- R131. -/
def Obligations.CmdWriteIsDroppedWhileBusy : Prop :=
  ∀ (s : State) (w : Word) (rest : List Input),
    s.inputs = .store 64 0x018 w :: rest → s.status.busy = true →
      ∃ t, step s = .next t ∧
        t = { s with inputs := rest, status := { s.status with ovr := true }, response := t.response }

/-! ## Host accesses (10_state, 20_memory, 60_exceptions, 70_reset) -/

/-- R329, R74, R38: an access that is not an aligned 64-bit access, or is at a reserved offset. Two choices of the model
are in it: while BUSY = 1 such an access is no hazard, also where it touches ARG, RES or DMEM (DESIGN CHOICE, log 11),
and an offset beyond the aperture counts as reserved (DESIGN CHOICE, log 31). -/
def Obligations.BusErrorHasNoEffect : Prop :=
  ∀ (s : State) (a : Input) (width : Nat) (off : Nat) (rest : List Input),
    (a = .load width off ∨ ∃ w, a = .store width off w) → s.inputs = a :: rest →
    (width ≠ 64 ∨ off % 8 ≠ 0 ∨ (0x030 ≤ off ∧ off < 0x040) ∨
      (0x080 ≤ off ∧ off < 0x80000) ∨ 0x80000 + 8 * s.params.dmemWords ≤ off) →
      step s = .next
        { s with inputs := rest, marks := { s.marks with hostBusError := true }, response := some .busError }

/-- R356, R357: an admitted access to RES, ARG or DMEM while BUSY = 1 only sets HOST_HAZARD (the answer to it is the
model's choice, log 11), and the faulted state is no final state. -/
def Obligations.BusyHazardOnlySetsItsMark : Prop :=
  ∀ (s : State) (a : Input) (off : Nat) (rest : List Input),
    (a = .load 64 off ∨ ∃ w, a = .store 64 off w) → s.inputs = a :: rest → s.status.busy = true →
    off % 8 = 0 →
    ((0x020 ≤ off ∧ off < 0x030) ∨ (0x040 ≤ off ∧ off < 0x080) ∨
      (0x80000 ≤ off ∧ off < 0x80000 + 8 * s.params.dmemWords)) →
      ∃ t, step s = .next t ∧ ¬t.final ∧
        t = { s with inputs := rest, marks := { s.marks with hostHazard := true }, response := some .unmodelled }

/-- R76: no load changes anything of the block (it may set a mark of R330), and loads are idempotent: two loads of one
place answer the same if the states they start from differ only in what loads change. -/
def Obligations.LoadsHaveNoSideEffect : Prop :=
  ∀ (s : State) (width : Nat) (off : Nat) (rest : List Input), s.inputs = .load width off :: rest →
    ∃ t, step s = .next t ∧
      t = { s with inputs := rest, marks := t.marks, response := t.response } ∧
      ∀ (u : State) (rest' : List Input), u = { t with inputs := u.inputs, marks := u.marks, response := u.response } →
        u.inputs = .load width off :: rest' → ∃ v, step u = .next v ∧ v.response = t.response

/-- R31, R32, R34 to R38, R312: what a load of each register returns; STATUS bit by bit, its bits 15:8 the code's number,
all others 0. -/
def Obligations.RegisterLoadsReturnTheRegisters : Prop :=
  ∀ (s : State) (off : Nat) (v : Word) (rest : List Input), s.inputs = .load 64 off :: rest →
    let number : Nat :=
      match s.status.err with
      | .ok => 0x00
      | .invalidLength => 0x01
      | .invalidParam => 0x02
      | .alloc => 0x03
      | .illegalCmd => 0x04
      | .badHandle => 0x05
      | .wrongType => 0x06
      | .addr => 0x07
      | .fatal => 0x08
      | .a0Zero => 0x09
    ((off = 0x000 ∧ v = 0x0000000146495250#64) ∨ (off = 0x008 ∧ v = if s.ie then 1 else 0) ∨
      (off = 0x010 ∧ v.toNat = s.status.busy.toNat + 2 * s.status.done.toNat + 4 * s.status.ovr.toNat +
        8 * s.status.nf.toNat + 16 * s.status.emptyWin.toNat + 32 * s.status.fatal.toNat + 256 * number) ∨
      (off = 0x018 ∧ v = 0) ∨
      (off = 0x020 ∧ s.status.busy = false ∧ v = s.res0) ∨
      (off = 0x028 ∧ s.status.busy = false ∧ v = s.res1) ∨
      (s.status.busy = false ∧ ∃ k, off = 0x040 + 8 * k ∧
        [s.args.arg0, s.args.arg1, s.args.arg2, s.args.arg3, s.args.arg4, s.args.arg5, s.args.arg6,
          s.args.arg7][k]? = some v)) →
      step s = .next { s with inputs := rest, response := some (.data v) }

/-- R31, R35: stores to ID and RES are ignored. -/
def Obligations.ReadOnlyRegistersIgnoreStores : Prop :=
  ∀ (s : State) (off : Nat) (w : Word) (rest : List Input), s.inputs = .store 64 off w :: rest →
    (off = 0x000 ∨ (s.status.busy = false ∧ (off = 0x020 ∨ off = 0x028))) →
      step s = .next { s with inputs := rest, response := some .stored }

/-- R34: ARG k reads the last value written, the other ARGs are kept. -/
def Obligations.ArgStoreThenLoad : Prop :=
  ∀ (s : State) (k : Nat) (v : Word) (rest : List Input), k < 8 → s.status.busy = false →
    s.inputs = .store 64 (0x040 + 8 * k) v :: .load 64 (0x040 + 8 * k) :: rest →
      ∃ t u, step s = .next t ∧ step t = .next u ∧ u.response = some (.data v) ∧ u.args = t.args ∧
        (∀ j, j < 8 → j ≠ k → t.args.get j = s.args.get j) ∧
        t = { s with inputs := t.inputs, args := t.args, response := some .stored }

/-- R42, R72, R87: DMEM word a reads the last value written, every byte of another word is kept. -/
def Obligations.DmemStoreThenLoad : Prop :=
  ∀ (s : State) (a : Nat) (v : Word) (rest : List Input), a < s.params.dmemWords → s.status.busy = false →
    s.inputs = .store 64 (0x80000 + 8 * a) v :: .load 64 (0x80000 + 8 * a) :: rest →
      ∃ t u, step s = .next t ∧ step t = .next u ∧ u.response = some (.data v) ∧ t.written a = true ∧
        u.mem = t.mem ∧ (∀ x, x < 8 * a ∨ 8 * a + 8 ≤ x → Memory.byte t.mem x = Memory.byte s.mem x) ∧
        t = { s with inputs := t.inputs, mem := t.mem, response := some .stored }

/-- R36, R76: a store to STATUS clears the W1C bits 4:1 written as 1 and no other bit of the word. -/
def Obligations.StatusStoreClearsOnes : Prop :=
  ∀ (s : State) (w : Word) (rest : List Input), s.inputs = .store 64 0x010 w :: rest →
    ∃ t, step s = .next t ∧ t.status.word = s.status.word &&& ~~~(w &&& 0x1E#64) ∧
      t = { s with inputs := rest, status := t.status, response := some .stored }

/-- R32, R317: a store to CTRL keeps bit 0 only and leaves DONE as it is; CTRL then reads that bit. -/
def Obligations.CtrlStoreThenLoad : Prop :=
  ∀ (s : State) (w : Word) (rest : List Input),
    s.inputs = .store 64 0x008 w :: .load 64 0x008 :: rest →
      ∃ t u, step s = .next t ∧ step t = .next u ∧ u.response = some (.data (w &&& 1)) ∧
        t.irq = (w.getLsbD 0 && s.status.done) ∧
        t = { s with inputs := t.inputs, ie := t.ie, response := some .stored }

/-- R316, and how R317 clears and masks it: irq is CTRL.IE and STATUS.DONE; it is up after a completion with IE = 1, and
after IE is set while DONE = 1; a host write of 1 to DONE, the acceptance of a command and reset clear it; CTRL.IE = 0
masks it and leaves DONE. -/
def Obligations.IrqFollowsDoneAndEnable : Prop :=
  (∀ s : State, s.irq = true ↔ s.ie = true ∧ s.status.done = true) ∧
  (∀ (s s0 t : State), s.coreStarts s0 → s.pending.isSome = true → s.ie = true → step s = .next t → t.irq = true) ∧
  (∀ (s t : State) (w : Word) (rest : List Input), s.inputs = .store 64 0x008 w :: rest → step s = .next t →
    t.irq = (w.getLsbD 0 && s.status.done) ∧ t.status = s.status) ∧
  (∀ (s t : State) (w : Word) (rest : List Input), s.inputs = .store 64 0x018 w :: rest → s.status.busy = false →
    step s = .next t → t.irq = false) ∧
  (∀ (s t : State) (w : Word) (rest : List Input), s.inputs = .store 64 0x010 w :: rest → w.getLsbD 1 = true →
    step s = .next t → t.irq = false) ∧
  (∀ (s t : State) (rest : List Input), s.inputs = .reset :: rest → step s = .next t → t.irq = false)

/-! ## Reset (70_reset) -/

/-- R350: the reset input, whatever is in flight; the marks stay (R330). -/
def Obligations.ResetInputResetsEverything : Prop :=
  ∀ (s : State) (rest : List Input), s.inputs = .reset :: rest →
    ∃ t, step s = .next t ∧ t.ie = false ∧ t.status.word = 0 ∧ t.res0 = 0 ∧ t.res1 = 0 ∧
      (∀ k, k < 8 → t.args.get k = 0) ∧ t.pending = none ∧ (∀ h, t.slot h = .free) ∧
      t.slots.length = s.params.numSlots ∧ (∀ a, t.written a = false) ∧ t.marks = s.marks ∧
      t.params = s.params ∧ t.inputs = rest

/-- R54: the values after power-on (the values of params, draws, inputs and response are the model's, log 1, 3, 4, 5); and
R368: power-on, and a reset input while no mark is set, give a clean entry. -/
def Obligations.ResetStateHasTheResetValues : Prop :=
  State.reset.ie = false ∧ State.reset.status.word = 0 ∧ State.reset.res0 = 0 ∧ State.reset.res1 = 0 ∧
    (∀ k, k < 8 → State.reset.args.get k = 0) ∧ State.reset.pending = none ∧
    State.reset.slots.length = 8 ∧ (∀ h, State.reset.slot h = .free) ∧ (∀ a, State.reset.written a = false) ∧
    State.reset.unmarked ∧ (∀ p : Config.Params, (State.powerOn p).cleanEntry) ∧
    ∀ (s t : State) (rest : List Input), s.inputs = .reset :: rest → s.unmarked → step s = .next t → t.cleanEntry

/-! ## Invariants of every step -/

/-- R11, R40, R42, R45 to R49: the invariant is kept by every step, from every state that meets it. -/
def Obligations.StepKeepsTheInvariant : Prop := ∀ s t : State, s.Inv → step s = .next t → t.Inv

/-- R54: it holds after power-on, with the default capacities and with any legal ones. -/
def Obligations.PowerOnMeetsTheInvariant : Prop :=
  State.reset.Inv ∧ ∀ p : Config.Params, p.legal → (State.powerOn p).Inv

/-- R330: no step clears a mark, reset included; so (R357, log 32) no state after a mark is final. -/
def Obligations.MarksAreNeverCleared : Prop :=
  ∀ s t : State, step s = .next t →
    (s.marks.unwrittenRead = true → t.marks.unwrittenRead = true) ∧
      (s.marks.hostBusError = true → t.marks.hostBusError = true) ∧
      (s.marks.hostHazard = true → t.marks.hostHazard = true) ∧ (¬s.unmarked → ¬t.final)

/-- R36, R134 (and the inference R352): only the reset input clears FATAL. -/
def Obligations.OnlyResetClearsFatal : Prop :=
  ∀ s t : State, s.status.fatal = true → step s = .next t → (∀ rest, s.inputs ≠ .reset :: rest) →
    t.status.fatal = true

/-- The inference 10_state R49 marks as its own ("So between commands, P[i][j] and P[j][i] are the same binary64 value,
or both are NaN"; C18): the matrix P of every RLS instance stays exactly symmetric, whatever the step. -/
def Obligations.StepKeepsCovarianceSymmetric : Prop :=
  ∀ s t : State, (∀ h r, s.slot h = .rls r → r.symmetric) → step s = .next t →
    ∀ h r, t.slot h = .rls r → r.symmetric

/-! ## All commands (40_command, 60_exceptions) -/

/-- R311, R186: a command that ends in an error changes STATUS and PENDING only, and FATAL only for FAULT_A0_ZERO. (The
mark and the draws of a bit array that was never written are model fields, log 25.) -/
def Obligations.FailedCommandChangesOnlyStatus : Prop :=
  ∀ (i : Instr) (s t : State), exec i s = .next t → t.status.err ≠ .ok →
    t = { s with
          status := { s.status with
            err := t.status.err, done := true, busy := false
            fatal := s.status.fatal || decide (t.status.err = .a0Zero) }
          pending := none
          marks := t.marks
          draws := t.draws } ∧
      (i ≠ .qpskModulate → t.marks = s.marks ∧ t.draws = s.draws)

/-- R147: what a command that completes, with any code, may have written (RES0 and RES1 by R108, FATAL by R186, NF by
R142). -/
def Obligations.CommandFootprint : Prop :=
  ∀ (i : Instr) (s t : State), exec i s = .next t →
    s.hostSideKept t ∧ t.status.ovr = s.status.ovr ∧
      (∀ h, i.handle = some h → State.otherSlotsKept h s t) ∧
      (i ∈ [Instr.firInit, .iirInit, .lmsInit, .rlsInit] →
        t.slots.length = s.slots.length ∧ ∀ g, s.freeSlot ≠ some g → t.slot g = s.slot g) ∧
      (i ∈ [Instr.qpskModulate, .qpskDemodulate] → t.slots = s.slots) ∧
      (i ≠ .qpskDemodulate → t.res1 = s.res1 ∧ t.status.emptyWin = s.status.emptyWin) ∧
      (∀ h, i ∈ [Instr.firRelease h, .iirRelease h, .lmsRelease h, .rlsRelease h, .iirSetSection h] → t.res0 = s.res0) ∧
      ((∀ h, i ≠ .iirProcess h) → t.status.fatal = s.status.fatal) ∧
      ((∀ h, i ∉ [Instr.firProcess h, .iirProcess h, .lmsProcess h, .rlsProcess h]) → i ≠ .qpskModulate →
        i ≠ .qpskDemodulate → t.status.nf = s.status.nf) ∧
      (i ≠ .qpskModulate → i ≠ .qpskDemodulate → s.memoryKept t) ∧
      (i = .qpskModulate →
        let o := modulateOperands s.operands
        ∀ x, x < 8 * o.outAddr ∨ 8 * (o.outAddr + 2 * (o.numBits.toNat / 2 * o.sps.toNat)) ≤ x →
          Memory.byte t.mem x = Memory.byte s.mem x) ∧
      (i = .qpskDemodulate →
        let o := demodulateOperands s.operands
        let m := ceilDiv (o.length.toNat - clampedDelay o.length o.delay) o.sps.toNat
        ∀ x, x < 8 * o.bitsAddr ∨ 8 * (o.bitsAddr + 2 * m) ≤ x → x < 8 * o.consAddr ∨ 8 * (o.consAddr + 2 * m) ≤ x →
          Memory.byte t.mem x = Memory.byte s.mem x)

/-- The table 60_exceptions R313 derives from R133 and the family rules: which command can complete with which code. -/
def Obligations.CodesOfEachCommand : Prop :=
  ∀ (i : Instr) (s t : State), exec i s = .next t →
    t.status.err ∈
      (match i with
        | .firInit => [Code.ok, .fatal, .invalidLength, .addr, .alloc]
        | .iirInit => [Code.ok, .fatal, .invalidLength, .addr, .alloc]
        | .lmsInit => [Code.ok, .fatal, .invalidLength, .invalidParam, .alloc]
        | .rlsInit => [Code.ok, .fatal, .invalidLength, .invalidParam, .alloc]
        | .iirSetSection _ => [Code.ok, .fatal, .badHandle, .wrongType, .invalidParam]
        | .iirProcess _ => [Code.ok, .fatal, .badHandle, .wrongType, .a0Zero]
        | .firProcess _ | .lmsProcess _ | .rlsProcess _ => [Code.ok, .fatal, .badHandle, .wrongType]
        | .firRelease _ | .iirRelease _ | .lmsRelease _ | .rlsRelease _ => [Code.ok, .fatal, .badHandle, .wrongType]
        | .qpskModulate | .qpskDemodulate => [Code.ok, .fatal, .invalidLength, .invalidParam, .addr])

/-- R40, R107: a command reads the ARG values captured with its CMD write, never the live registers. -/
def Obligations.CommandsReadTheSnapshotOnly : Prop :=
  ∀ (i : Instr) (s t : State) (p : Pending) (a : Args), s.pending = some p → exec i s = .next t →
    exec i { s with args := a } = .next { t with args := a }

/-- R142, R36: no command clears NF, EMPTY_WIN or OVR. -/
def Obligations.CommandsNeverClearStickyFlags : Prop :=
  ∀ (i : Instr) (s t : State), exec i s = .next t →
    (s.status.nf = true → t.status.nf = true) ∧ (s.status.emptyWin = true → t.status.emptyWin = true) ∧
      (s.status.ovr = true → t.status.ovr = true)

/-- R136. -/
def Obligations.BadHandleIsRefused : Prop :=
  ∀ (i : Instr) (h : Nat) (s : State), i.handle = some h → s.status.fatal = false →
    (s.params.numSlots ≤ h ∨ s.slot h = .free) → exec i s = .next (s.endedWith .badHandle)

/-- R137. -/
def Obligations.WrongKindIsRefused : Prop :=
  ∀ (h : Nat) (s : State), s.status.fatal = false → h < s.params.numSlots → s.slot h ≠ .free →
    ((∀ f, s.slot h ≠ .fir f) →
      ∀ i ∈ [Instr.firProcess h, .firRelease h], exec i s = .next (s.endedWith .wrongType)) ∧
    ((∀ q, s.slot h ≠ .iir q) →
      ∀ i ∈ [Instr.iirSetSection h, .iirProcess h, .iirRelease h], exec i s = .next (s.endedWith .wrongType)) ∧
    ((∀ l, s.slot h ≠ .lms l) →
      ∀ i ∈ [Instr.lmsProcess h, .lmsRelease h], exec i s = .next (s.endedWith .wrongType)) ∧
    ((∀ r, s.slot h ≠ .rls r) →
      ∀ i ∈ [Instr.rlsProcess h, .rlsRelease h], exec i s = .next (s.endedWith .wrongType))

/-- R145, R162, R185, R212, R232: each RELEASE on a handle of its kind. -/
def Obligations.ReleaseFreesTheSlot : Prop :=
  ∀ (i : Instr) (h : Nat) (s : State), s.status.fatal = false → h < s.params.numSlots →
    ((i = .firRelease h ∧ ∃ f, s.slot h = .fir f) ∨ (i = .iirRelease h ∧ ∃ q, s.slot h = .iir q) ∨
      (i = .lmsRelease h ∧ ∃ l, s.slot h = .lms l) ∨ (i = .rlsRelease h ∧ ∃ r, s.slot h = .rls r)) →
      ∃ t, exec i s = .next t ∧ t.slot h = .free ∧ State.onlySlotChanged h s t ∧ s.completedOk t ∧
        t.res0 = s.res0 ∧ t.status.nf = s.status.nf ∧ t.marks = s.marks ∧ t.draws = s.draws

/-- R147 and the inference of 20_memory R88: what a handle command does depends only on its operands, its slot, FATAL, NUM_SLOTS (and the free
values): two states alike in these give the same code, slot and output. -/
def Obligations.HandleCommandsSeeOnlyTheirSlot : Prop :=
  ∀ (i : Instr) (h : Nat) (s s' t : State), i.handle = some h → s.slot h = s'.slot h →
    s.params.numSlots = s'.params.numSlots → s.status.fatal = s'.status.fatal → s.operands = s'.operands →
    s.draws = s'.draws → exec i s = .next t →
      ∃ t', exec i s' = .next t' ∧ t'.status.err = t.status.err ∧ t'.slot h = t.slot h ∧
        (i ∈ [Instr.firProcess h, .iirProcess h, .lmsProcess h, .rlsProcess h] → t.status.err = .ok → t'.res0 = t.res0)

/-- R80: each of the four commands that read DMEM sets UNWRITTEN_READ exactly if a word it reads was never written: the
coefficients of FIR_INIT and of IIR_INIT, the bits of QPSK_MODULATE (read before its check 6, log 25), the processed
samples of QPSK_DEMODULATE. No other mark, and no mark by any other command. -/
def Obligations.UnwrittenReadsAreMarked : Prop :=
  (∀ s : State, s.status.fatal = false →
    (let n := (i64 s.operands.arg0).toNat
      let ca := u64 s.operands.arg1
      0 < i64 s.operands.arg0 → ca + n ≤ s.params.dmemWords → n ≤ s.params.nMax → s.freeSlot.isSome = true →
        ∃ t, exec .firInit s = .next t ∧ s.marksUnwrittenRead t (∃ j, j < n ∧ s.written (ca + j) = false)) ∧
    (let o := iirInitOperands s.operands
      ∀ n : Nat, o.bLen = 3 * (n : Int) → o.aLen = 3 * (n : Int) → 0 < n → o.bAddr + 3 * n ≤ s.params.dmemWords →
        o.aAddr + 3 * n ≤ s.params.dmemWords → n ≤ s.params.sMax → s.freeSlot.isSome = true →
        ∃ t, exec .iirInit s = .next t ∧ s.marksUnwrittenRead t
          (∃ j, j < 3 * n ∧ (s.written (o.bAddr + j) = false ∨ s.written (o.aAddr + j) = false))) ∧
    (let o := modulateOperands s.operands
      let nb := o.numBits.toNat
      0 < o.numBits → o.numBits % 2 = 0 → F64.lt F64.zero o.fc = true → F64.isFinite o.fc = true →
        F64.lt F64.zero o.fs = true → F64.isFinite o.fs = true → 0 < o.sps → o.bitsAddr + nb ≤ s.params.dmemWords →
        o.outAddr + 2 * (nb / 2 * o.sps.toNat) ≤ s.params.dmemWords →
        ∃ t, exec .qpskModulate s = .next t ∧ s.marksUnwrittenRead t
          (∃ j, j < nb ∧ s.written (o.bitsAddr + j) = false)) ∧
    (let o := demodulateOperands s.operands
      let skip := (min o.delay (o.length - 1)).toNat
      let len := o.length.toNat - skip
      let m := (len + o.sps.toNat - 1) / o.sps.toNat
      0 < o.length → F64.lt F64.zero o.fc = true → F64.isFinite o.fc = true → F64.lt F64.zero o.fs = true →
        F64.isFinite o.fs = true → 0 < o.sps → 0 ≤ o.delay → o.inAddr + 2 * o.length.toNat ≤ s.params.dmemWords →
        o.bitsAddr + 2 * m ≤ s.params.dmemWords → o.consAddr + 2 * m ≤ s.params.dmemWords →
        ∃ t, exec .qpskDemodulate s = .next t ∧ s.marksUnwrittenRead t
          (∃ j, j < 2 * len ∧ s.written (o.inAddr + 2 * skip + j) = false))) ∧
  (∀ (i : Instr) (s t : State), i ∉ [Instr.firInit, .iirInit, .qpskModulate, .qpskDemodulate] →
    exec i s = .next t → t.marks = s.marks)

/-! ## FIR (41_fir) -/

/-- R160: FIR_INIT with every check passed; h is the lowest FREE slot (R139). An unwritten coefficient is free
(log 6). -/
def Obligations.FirInitBuildsTheFilter : Prop :=
  ∀ (s : State) (h n : Nat), s.status.fatal = false → i64 s.operands.arg0 = (n : Int) → 0 < n →
    u64 s.operands.arg1 + n ≤ s.params.dmemWords → n ≤ s.params.nMax →
    h < s.slots.length → s.slot h = .free → (∀ g, g < h → s.slot g ≠ .free) →
      ∃ t f, exec .firInit s = .next t ∧ t.slot h = .fir f ∧ f.n = n ∧ f.c.length = n ∧ f.buf.length = n ∧
        f.pos = 0 ∧ ringHolds f.buf f.pos n [] ∧
        (∀ j w, j < n → Memory.word s.mem (u64 s.operands.arg1 + j) = some w → f.c.getD j F64.zero = w) ∧
        t.res0 = BitVec.ofNat 64 h ∧ State.onlySlotChanged h s t ∧ s.completedOk t ∧ t.status.nf = s.status.nf

/-- R160, R133, R139, R140: the checks of FIR_INIT in their order. -/
def Obligations.FirInitChecks : Prop :=
  ∀ s : State, s.status.fatal = false →
    let n := i64 s.operands.arg0
    let ca := u64 s.operands.arg1
    (n ≤ 0 → exec .firInit s = .next (s.endedWith .invalidLength)) ∧
    (0 < n → s.params.dmemWords < ca + n.toNat → exec .firInit s = .next (s.endedWith .addr)) ∧
    (0 < n → ca + n.toNat ≤ s.params.dmemWords →
      (s.params.nMax < n.toNat ∨ ∀ g, g < s.slots.length → s.slot g ≠ .free) →
        exec .firInit s = .next (s.endedWith .alloc))

/-- R161 (over the buffer's content as the inference R163 words it): if the buffer holds the inputs u, newest first, FIR_PROCESS of x answers the convolution of the
coefficients with x :: u, and the buffer then holds x :: u; NF by R142. -/
def Obligations.FirProcessConvolves : Prop :=
  ∀ (s : State) (h : Nat) (f : FirState) (u : List F64), s.status.fatal = false → h < s.params.numSlots →
    s.slot h = .fir f → f.buf.length = f.n → f.pos < f.n → ringHolds f.buf f.pos f.n u →
      ∃ t f', exec (.firProcess h) s = .next t ∧ t.slot h = .fir f' ∧ f'.n = f.n ∧ f'.c = f.c ∧
        f'.buf.length = f.n ∧ f'.pos = (f.pos + 1) % f.n ∧ ringHolds f'.buf f'.pos f.n (s.operands.arg0 :: u) ∧
        F64.Stores
          (F64.sum f.n (fun j => F64.mul (f.c.getD j F64.zero) ((s.operands.arg0 :: u).getD j F64.zero))) t.res0 ∧
        t.status.nf = (s.status.nf || !F64.isFinite t.res0) ∧ State.onlySlotChanged h s t ∧ s.completedOk t ∧
        t.marks = s.marks

/-! ## IIR (42_iir) -/

/-- R180, R181: IIR_INIT with every check passed; section j takes b[3j..3j+2] and a[3j..3j+2], histories +0.0. An
unwritten coefficient is free (log 6). -/
def Obligations.IirInitBuildsTheCascade : Prop :=
  ∀ (s : State) (h n : Nat), s.status.fatal = false →
    let o := iirInitOperands s.operands
    o.bLen = 3 * (n : Int) → o.aLen = 3 * (n : Int) → 0 < n → o.bAddr + 3 * n ≤ s.params.dmemWords →
    o.aAddr + 3 * n ≤ s.params.dmemWords → n ≤ s.params.sMax →
    h < s.slots.length → s.slot h = .free → (∀ g, g < h → s.slot g ≠ .free) →
      ∃ t q, exec .iirInit s = .next t ∧ t.slot h = .iir q ∧ q.s = n ∧ q.sec.length = n ∧
        (∀ j c, q.sec[j]? = some c →
          c.x1 = F64.zero ∧ c.x2 = F64.zero ∧ c.y1 = F64.zero ∧ c.y2 = F64.zero ∧
          (∀ w, Memory.word s.mem (o.bAddr + 3 * j) = some w → c.b0 = w) ∧
          (∀ w, Memory.word s.mem (o.bAddr + 3 * j + 1) = some w → c.b1 = w) ∧
          (∀ w, Memory.word s.mem (o.bAddr + 3 * j + 2) = some w → c.b2 = w) ∧
          (∀ w, Memory.word s.mem (o.aAddr + 3 * j) = some w → c.a0 = w) ∧
          (∀ w, Memory.word s.mem (o.aAddr + 3 * j + 1) = some w → c.a1 = w) ∧
          (∀ w, Memory.word s.mem (o.aAddr + 3 * j + 2) = some w → c.a2 = w)) ∧
        t.res0 = BitVec.ofNat 64 h ∧ State.onlySlotChanged h s t ∧ s.completedOk t ∧ t.status.nf = s.status.nf

/-- R180, R133, R139, R140: the checks of IIR_INIT in their order. -/
def Obligations.IirInitChecks : Prop :=
  ∀ s : State, s.status.fatal = false →
    let o := iirInitOperands s.operands
    (o.bLen ≤ 0 ∨ o.aLen ≤ 0 ∨ o.bLen % 3 ≠ 0 ∨ o.aLen % 3 ≠ 0 ∨ o.bLen ≠ o.aLen →
      exec .iirInit s = .next (s.endedWith .invalidLength)) ∧
    (0 < o.bLen → o.bLen % 3 = 0 → o.bLen = o.aLen →
      (s.params.dmemWords < o.bAddr + o.bLen.toNat ∨ s.params.dmemWords < o.aAddr + o.aLen.toNat →
        exec .iirInit s = .next (s.endedWith .addr)) ∧
      (o.bAddr + o.bLen.toNat ≤ s.params.dmemWords → o.aAddr + o.aLen.toNat ≤ s.params.dmemWords →
        (s.params.sMax < o.bLen.toNat / 3 ∨ ∀ g, g < s.slots.length → s.slot g ≠ .free) →
          exec .iirInit s = .next (s.endedWith .alloc)))

/-- R182: IIR_SET_SECTION writes six coefficients of one section and keeps its history and the other sections; an index
out of range is ERR_INVALID_PARAM. -/
def Obligations.IirSetSectionOverwritesOneSection : Prop :=
  ∀ (s : State) (h : Nat) (q : IirState), s.status.fatal = false → h < s.params.numSlots → s.slot h = .iir q →
    q.sec.length = q.s →
    let a := s.operands
    (i64 a.arg0 < 0 ∨ (q.s : Int) ≤ i64 a.arg0 →
      exec (.iirSetSection h) s = .next (s.endedWith .invalidParam)) ∧
    (∀ (k : Nat) (c : Section), i64 a.arg0 = (k : Int) → q.sec[k]? = some c →
      ∃ t q', exec (.iirSetSection h) s = .next t ∧ t.slot h = .iir q' ∧ q'.s = q.s ∧
        q'.sec[k]? = some { b0 := a.arg1, b1 := a.arg2, b2 := a.arg3, a0 := a.arg4, a1 := a.arg5, a2 := a.arg6,
                            x1 := c.x1, x2 := c.x2, y1 := c.y1, y2 := c.y2 } ∧
        (∀ j, j ≠ k → q'.sec[j]? = q.sec[j]?) ∧ State.onlySlotChanged h s t ∧ s.completedOk t ∧
        t.res0 = s.res0 ∧ t.status.nf = s.status.nf ∧ t.marks = s.marks ∧ t.draws = s.draws)

/-- R183, R184: IIR_PROCESS of x with every a0 ≠ 0: there are values v 0 = x, v 1, …, v S, each v (j+1) the stored
result of the difference equation of section j on v j; each section's history is shifted; RES0 is v S. -/
def Obligations.IirProcessRunsTheDifferenceEquations : Prop :=
  ∀ (s : State) (h : Nat) (q : IirState), s.status.fatal = false → h < s.params.numSlots → s.slot h = .iir q →
    (∀ c ∈ q.sec, F64.eq c.a0 F64.zero = false) →
      ∃ t q', ∃ v : Nat → F64, exec (.iirProcess h) s = .next t ∧ t.slot h = .iir q' ∧ q'.s = q.s ∧
        q'.sec.length = q.sec.length ∧ v 0 = s.operands.arg0 ∧ t.res0 = v q.sec.length ∧
        (∀ j c, q.sec[j]? = some c →
          F64.Stores
            (F64.div
              (F64.sub (F64.sub (F64.add (F64.add (F64.mul c.b0 (v j)) (F64.mul c.b1 c.x1)) (F64.mul c.b2 c.x2))
                (F64.mul c.a1 c.y1)) (F64.mul c.a2 c.y2)) c.a0)
            (v (j + 1)) ∧
          q'.sec[j]? = some { c with x2 := c.x1, x1 := v j, y2 := c.y1, y1 := v (j + 1) }) ∧
        t.status.nf = (s.status.nf || !F64.isFinite t.res0) ∧ State.onlySlotChanged h s t ∧ s.completedOk t ∧
        t.marks = s.marks

/-- R186: a section with a0 = +0.0 or −0.0: FAULT_A0_ZERO, FATAL latched, nothing else written; then every command gets
ERR_FATAL. -/
def Obligations.ZeroA0IsFatal : Prop :=
  ∀ (s : State) (h : Nat) (q : IirState) (c : Section), s.status.fatal = false → h < s.params.numSlots →
    s.slot h = .iir q → c ∈ q.sec → (c.a0 = 0x0000000000000000#64 ∨ c.a0 = 0x8000000000000000#64) →
      ∃ t, exec (.iirProcess h) s = .next t ∧
        t = { s with
              status := { s.status with err := .a0Zero, done := true, busy := false, fatal := true }
              pending := none } ∧
        ∀ i : Instr, exec i t = .next (t.endedWith .fatal)

/-! ## LMS (43_lms) -/

/-- R210: LMS_INIT with every check passed. -/
def Obligations.LmsInitBuildsTheFilter : Prop :=
  ∀ (s : State) (h n : Nat), s.status.fatal = false → i64 s.operands.arg0 = (n : Int) → 0 < n →
    F64.lt F64.zero s.operands.arg1 = true → F64.isFinite s.operands.arg1 = true → n ≤ s.params.nMax →
    h < s.slots.length → s.slot h = .free → (∀ g, g < h → s.slot g ≠ .free) →
      ∃ t l, exec .lmsInit s = .next t ∧ t.slot h = .lms l ∧ l.n = n ∧ l.mu = s.operands.arg1 ∧
        l.w = List.replicate n 0#64 ∧ l.buf.length = n ∧ l.pos = 0 ∧ ringHolds l.buf l.pos n [] ∧
        t.res0 = BitVec.ofNat 64 h ∧ State.onlySlotChanged h s t ∧ s.completedOk t ∧ t.status.nf = s.status.nf ∧
        t.marks = s.marks

/-- R210, R133, R139, R140: the checks of LMS_INIT in their order. -/
def Obligations.LmsInitChecks : Prop :=
  ∀ s : State, s.status.fatal = false →
    let n := i64 s.operands.arg0
    let mu := s.operands.arg1
    (n ≤ 0 → exec .lmsInit s = .next (s.endedWith .invalidLength)) ∧
    (0 < n → (F64.lt F64.zero mu = false ∨ F64.isFinite mu = false) →
      exec .lmsInit s = .next (s.endedWith .invalidParam)) ∧
    (0 < n → F64.lt F64.zero mu = true → F64.isFinite mu = true →
      (s.params.nMax < n.toNat ∨ ∀ g, g < s.slots.length → s.slot g ≠ .free) →
        exec .lmsInit s = .next (s.endedWith .alloc))

/-- R211 (over the buffer's content as the inference R213 words it): if the buffer holds the inputs u, newest first, LMS_PROCESS of (x, d) answers the a-priori output over
x :: u, moves every weight by (mu · e) times its sample, and the buffer then holds x :: u. -/
def Obligations.LmsProcessFiltersAndAdapts : Prop :=
  ∀ (s : State) (h : Nat) (l : LmsState) (u : List F64), s.status.fatal = false → h < s.params.numSlots →
    s.slot h = .lms l → l.buf.length = l.n → l.pos < l.n → ringHolds l.buf l.pos l.n u →
    let x := fun j => (s.operands.arg0 :: u).getD j F64.zero
    let y := F64.sum l.n (fun j => F64.mul (l.w.getD j F64.zero) (x j))
    let e := F64.sub s.operands.arg1 y
      ∃ t l', exec (.lmsProcess h) s = .next t ∧ t.slot h = .lms l' ∧ l'.n = l.n ∧ l'.mu = l.mu ∧
        l'.buf.length = l.n ∧ l'.pos = (l.pos + 1) % l.n ∧ ringHolds l'.buf l'.pos l.n (s.operands.arg0 :: u) ∧
        l'.w.length = l.n ∧
        (∀ j, j < l.n →
          F64.Stores (F64.add (l.w.getD j F64.zero) (F64.mul (F64.mul l.mu e) (x j))) (l'.w.getD j F64.zero)) ∧
        F64.Stores y t.res0 ∧ t.status.nf = (s.status.nf || !F64.isFinite t.res0) ∧
        State.onlySlotChanged h s t ∧ s.completedOk t ∧ t.marks = s.marks

/-! ## RLS (44_rls) -/

/-- R230: RLS_INIT with every check passed: P is r on the diagonal and +0.0 elsewhere, r = 1.0 / delta. -/
def Obligations.RlsInitBuildsTheFilter : Prop :=
  ∀ (s : State) (h n : Nat), s.status.fatal = false → i64 s.operands.arg0 = (n : Int) → 0 < n →
    F64.lt F64.zero s.operands.arg1 = true → F64.le s.operands.arg1 F64.one = true →
    F64.lt F64.zero s.operands.arg2 = true → F64.isFinite s.operands.arg2 = true → n ≤ s.params.nMax →
    h < s.slots.length → s.slot h = .free → (∀ g, g < h → s.slot g ≠ .free) →
      ∃ t r, exec .rlsInit s = .next t ∧ t.slot h = .rls r ∧ r.n = n ∧ r.lam = s.operands.arg1 ∧
        r.delta = s.operands.arg2 ∧ r.w = List.replicate n 0#64 ∧ r.buf.length = n ∧ r.pos = 0 ∧
        ringHolds r.buf r.pos n [] ∧
        (∀ i j, i < n → j < n → entry r.p i j = if i = j then F64.div F64.one s.operands.arg2 else 0#64) ∧
        t.res0 = BitVec.ofNat 64 h ∧ State.onlySlotChanged h s t ∧ s.completedOk t ∧ t.status.nf = s.status.nf ∧
        t.marks = s.marks

/-- R230, R133, R139, R140: the checks of RLS_INIT in their order. -/
def Obligations.RlsInitChecks : Prop :=
  ∀ s : State, s.status.fatal = false →
    let n := i64 s.operands.arg0
    let lam := s.operands.arg1
    let delta := s.operands.arg2
    (n ≤ 0 → exec .rlsInit s = .next (s.endedWith .invalidLength)) ∧
    (0 < n → (F64.lt F64.zero lam = false ∨ F64.le lam F64.one = false ∨ F64.lt F64.zero delta = false ∨
        F64.isFinite delta = false) →
      exec .rlsInit s = .next (s.endedWith .invalidParam)) ∧
    (0 < n → F64.lt F64.zero lam = true → F64.le lam F64.one = true → F64.lt F64.zero delta = true →
      F64.isFinite delta = true → (s.params.nMax < n.toNat ∨ ∀ g, g < s.slots.length → s.slot g ≠ .free) →
        exec .rlsInit s = .next (s.endedWith .alloc))

/-- R231: the eight steps over the samples x :: u, where the buffer holds u, newest first. -/
def Obligations.RlsProcessRunsTheRecursion : Prop :=
  ∀ (s : State) (h : Nat) (r : RlsState) (u : List F64), s.status.fatal = false → h < s.params.numSlots →
    s.slot h = .rls r → r.buf.length = r.n → r.pos < r.n → ringHolds r.buf r.pos r.n u →
    let x := fun j => (s.operands.arg0 :: u).getD j F64.zero
    let y := F64.sum r.n (fun j => F64.mul (r.w.getD j F64.zero) (x j))
    let e := F64.sub s.operands.arg1 y
    let px := fun i => F64.sum r.n (fun j => F64.mul (entry r.p i j) (x j))
    let denom := F64.add r.lam (F64.sum r.n (fun i => F64.mul (x i) (px i)))
    let k := fun i => F64.div (px i) denom
      ∃ t r', exec (.rlsProcess h) s = .next t ∧ t.slot h = .rls r' ∧ r'.n = r.n ∧ r'.lam = r.lam ∧
        r'.delta = r.delta ∧ r'.buf.length = r.n ∧ r'.pos = (r.pos + 1) % r.n ∧
        ringHolds r'.buf r'.pos r.n (s.operands.arg0 :: u) ∧ r'.w.length = r.n ∧
        (∀ i, i < r.n → F64.Stores (F64.add (r.w.getD i F64.zero) (F64.mul (k i) e)) (r'.w.getD i F64.zero)) ∧
        (∀ i j, i < r.n → j < r.n →
          F64.Stores (F64.div (F64.sub (entry r.p i j) (F64.mul (F64.mul (k i) (k j)) denom)) r.lam)
            (entry r'.p i j)) ∧
        F64.Stores y t.res0 ∧ t.status.nf = (s.status.nf || !F64.isFinite t.res0) ∧
        State.onlySlotChanged h s t ∧ s.completedOk t ∧ t.marks = s.marks

/-! ## QPSK modulator (45_qpsk_mod) -/

/-- R264: the checks of QPSK_MODULATE in their order (the marks and draws of the bit reads before check 6: log 25). -/
def Obligations.ModulateChecks : Prop :=
  ∀ s : State, s.status.fatal = false →
    let o := modulateOperands s.operands
    let len := o.numBits.toNat / 2 * o.sps.toNat
    (o.numBits ≤ 0 ∨ o.numBits % 2 ≠ 0 → exec .qpskModulate s = .next (s.endedWith .invalidLength)) ∧
    (0 < o.numBits → o.numBits % 2 = 0 →
      (F64.lt F64.zero o.fc = false ∨ F64.isFinite o.fc = false ∨ F64.lt F64.zero o.fs = false ∨
          F64.isFinite o.fs = false ∨ o.sps ≤ 0 →
        exec .qpskModulate s = .next (s.endedWith .invalidParam)) ∧
      (F64.lt F64.zero o.fc = true → F64.isFinite o.fc = true → F64.lt F64.zero o.fs = true →
        F64.isFinite o.fs = true → 0 < o.sps →
        (s.params.dmemWords < o.bitsAddr + o.numBits.toNat ∨ s.params.dmemWords < o.outAddr + 2 * len →
          exec .qpskModulate s = .next (s.endedWith .addr)) ∧
        (o.bitsAddr + o.numBits.toNat ≤ s.params.dmemWords → o.outAddr + 2 * len ≤ s.params.dmemWords →
          (∃ j w, j < o.numBits.toNat ∧ Memory.word s.mem (o.bitsAddr + j) = some w ∧ w ≠ 0 ∧ w ≠ 1) →
            ∃ t, exec .qpskModulate s = .next t ∧
              t = { s.endedWith .invalidParam with marks := t.marks, draws := t.draws })))

/-- R260 to R263, R142: QPSK_MODULATE with every check passed. Sample n, n = k·sps + m, is the point of bits 2k and 2k+1
times the carrier at phase θ_n, θ_0 = +0.0; NF is set for a non-finite output word; all other DMEM is kept. -/
def Obligations.ModulateWritesTheSamples : Prop :=
  ∀ (s : State) (th : Nat → F64), s.status.fatal = false →
    let o := modulateOperands s.operands
    let nb := o.numBits.toNat
    let sps := o.sps.toNat
    let len := nb / 2 * sps
    0 < o.numBits → o.numBits % 2 = 0 → F64.lt F64.zero o.fc = true → F64.isFinite o.fc = true →
    F64.lt F64.zero o.fs = true → F64.isFinite o.fs = true → 0 < o.sps → o.bitsAddr + nb ≤ s.params.dmemWords →
    o.outAddr + 2 * len ≤ s.params.dmemWords →
    (∀ j, j < nb → Memory.word s.mem (o.bitsAddr + j) = some 0 ∨ Memory.word s.mem (o.bitsAddr + j) = some 1) →
    th 0 = 0x0000000000000000#64 →
    (∀ n, th (n + 1) =
      let t := F64.add (th n) (F64.div (F64.mul 0x401921FB54442D18#64 o.fc) o.fs)
      if F64.le 0x401921FB54442D18#64 t then F64.sub t 0x401921FB54442D18#64 else t) →
      ∃ t, exec .qpskModulate s = .next t ∧ t.res0 = BitVec.ofNat 64 len ∧
        (∀ n, n < len →
          let re := if Memory.word s.mem (o.bitsAddr + (2 * (n / sps) + 1)) = some 0 then F64.amp else F64.negAmp
          let im := if Memory.word s.mem (o.bitsAddr + 2 * (n / sps)) = some 0 then F64.amp else F64.negAmp
          let c := F64.cos (th n)
          let sn := F64.sin (th n)
          ∃ wr wi, Memory.word t.mem (o.outAddr + 2 * n) = some wr ∧
            Memory.word t.mem (o.outAddr + 2 * n + 1) = some wi ∧
            F64.Stores (F64.sub (F64.mul re c) (F64.mul im sn)) wr ∧
            F64.Stores (F64.add (F64.mul re sn) (F64.mul im c)) wi) ∧
        (∀ x, x < 8 * o.outAddr ∨ 8 * (o.outAddr + 2 * len) ≤ x → Memory.byte t.mem x = Memory.byte s.mem x) ∧
        (t.status.nf = true ↔ s.status.nf = true ∨
          ∃ j w, j < 2 * len ∧ Memory.word t.mem (o.outAddr + j) = some w ∧ F64.isFinite w = false) ∧
        t.slots = s.slots ∧ t.res1 = s.res1 ∧ t.status.emptyWin = s.status.emptyWin ∧ s.hostSideKept t ∧
        s.completedOk t ∧ t.marks = s.marks

/-- R263, I4: sample 0 of every modulation is the symbol of bits 0 and 1, exactly. -/
def Obligations.FirstSampleIsTheSymbol : Prop :=
  ∀ s t : State,
    let o := modulateOperands s.operands
    (∀ j, j < o.numBits.toNat → s.written (o.bitsAddr + j) = true) → exec .qpskModulate s = .next t →
    t.status.err = .ok →
      Memory.word t.mem o.outAddr =
          some (if Memory.word s.mem (o.bitsAddr + 1) = some 0 then 0x3FE6A09E667F3BCD#64 else 0xBFE6A09E667F3BCD#64) ∧
        Memory.word t.mem (o.outAddr + 1) =
          some (if Memory.word s.mem o.bitsAddr = some 0 then 0x3FE6A09E667F3BCD#64 else 0xBFE6A09E667F3BCD#64)

/-! ## QPSK demodulator (46_qpsk_demod) -/

/-- R280: the checks of QPSK_DEMODULATE in their order. -/
def Obligations.DemodulateChecks : Prop :=
  ∀ s : State, s.status.fatal = false →
    let o := demodulateOperands s.operands
    let skip := (min o.delay (o.length - 1)).toNat
    let m := (o.length.toNat - skip + o.sps.toNat - 1) / o.sps.toNat
    (o.length ≤ 0 → exec .qpskDemodulate s = .next (s.endedWith .invalidLength)) ∧
    (0 < o.length →
      (F64.lt F64.zero o.fc = false ∨ F64.isFinite o.fc = false ∨ F64.lt F64.zero o.fs = false ∨
          F64.isFinite o.fs = false ∨ o.sps ≤ 0 ∨ o.delay < 0 →
        exec .qpskDemodulate s = .next (s.endedWith .invalidParam)) ∧
      (F64.lt F64.zero o.fc = true → F64.isFinite o.fc = true → F64.lt F64.zero o.fs = true →
        F64.isFinite o.fs = true → 0 < o.sps → 0 ≤ o.delay →
        (s.params.dmemWords < o.inAddr + 2 * o.length.toNat ∨ s.params.dmemWords < o.bitsAddr + 2 * m ∨
            s.params.dmemWords < o.consAddr + 2 * m →
          exec .qpskDemodulate s = .next (s.endedWith .addr))))

/-- R281 to R291, R142: QPSK_DEMODULATE with every check passed and its input words written. Symbol j averages the
baseband samples of its window and is decided by its angle; an empty window gives open values and sets EMPTY_WIN; the
bits are written first, then the points, which win where the two arrays overlap. -/
def Obligations.DemodulateDecidesTheSymbols : Prop :=
  ∀ (s : State) (smp : Nat → F64 × F64) (th : Nat → F64), s.status.fatal = false →
    let o := demodulateOperands s.operands
    let skip := (min o.delay (o.length - 1)).toNat
    let len := o.length.toNat - skip
    let sps := o.sps.toNat
    let m := (len + sps - 1) / sps
    0 < o.length → F64.lt F64.zero o.fc = true → F64.isFinite o.fc = true → F64.lt F64.zero o.fs = true →
    F64.isFinite o.fs = true → 0 < o.sps → 0 ≤ o.delay → o.inAddr + 2 * o.length.toNat ≤ s.params.dmemWords →
    o.bitsAddr + 2 * m ≤ s.params.dmemWords → o.consAddr + 2 * m ≤ s.params.dmemWords →
    (∀ n, n < len → Memory.word s.mem (o.inAddr + 2 * (skip + n)) = some (smp n).1 ∧
      Memory.word s.mem (o.inAddr + 2 * (skip + n) + 1) = some (smp n).2) →
    th 0 = 0x0000000000000000#64 →
    (∀ n, th (n + 1) =
      let t := F64.add (th n) (F64.div (F64.mul 0x401921FB54442D18#64 o.fc) o.fs)
      if F64.le 0x401921FB54442D18#64 t then F64.sub t 0x401921FB54442D18#64 else t) →
    let c := fun n => F64.cos (th n)
    let sn := fun n => F64.sin (th n)
    let lo := fun j => j * sps + sps / 4
    let hi := fun j => min (j * sps + 3 * sps / 4) len
    let re := fun j => F64.div (F64.sum (hi j - lo j) (fun i =>
      F64.add (F64.mul (smp (lo j + i)).1 (c (lo j + i))) (F64.mul (smp (lo j + i)).2 (sn (lo j + i)))))
      (F64.ofNat (hi j - lo j))
    let im := fun j => F64.div (F64.sum (hi j - lo j) (fun i =>
      F64.sub (F64.mul (smp (lo j + i)).2 (c (lo j + i))) (F64.mul (smp (lo j + i)).1 (sn (lo j + i)))))
      (F64.ofNat (hi j - lo j))
    let dibit := fun j =>
      let a := F64.atan2 (im j) (re j)
      if F64.le 0x0000000000000000#64 a && F64.lt a 0x3FF921FB54442D18#64 then (0#64, 0#64)
      else if F64.le 0x3FF921FB54442D18#64 a && F64.lt a 0x400921FB54442D18#64 then (0#64, 1#64)
      else if F64.le 0xBFF921FB54442D18#64 a && F64.lt a 0x0000000000000000#64 then (1#64, 0#64)
      else (1#64, 1#64)
      ∃ t, exec .qpskDemodulate s = .next t ∧ t.res0 = BitVec.ofNat 64 (2 * m) ∧ t.res1 = BitVec.ofNat 64 m ∧
        (∀ j, j < m → lo j < hi j →
          ∃ wr wi, Memory.word t.mem (o.consAddr + 2 * j) = some wr ∧
            Memory.word t.mem (o.consAddr + 2 * j + 1) = some wi ∧ F64.Stores (re j) wr ∧ F64.Stores (im j) wi) ∧
        (∀ j, j < m → lo j < hi j → ∀ b, b < 2 →
          (o.bitsAddr + 2 * j + b < o.consAddr ∨ o.consAddr + 2 * m ≤ o.bitsAddr + 2 * j + b) →
          Memory.word t.mem (o.bitsAddr + 2 * j + b) =
            some (if b = 0 then (dibit j).1 else (dibit j).2)) ∧
        (∀ x, x < 8 * o.bitsAddr ∨ 8 * (o.bitsAddr + 2 * m) ≤ x → x < 8 * o.consAddr ∨ 8 * (o.consAddr + 2 * m) ≤ x →
          Memory.byte t.mem x = Memory.byte s.mem x) ∧
        (t.status.emptyWin = true ↔ s.status.emptyWin = true ∨ ∃ j, j < m ∧ hi j ≤ lo j) ∧
        (t.status.nf = true ↔ s.status.nf = true ∨
          ∃ j w, j < 2 * m ∧ Memory.word t.mem (o.consAddr + j) = some w ∧ F64.isFinite w = false) ∧
        t.slots = s.slots ∧ s.hostSideKept t ∧ s.completedOk t ∧ t.marks = s.marks

/-- The inference 46_qpsk_demod R290 marks as its own: for every ATAN2 that is within one ulp of the angle of a constellation point, the point of each dibit is
decided as that dibit. -/
def Obligations.DecisionInvertsTheGrayMap : Prop :=
  ∀ (T : Trig) (b0 b1 : Bool),
    let p := symbolPoint b0 b1
    F64.withinUlps 1 (T.atan2 p.2 p.1)
      (Complex.arg ⟨(F64.signedUnits p.1 : ℝ) / 2 ^ 1074, (F64.signedUnits p.2 : ℝ) / 2 ^ 1074⟩) →
      decideSymbol T p = (b0, b1)

/-! ## Arithmetic (00_scope) -/

/-- R16, R19: a finite sum, product or quotient of finite values is the binary64 value nearest to the exact result, ties
to even (values in units of 2^-1074, so the exact sum is x + y, the product x·y / 2^1074, the quotient
x·2^1074 / y). -/
def Obligations.ArithmeticIsCorrectlyRounded : Prop :=
  ∀ x y z : F64, F64.isFinite x = true → F64.isFinite y = true → F64.isFinite z = true →
    let v := F64.signedUnits
    let one := (2 : Int) ^ 1074
    (F64.isFinite (F64.add x y) = true →
      |v (F64.add x y) - (v x + v y)| ≤ |v z - (v x + v y)| ∧
      (|v (F64.add x y) - (v x + v y)| = |v z - (v x + v y)| → v z ≠ v (F64.add x y) →
        (F64.add x y).getLsbD 0 = false)) ∧
    (F64.isFinite (F64.mul x y) = true →
      |v (F64.mul x y) * one - v x * v y| ≤ |v z * one - v x * v y| ∧
      (|v (F64.mul x y) * one - v x * v y| = |v z * one - v x * v y| → v z ≠ v (F64.mul x y) →
        (F64.mul x y).getLsbD 0 = false)) ∧
    (F64.isZero y = false → F64.isFinite (F64.div x y) = true →
      |v (F64.div x y) * v y - v x * one| ≤ |v z * v y - v x * one| ∧
      (|v (F64.div x y) * v y - v x * one| = |v z * v y - v x * one| → v z ≠ v (F64.div x y) →
        (F64.div x y).getLsbD 0 = false))

/-- R17: comparisons of finite values order their values (so −0.0 = +0.0), and with a NaN they are false. -/
def Obligations.ComparisonsOrderTheValues : Prop :=
  ∀ x y : F64,
    (F64.isFinite x = true → F64.isFinite y = true →
      (F64.lt x y = true ↔ F64.signedUnits x < F64.signedUnits y) ∧
      (F64.le x y = true ↔ F64.signedUnits x ≤ F64.signedUnits y) ∧
      (F64.eq x y = true ↔ F64.signedUnits x = F64.signedUnits y)) ∧
    (F64.isNaN x = true ∨ F64.isNaN y = true →
      F64.lt x y = false ∧ F64.le x y = false ∧ F64.eq x y = false)
end

