-- ==== Sys2Proof/Laws/State.lean ====
section
/-! SUPPORT. What each update of the state does to each field, one lemma a field, so that no proof unfolds an update. -/

namespace Sys2Proof.Machine

/-! ## `State.complete` -/

@[simp] theorem State.complete_params (s : State) (code : Code) : (s.complete code).params = s.params := rfl
@[simp] theorem State.complete_ie (s : State) (code : Code) : (s.complete code).ie = s.ie := rfl
@[simp] theorem State.complete_status (s : State) (code : Code) :
    (s.complete code).status = { s.status with err := code, done := true, busy := false } := rfl
@[simp] theorem State.complete_res0 (s : State) (code : Code) : (s.complete code).res0 = s.res0 := rfl
@[simp] theorem State.complete_res1 (s : State) (code : Code) : (s.complete code).res1 = s.res1 := rfl
@[simp] theorem State.complete_args (s : State) (code : Code) : (s.complete code).args = s.args := rfl
@[simp] theorem State.complete_pending (s : State) (code : Code) : (s.complete code).pending = none := rfl
@[simp] theorem State.complete_mem (s : State) (code : Code) : (s.complete code).mem = s.mem := rfl
@[simp] theorem State.complete_slots (s : State) (code : Code) : (s.complete code).slots = s.slots := rfl
@[simp] theorem State.complete_marks (s : State) (code : Code) : (s.complete code).marks = s.marks := rfl
@[simp] theorem State.complete_draws (s : State) (code : Code) : (s.complete code).draws = s.draws := rfl
@[simp] theorem State.complete_inputs (s : State) (code : Code) : (s.complete code).inputs = s.inputs := rfl
@[simp] theorem State.complete_response (s : State) (code : Code) : (s.complete code).response = s.response := rfl

/-! ## `State.raised` -/

@[simp] theorem State.raised_params (s : State) (code : Code) : (s.raised code).params = s.params := rfl
@[simp] theorem State.raised_ie (s : State) (code : Code) : (s.raised code).ie = s.ie := rfl
@[simp] theorem State.raised_status (s : State) (code : Code) :
    (s.raised code).status = { s.status with fatal := s.status.fatal || decide (code = Code.a0Zero), err := code, done := true, busy := false } := rfl
@[simp] theorem State.raised_res0 (s : State) (code : Code) : (s.raised code).res0 = s.res0 := rfl
@[simp] theorem State.raised_res1 (s : State) (code : Code) : (s.raised code).res1 = s.res1 := rfl
@[simp] theorem State.raised_args (s : State) (code : Code) : (s.raised code).args = s.args := rfl
@[simp] theorem State.raised_pending (s : State) (code : Code) : (s.raised code).pending = none := rfl
@[simp] theorem State.raised_mem (s : State) (code : Code) : (s.raised code).mem = s.mem := rfl
@[simp] theorem State.raised_slots (s : State) (code : Code) : (s.raised code).slots = s.slots := rfl
@[simp] theorem State.raised_marks (s : State) (code : Code) : (s.raised code).marks = s.marks := rfl
@[simp] theorem State.raised_draws (s : State) (code : Code) : (s.raised code).draws = s.draws := rfl
@[simp] theorem State.raised_inputs (s : State) (code : Code) : (s.raised code).inputs = s.inputs := rfl
@[simp] theorem State.raised_response (s : State) (code : Code) : (s.raised code).response = s.response := rfl

/-! ## `State.setSlot` -/

@[simp] theorem State.setSlot_params (s : State) (h : Nat) (v : Slot) : (s.setSlot h v).params = s.params := rfl
@[simp] theorem State.setSlot_ie (s : State) (h : Nat) (v : Slot) : (s.setSlot h v).ie = s.ie := rfl
@[simp] theorem State.setSlot_status (s : State) (h : Nat) (v : Slot) : (s.setSlot h v).status = s.status := rfl
@[simp] theorem State.setSlot_res0 (s : State) (h : Nat) (v : Slot) : (s.setSlot h v).res0 = s.res0 := rfl
@[simp] theorem State.setSlot_res1 (s : State) (h : Nat) (v : Slot) : (s.setSlot h v).res1 = s.res1 := rfl
@[simp] theorem State.setSlot_args (s : State) (h : Nat) (v : Slot) : (s.setSlot h v).args = s.args := rfl
@[simp] theorem State.setSlot_pending (s : State) (h : Nat) (v : Slot) : (s.setSlot h v).pending = s.pending := rfl
@[simp] theorem State.setSlot_mem (s : State) (h : Nat) (v : Slot) : (s.setSlot h v).mem = s.mem := rfl
@[simp] theorem State.setSlot_slots (s : State) (h : Nat) (v : Slot) : (s.setSlot h v).slots = s.slots.set h v := rfl
@[simp] theorem State.setSlot_marks (s : State) (h : Nat) (v : Slot) : (s.setSlot h v).marks = s.marks := rfl
@[simp] theorem State.setSlot_draws (s : State) (h : Nat) (v : Slot) : (s.setSlot h v).draws = s.draws := rfl
@[simp] theorem State.setSlot_inputs (s : State) (h : Nat) (v : Slot) : (s.setSlot h v).inputs = s.inputs := rfl
@[simp] theorem State.setSlot_response (s : State) (h : Nat) (v : Slot) : (s.setSlot h v).response = s.response := rfl

/-! ## `State.noteReads` -/

@[simp] theorem State.noteReads_params (s : State) (a n : Nat) : (s.noteReads a n).params = s.params := rfl
@[simp] theorem State.noteReads_ie (s : State) (a n : Nat) : (s.noteReads a n).ie = s.ie := rfl
@[simp] theorem State.noteReads_status (s : State) (a n : Nat) : (s.noteReads a n).status = s.status := rfl
@[simp] theorem State.noteReads_res0 (s : State) (a n : Nat) : (s.noteReads a n).res0 = s.res0 := rfl
@[simp] theorem State.noteReads_res1 (s : State) (a n : Nat) : (s.noteReads a n).res1 = s.res1 := rfl
@[simp] theorem State.noteReads_args (s : State) (a n : Nat) : (s.noteReads a n).args = s.args := rfl
@[simp] theorem State.noteReads_pending (s : State) (a n : Nat) : (s.noteReads a n).pending = s.pending := rfl
@[simp] theorem State.noteReads_mem (s : State) (a n : Nat) : (s.noteReads a n).mem = s.mem := rfl
@[simp] theorem State.noteReads_slots (s : State) (a n : Nat) : (s.noteReads a n).slots = s.slots := rfl
@[simp] theorem State.noteReads_marks (s : State) (a n : Nat) :
    (s.noteReads a n).marks = { s.marks with unwrittenRead := s.marks.unwrittenRead || !s.allWritten a n } := rfl
@[simp] theorem State.noteReads_draws (s : State) (a n : Nat) : (s.noteReads a n).draws = s.draws + n := rfl
@[simp] theorem State.noteReads_inputs (s : State) (a n : Nat) : (s.noteReads a n).inputs = s.inputs := rfl
@[simp] theorem State.noteReads_response (s : State) (a n : Nat) : (s.noteReads a n).response = s.response := rfl

/-! ## `State.writeWords` -/

@[simp] theorem State.writeWords_params (s : State) (a : Nat) (ws : List Word) :
    (s.writeWords a ws).params = s.params := rfl
@[simp] theorem State.writeWords_ie (s : State) (a : Nat) (ws : List Word) : (s.writeWords a ws).ie = s.ie := rfl
@[simp] theorem State.writeWords_status (s : State) (a : Nat) (ws : List Word) :
    (s.writeWords a ws).status = s.status := rfl
@[simp] theorem State.writeWords_res0 (s : State) (a : Nat) (ws : List Word) :
    (s.writeWords a ws).res0 = s.res0 := rfl
@[simp] theorem State.writeWords_res1 (s : State) (a : Nat) (ws : List Word) :
    (s.writeWords a ws).res1 = s.res1 := rfl
@[simp] theorem State.writeWords_args (s : State) (a : Nat) (ws : List Word) :
    (s.writeWords a ws).args = s.args := rfl
@[simp] theorem State.writeWords_pending (s : State) (a : Nat) (ws : List Word) :
    (s.writeWords a ws).pending = s.pending := rfl
@[simp] theorem State.writeWords_mem (s : State) (a : Nat) (ws : List Word) :
    (s.writeWords a ws).mem = Memory.putWords s.mem a ws := rfl
@[simp] theorem State.writeWords_slots (s : State) (a : Nat) (ws : List Word) :
    (s.writeWords a ws).slots = s.slots := rfl
@[simp] theorem State.writeWords_marks (s : State) (a : Nat) (ws : List Word) :
    (s.writeWords a ws).marks = s.marks := rfl
@[simp] theorem State.writeWords_draws (s : State) (a : Nat) (ws : List Word) :
    (s.writeWords a ws).draws = s.draws := rfl
@[simp] theorem State.writeWords_inputs (s : State) (a : Nat) (ws : List Word) :
    (s.writeWords a ws).inputs = s.inputs := rfl
@[simp] theorem State.writeWords_response (s : State) (a : Nat) (ws : List Word) :
    (s.writeWords a ws).response = s.response := rfl

/-! ## `State.accept` -/

@[simp] theorem State.accept_params (s : State) (w : Word) : (s.accept w).params = s.params := rfl
@[simp] theorem State.accept_ie (s : State) (w : Word) : (s.accept w).ie = s.ie := rfl
@[simp] theorem State.accept_status (s : State) (w : Word) :
    (s.accept w).status = { s.status with busy := true, done := false } := rfl
@[simp] theorem State.accept_res0 (s : State) (w : Word) : (s.accept w).res0 = s.res0 := rfl
@[simp] theorem State.accept_res1 (s : State) (w : Word) : (s.accept w).res1 = s.res1 := rfl
@[simp] theorem State.accept_args (s : State) (w : Word) : (s.accept w).args = s.args := rfl
@[simp] theorem State.accept_pending (s : State) (w : Word) :
    (s.accept w).pending = some { word := w, args := s.args } := rfl
@[simp] theorem State.accept_mem (s : State) (w : Word) : (s.accept w).mem = s.mem := rfl
@[simp] theorem State.accept_slots (s : State) (w : Word) : (s.accept w).slots = s.slots := rfl
@[simp] theorem State.accept_marks (s : State) (w : Word) : (s.accept w).marks = s.marks := rfl
@[simp] theorem State.accept_draws (s : State) (w : Word) : (s.accept w).draws = s.draws + 1 := rfl
@[simp] theorem State.accept_inputs (s : State) (w : Word) : (s.accept w).inputs = s.inputs := rfl
@[simp] theorem State.accept_response (s : State) (w : Word) : (s.accept w).response = s.response := rfl

/-! ## `State.resetInput` -/

@[simp] theorem State.resetInput_params (s : State) : s.resetInput.params = s.params := rfl
@[simp] theorem State.resetInput_ie (s : State) : s.resetInput.ie = false := rfl
@[simp] theorem State.resetInput_status (s : State) : s.resetInput.status = Status.reset := rfl
@[simp] theorem State.resetInput_res0 (s : State) : s.resetInput.res0 = 0 := rfl
@[simp] theorem State.resetInput_res1 (s : State) : s.resetInput.res1 = 0 := rfl
@[simp] theorem State.resetInput_args (s : State) : s.resetInput.args = Args.reset := rfl
@[simp] theorem State.resetInput_pending (s : State) : s.resetInput.pending = none := rfl
@[simp] theorem State.resetInput_mem (s : State) : s.resetInput.mem = [] := rfl
@[simp] theorem State.resetInput_slots (s : State) :
    s.resetInput.slots = List.replicate s.params.numSlots .free := rfl
@[simp] theorem State.resetInput_marks (s : State) : s.resetInput.marks = s.marks := rfl
@[simp] theorem State.resetInput_draws (s : State) : s.resetInput.draws = s.draws + 1 := rfl
@[simp] theorem State.resetInput_inputs (s : State) : s.resetInput.inputs = s.inputs := rfl
@[simp] theorem State.resetInput_response (s : State) : s.resetInput.response = none := rfl

/-! ## `State.busError` -/

@[simp] theorem State.busError_params (s : State) : s.busError.params = s.params := rfl
@[simp] theorem State.busError_ie (s : State) : s.busError.ie = s.ie := rfl
@[simp] theorem State.busError_status (s : State) : s.busError.status = s.status := rfl
@[simp] theorem State.busError_res0 (s : State) : s.busError.res0 = s.res0 := rfl
@[simp] theorem State.busError_res1 (s : State) : s.busError.res1 = s.res1 := rfl
@[simp] theorem State.busError_args (s : State) : s.busError.args = s.args := rfl
@[simp] theorem State.busError_pending (s : State) : s.busError.pending = s.pending := rfl
@[simp] theorem State.busError_mem (s : State) : s.busError.mem = s.mem := rfl
@[simp] theorem State.busError_slots (s : State) : s.busError.slots = s.slots := rfl
@[simp] theorem State.busError_marks (s : State) : s.busError.marks = { s.marks with hostBusError := true } := rfl
@[simp] theorem State.busError_draws (s : State) : s.busError.draws = s.draws := rfl
@[simp] theorem State.busError_inputs (s : State) : s.busError.inputs = s.inputs := rfl
@[simp] theorem State.busError_response (s : State) : s.busError.response = some .busError := rfl

/-! ## `State.hazard` -/

@[simp] theorem State.hazard_params (s : State) : s.hazard.params = s.params := rfl
@[simp] theorem State.hazard_ie (s : State) : s.hazard.ie = s.ie := rfl
@[simp] theorem State.hazard_status (s : State) : s.hazard.status = s.status := rfl
@[simp] theorem State.hazard_res0 (s : State) : s.hazard.res0 = s.res0 := rfl
@[simp] theorem State.hazard_res1 (s : State) : s.hazard.res1 = s.res1 := rfl
@[simp] theorem State.hazard_args (s : State) : s.hazard.args = s.args := rfl
@[simp] theorem State.hazard_pending (s : State) : s.hazard.pending = s.pending := rfl
@[simp] theorem State.hazard_mem (s : State) : s.hazard.mem = s.mem := rfl
@[simp] theorem State.hazard_slots (s : State) : s.hazard.slots = s.slots := rfl
@[simp] theorem State.hazard_marks (s : State) : s.hazard.marks = { s.marks with hostHazard := true } := rfl
@[simp] theorem State.hazard_draws (s : State) : s.hazard.draws = s.draws := rfl
@[simp] theorem State.hazard_inputs (s : State) : s.hazard.inputs = s.inputs := rfl
@[simp] theorem State.hazard_response (s : State) : s.hazard.response = some .unmodelled := rfl

/-! ## `Status` -/

@[simp] theorem Status.clearOnes_busy (s : Status) (w : Word) : (s.clearOnes w).busy = (s.busy) := rfl
@[simp] theorem Status.clearOnes_done (s : Status) (w : Word) : (s.clearOnes w).done = (s.done && !w.getLsbD 1) := rfl
@[simp] theorem Status.clearOnes_ovr (s : Status) (w : Word) : (s.clearOnes w).ovr = (s.ovr && !w.getLsbD 2) := rfl
@[simp] theorem Status.clearOnes_nf (s : Status) (w : Word) : (s.clearOnes w).nf = (s.nf && !w.getLsbD 3) := rfl
@[simp] theorem Status.clearOnes_emptyWin (s : Status) (w : Word) : (s.clearOnes w).emptyWin = (s.emptyWin && !w.getLsbD 4) := rfl
@[simp] theorem Status.clearOnes_fatal (s : Status) (w : Word) : (s.clearOnes w).fatal = (s.fatal) := rfl
@[simp] theorem Status.clearOnes_err (s : Status) (w : Word) : (s.clearOnes w).err = (s.err) := rfl
@[simp] theorem Status.noteResults_busy (s : Status) (vs : List F64) :
    (s.noteResults vs).busy = s.busy := rfl
@[simp] theorem Status.noteResults_done (s : Status) (vs : List F64) :
    (s.noteResults vs).done = s.done := rfl
@[simp] theorem Status.noteResults_ovr (s : Status) (vs : List F64) :
    (s.noteResults vs).ovr = s.ovr := rfl
@[simp] theorem Status.noteResults_nf (s : Status) (vs : List F64) :
    (s.noteResults vs).nf = (s.nf || vs.any (fun v => !F64.isFinite v)) := rfl
@[simp] theorem Status.noteResults_emptyWin (s : Status) (vs : List F64) :
    (s.noteResults vs).emptyWin = s.emptyWin := rfl
@[simp] theorem Status.noteResults_fatal (s : Status) (vs : List F64) :
    (s.noteResults vs).fatal = s.fatal := rfl
@[simp] theorem Status.noteResults_err (s : Status) (vs : List F64) :
    (s.noteResults vs).err = s.err := rfl

end Sys2Proof.Machine
end

