-- ==== Sys2Proof/Laws/Memory.lean ====
section
/-! SUPPORT. The laws of data memory: a byte or word written reads back, every other one is left alone, and every
memory operation keeps the canonical form `Memory.wf`. -/

namespace Sys2Proof.Machine

/-! ## Bytes -/

@[simp] theorem Memory.byte_nil (a : Nat) : Memory.byte [] a = none := rfl

theorem Memory.byte_putByte (m : List Host.Cell) (a : Nat) (b : Byte) (x : Nat) :
    Memory.byte (Memory.putByte m a b) x = if x = a then some b else Memory.byte m x := by
  induction m with
  | nil => simp only [Memory.putByte, Memory.byte, eq_comm]
  | cons c rest ih =>
    obtain ⟨k, v⟩ := c
    simp only [Memory.putByte]
    split
    · simp only [Memory.byte, eq_comm]
    · split
      · next h => subst h; simp only [Memory.byte, eq_comm]; split <;> simp_all
      · next h1 h2 =>
        simp only [Memory.byte, ih]
        by_cases hk : k = x
        · subst hk; simp [Ne.symm h2]
        · simp [hk]

theorem Memory.mem_putByte {m : List Host.Cell} {a : Nat} {b : Byte} {c : Host.Cell}
    (h : c ∈ Memory.putByte m a b) : c = (a, b) ∨ c ∈ m := by
  induction m with
  | nil => simpa [Memory.putByte] using h
  | cons d rest ih =>
    obtain ⟨k, v⟩ := d
    simp only [Memory.putByte] at h
    split at h
    · simpa using h
    · split at h
      · rcases List.mem_cons.1 h with h | h <;> simp [h]
      · rcases List.mem_cons.1 h with h | h
        · simp [h]
        · rcases ih h with h | h <;> simp [h]

theorem Memory.putByte_wf {m : List Host.Cell} (hm : Memory.wf m) (a : Nat) (b : Byte) :
    Memory.wf (Memory.putByte m a b) := by
  induction m with
  | nil => simp [Memory.putByte, Memory.wf]
  | cons d rest ih =>
    obtain ⟨k, v⟩ := d
    obtain ⟨hk, hr⟩ := List.pairwise_cons.1 hm
    simp only [Memory.putByte]
    split
    · next h =>
      refine List.pairwise_cons.2 ⟨fun c hc => ?_, hm⟩
      rcases List.mem_cons.1 hc with rfl | hc
      · exact h
      · exact Nat.lt_trans h (hk c hc)
    · split
      · next h => subst h; exact List.pairwise_cons.2 ⟨hk, hr⟩
      · next h1 h2 =>
        refine List.pairwise_cons.2 ⟨fun c hc => ?_, ih hr⟩
        rcases Memory.mem_putByte hc with rfl | hc
        · show k < a; omega
        · exact hk c hc

/-! ## Words as bytes (R73) -/

@[simp] theorem wordOfBytes_wordByte (w : Word) :
    wordOfBytes (wordByte w 0) (wordByte w 1) (wordByte w 2) (wordByte w 3) (wordByte w 4) (wordByte w 5)
      (wordByte w 6) (wordByte w 7) = w := by
  apply BitVec.eq_of_toNat_eq
  have hw := w.isLt
  simp only [wordOfBytes, wordByte, BitVec.toNat_append, BitVec.extractLsb'_toNat, Nat.shiftRight_eq_div_pow]
  repeat rw [← Nat.shiftLeft_add_eq_or_of_lt (by omega)]
  simp only [Nat.shiftLeft_eq]
  omega

theorem Memory.byte_putWord (m : List Host.Cell) (a : Nat) (w : Word) (x : Nat) :
    Memory.byte (Memory.putWord m a w) x =
      if 8 * a ≤ x ∧ x < 8 * a + 8 then some (wordByte w (x - 8 * a)) else Memory.byte m x := by
  have h8 : List.range 8 = [0, 1, 2, 3, 4, 5, 6, 7] := rfl
  simp only [Memory.putWord, h8, List.foldl_cons, List.foldl_nil, Memory.byte_putByte]
  by_cases hx : 8 * a ≤ x ∧ x < 8 * a + 8
  · obtain ⟨k, hk, rfl⟩ : ∃ k, k < 8 ∧ x = 8 * a + k := ⟨x - 8 * a, by omega, by omega⟩
    have : k = 0 ∨ k = 1 ∨ k = 2 ∨ k = 3 ∨ k = 4 ∨ k = 5 ∨ k = 6 ∨ k = 7 := by omega
    rcases this with rfl | rfl | rfl | rfl | rfl | rfl | rfl | rfl <;> simp
  · rw [if_neg hx]
    repeat rw [if_neg (by omega)]

theorem Memory.putWord_wf {m : List Host.Cell} (hm : Memory.wf m) (a : Nat) (w : Word) :
    Memory.wf (Memory.putWord m a w) := by
  have h : ∀ (l : List Nat) (m : List Host.Cell), Memory.wf m →
      Memory.wf (l.foldl (fun m k => Memory.putByte m (8 * a + k) (wordByte w k)) m) := by
    intro l
    induction l with
    | nil => intro m hm; exact hm
    | cons k l ih => intro m hm; exact ih _ (Memory.putByte_wf hm _ _)
  exact h _ _ hm

@[simp] theorem Memory.word_putWord_same (m : List Host.Cell) (a : Nat) (w : Word) :
    Memory.word (Memory.putWord m a w) a = some w := by
  simp [Memory.word, Memory.byte_putWord]

/-- A word is made of its own eight bytes only. -/
theorem Memory.word_congr {m m' : List Host.Cell} {a : Nat}
    (h : ∀ x, 8 * a ≤ x → x < 8 * a + 8 → Memory.byte m x = Memory.byte m' x) :
    Memory.word m a = Memory.word m' a := by
  simp only [Memory.word]
  rw [h (8 * a) (by omega) (by omega), h (8 * a + 1) (by omega) (by omega), h (8 * a + 2) (by omega) (by omega),
    h (8 * a + 3) (by omega) (by omega), h (8 * a + 4) (by omega) (by omega), h (8 * a + 5) (by omega) (by omega),
    h (8 * a + 6) (by omega) (by omega), h (8 * a + 7) (by omega) (by omega)]

theorem Memory.word_putWord_other {m : List Host.Cell} {a x : Nat} (w : Word) (h : x ≠ a) :
    Memory.word (Memory.putWord m a w) x = Memory.word m x :=
  Memory.word_congr fun y h1 h2 => by rw [Memory.byte_putWord, if_neg (by omega)]

/-- A word is written exactly when its eight bytes are. -/
theorem Memory.word_isSome_iff (m : List Host.Cell) (a : Nat) :
    (Memory.word m a).isSome ↔ ∀ x, 8 * a ≤ x → x < 8 * a + 8 → (Memory.byte m x).isSome := by
  constructor
  · intro h x h1 h2
    obtain ⟨k, hk, rfl⟩ : ∃ k, k < 8 ∧ x = 8 * a + k := ⟨x - 8 * a, by omega, by omega⟩
    simp only [Memory.word] at h
    split at h
    · next hb => 
      have : k = 0 ∨ k = 1 ∨ k = 2 ∨ k = 3 ∨ k = 4 ∨ k = 5 ∨ k = 6 ∨ k = 7 := by omega
      rcases this with rfl | rfl | rfl | rfl | rfl | rfl | rfl | rfl <;> simp_all
    · simp at h
  · intro h
    simp only [Memory.word]
    obtain ⟨b0, h0⟩ := Option.isSome_iff_exists.1 (h (8 * a) (by omega) (by omega))
    obtain ⟨b1, h1⟩ := Option.isSome_iff_exists.1 (h (8 * a + 1) (by omega) (by omega))
    obtain ⟨b2, h2⟩ := Option.isSome_iff_exists.1 (h (8 * a + 2) (by omega) (by omega))
    obtain ⟨b3, h3⟩ := Option.isSome_iff_exists.1 (h (8 * a + 3) (by omega) (by omega))
    obtain ⟨b4, h4⟩ := Option.isSome_iff_exists.1 (h (8 * a + 4) (by omega) (by omega))
    obtain ⟨b5, h5⟩ := Option.isSome_iff_exists.1 (h (8 * a + 5) (by omega) (by omega))
    obtain ⟨b6, h6⟩ := Option.isSome_iff_exists.1 (h (8 * a + 6) (by omega) (by omega))
    obtain ⟨b7, h7⟩ := Option.isSome_iff_exists.1 (h (8 * a + 7) (by omega) (by omega))
    simp [h0, h1, h2, h3, h4, h5, h6, h7]

/-! ## Rows of words (R14, R79) -/

theorem Memory.putWords_wf {m : List Host.Cell} (hm : Memory.wf m) (a : Nat) (ws : List Word) :
    Memory.wf (Memory.putWords m a ws) := by
  induction ws generalizing m a with
  | nil => exact hm
  | cons w ws ih => exact ih (Memory.putWord_wf hm a w) (a + 1)

/-- A row of words leaves every byte outside it alone. -/
theorem Memory.byte_putWords_outside {m : List Host.Cell} {a : Nat} {ws : List Word} {x : Nat}
    (h : x < 8 * a ∨ 8 * (a + ws.length) ≤ x) : Memory.byte (Memory.putWords m a ws) x = Memory.byte m x := by
  induction ws generalizing m a with
  | nil => rfl
  | cons w ws ih =>
    simp only [List.length_cons] at h
    rw [Memory.putWords, ih (by omega), Memory.byte_putWord, if_neg (by omega)]

theorem Memory.word_putWords_outside {m : List Host.Cell} {a : Nat} {ws : List Word} {x : Nat}
    (h : x < a ∨ a + ws.length ≤ x) : Memory.word (Memory.putWords m a ws) x = Memory.word m x :=
  Memory.word_congr fun y h1 h2 => Memory.byte_putWords_outside (by omega)

/-- A row of words reads back. -/
theorem Memory.word_putWords_inside {m : List Host.Cell} {a : Nat} {ws : List Word} {i : Nat} (h : i < ws.length) :
    Memory.word (Memory.putWords m a ws) (a + i) = some ws[i] := by
  induction ws generalizing m a i with
  | nil => simp at h
  | cons w ws ih =>
    rw [Memory.putWords]
    cases i with
    | zero => rw [Nat.add_zero, Memory.word_putWords_outside (by omega)]; simp
    | succ i =>
      have := ih (m := Memory.putWord m a w) (a := a + 1) (i := i) (by simpa using h)
      simpa [Nat.add_comm, Nat.add_left_comm, Nat.add_assoc] using this

/-! ## Only whole words of DMEM are listed -/

theorem Memory.byte_isSome_of_mem {m : List Host.Cell} {c : Host.Cell} (h : c ∈ m) : (Memory.byte m c.1).isSome := by
  induction m with
  | nil => simp at h
  | cons d rest ih =>
    obtain ⟨k, v⟩ := d
    simp only [Memory.byte]
    split
    · rfl
    · next hk =>
      rcases List.mem_cons.1 h with rfl | h
      · exact absurd rfl hk
      · exact ih h

theorem Memory.exists_mem_of_byte {m : List Host.Cell} {x : Nat} (h : (Memory.byte m x).isSome) :
    ∃ b, (x, b) ∈ m := by
  induction m with
  | nil => simp at h
  | cons d rest ih =>
    obtain ⟨k, v⟩ := d
    simp only [Memory.byte] at h
    split at h
    · next hk => subst hk; exact ⟨v, by simp⟩
    · obtain ⟨b, hb⟩ := ih h; exact ⟨b, by simp [hb]⟩

end Sys2Proof.Machine
end

