-- ==== Sys2Proof/Laws/Ops.lean ====
section
/-! SUPPORT. One lemma for each shared operation of Machine/Ops.lean that says everything it can do, and one for each
command that lists its outcomes. -/

namespace Sys2Proof.Machine

/-! ## Slots -/

theorem Slot.asFir_eq_some {v : Slot} {f : FirState} : v.asFir = some f ↔ v = .fir f := by cases v <;> simp [Slot.asFir]

theorem Slot.asIir_eq_some {v : Slot} {q : IirState} : v.asIir = some q ↔ v = .iir q := by cases v <;> simp [Slot.asIir]

theorem Slot.asLms_eq_some {v : Slot} {l : LmsState} : v.asLms = some l ↔ v = .lms l := by cases v <;> simp [Slot.asLms]

theorem Slot.asRls_eq_some {v : Slot} {r : RlsState} : v.asRls = some r ↔ v = .rls r := by cases v <;> simp [Slot.asRls]

theorem Slot.isFree_iff {v : Slot} : v.isFree = true ↔ v = .free := by cases v <;> simp [Slot.isFree]

/-- A slot that holds something is one of the slots. -/
theorem State.lt_of_slot_ne_free {s : State} {h : Nat} (hs : s.slot h ≠ .free) : h < s.slots.length := by
  rcases Nat.lt_or_ge h s.slots.length with hl | hl
  · exact hl
  · exact absurd (by simp [State.slot, hl]) hs

@[simp] theorem State.slot_setSlot_same {s : State} {h : Nat} {v : Slot} (hl : h < s.slots.length) :
    (s.setSlot h v).slot h = v := by
  simp [State.slot, List.getD_eq_getElem?_getD, hl]

@[simp] theorem State.slot_setSlot_other {s : State} {h g : Nat} {v : Slot} (hg : g ≠ h) :
    (s.setSlot h v).slot g = s.slot g := by
  simp [State.slot, List.getD_eq_getElem?_getD, List.getElem?_set_ne (Ne.symm hg)]

/-- Allocation picks the lowest FREE slot (R139). -/
theorem State.freeSlot_eq_some {s : State} {h : Nat} :
    s.freeSlot = some h ↔ h < s.slots.length ∧ s.slot h = .free ∧ ∀ g < h, s.slot g ≠ .free := by
  simp only [State.freeSlot, List.findIdx?_eq_some_iff_getElem]
  constructor
  · rintro ⟨hl, hf, hg⟩
    refine ⟨hl, ?_, fun g hgh => ?_⟩
    · simpa [State.slot, List.getD_eq_getElem?_getD, hl] using Slot.isFree_iff.1 hf
    · have hgl : g < s.slots.length := by omega
      simpa [State.slot, List.getD_eq_getElem?_getD, hgl, ← Slot.isFree_iff] using hg g hgh
  · rintro ⟨hl, hf, hg⟩
    refine ⟨hl, ?_, fun g hgh => ?_⟩
    · simpa [State.slot, List.getD_eq_getElem?_getD, hl, ← Slot.isFree_iff] using hf
    · have hgl : g < s.slots.length := by omega
      simpa [State.slot, List.getD_eq_getElem?_getD, hgl, ← Slot.isFree_iff] using hg g hgh

theorem State.freeSlot_eq_none {s : State} : s.freeSlot = none ↔ ∀ g < s.slots.length, s.slot g ≠ .free := by
  simp only [State.freeSlot, List.findIdx?_eq_none_iff]
  constructor
  · intro h g hg
    have := h s.slots[g] (List.getElem_mem hg)
    simpa [State.slot, List.getD_eq_getElem?_getD, hg, ← Slot.isFree_iff] using this
  · intro h v hv
    obtain ⟨g, hg, rfl⟩ := List.getElem_of_mem hv
    simpa [State.slot, List.getD_eq_getElem?_getD, hg, ← Slot.isFree_iff] using h g hg

/-! ## The checks before a command's own -/

@[simp] theorem guardFatal_eq {s : State} {k : Answer} (h : s.status.fatal = false) : guardFatal s k = k := by
  simp [guardFatal, h]

@[simp] theorem guardFatal_fatal {s : State} {k : Answer} (h : s.status.fatal = true) :
    guardFatal s k = raiseError .fatal s := by
  simp [guardFatal, h]

/-- What the handle checks of R133 can answer. -/
theorem withEngine_cases {α : Type} (kind : Slot → Option α) (h : Nat) (s : State) (k : α → Answer) :
    (∃ c, (c = .fatal ∨ c = .badHandle ∨ c = .wrongType) ∧ withEngine kind h s k = raiseError c s) ∨
      (s.status.fatal = false ∧ h < s.params.numSlots ∧ s.slot h ≠ .free ∧
        ∃ e, kind (s.slot h) = some e ∧ withEngine kind h s k = k e) := by
  cases hf : s.status.fatal with
  | true => exact .inl ⟨.fatal, by simp, by simp [withEngine, hf]⟩
  | false =>
    simp only [withEngine, guardFatal_eq hf]
    split
    · exact .inl ⟨.badHandle, by simp, rfl⟩
    · next hb =>
      rw [not_or, Nat.not_le] at hb
      split
      · exact .inl ⟨.wrongType, by simp, rfl⟩
      · next e he => exact .inr ⟨by simp, hb.1, fun hs => hb.2 (Slot.isFree_iff.2 hs), e, he, rfl⟩

/-- The command itself runs when every handle check passes. -/
theorem withEngine_eq {α : Type} {kind : Slot → Option α} {h : Nat} {s : State} {k : α → Answer} {e : α}
    (hf : s.status.fatal = false) (hh : h < s.params.numSlots) (hs : s.slot h ≠ .free)
    (he : kind (s.slot h) = some e) : withEngine kind h s k = k e := by
  have hfree : ¬(s.slot h).isFree = true := fun c => hs (Slot.isFree_iff.1 c)
  simp [withEngine, hf, hfree, Nat.not_le.2 hh, he]

theorem withEngine_badHandle {α : Type} {kind : Slot → Option α} {h : Nat} {s : State} {k : α → Answer}
    (hf : s.status.fatal = false) (hb : s.params.numSlots ≤ h ∨ s.slot h = .free) :
    withEngine kind h s k = raiseError .badHandle s := by
  rw [← Slot.isFree_iff] at hb
  simp [withEngine, hf, hb]

theorem withEngine_wrongType {α : Type} {kind : Slot → Option α} {h : Nat} {s : State} {k : α → Answer}
    (hf : s.status.fatal = false) (hh : h < s.params.numSlots) (hs : s.slot h ≠ .free)
    (he : kind (s.slot h) = none) : withEngine kind h s k = raiseError .wrongType s := by
  have hfree : ¬(s.slot h).isFree = true := fun c => hs (Slot.isFree_iff.1 c)
  simp [withEngine, hf, hfree, Nat.not_le.2 hh, he]

theorem withFreeSlot_cases (s : State) (k : Nat → Answer) :
    (s.freeSlot = none ∧ withFreeSlot s k = raiseError .alloc s) ∨
      ∃ h, s.freeSlot = some h ∧ withFreeSlot s k = k h := by
  cases h : s.freeSlot with
  | none => exact .inl ⟨rfl, by simp [withFreeSlot, h]⟩
  | some g => exact .inr ⟨g, rfl, by simp [withFreeSlot, h]⟩

/-- The latch of FATAL is the only difference between `raise Error` and a completion (R311, R186). -/
theorem State.raised_eq_complete {s : State} {c : Code} (hc : c ≠ .a0Zero) : s.raised c = s.complete c := by
  simp [State.raised, State.complete, hc]

/-! ## The outcomes of each command -/

/-- A command ends in an error at `s` that latches nothing (so not FAULT_A0_ZERO), or it does `P`. -/
def EndsOr (s : State) (P : Answer → Prop) (r : Answer) : Prop :=
  (∃ c, (c ≠ .ok ∧ c ≠ .a0Zero) ∧ r = raiseError c s) ∨ P r

theorem execFirInit_cases (s : State) :
    EndsOr s (fun r => ∃ h, s.freeSlot = some h ∧
      r = finishInit h (.fir (FirState.fresh (i64 s.operands.arg0).toNat
        (s.readWords (u64 s.operands.arg1) (i64 s.operands.arg0).toNat)))
        (s.noteReads (u64 s.operands.arg1) (i64 s.operands.arg0).toNat) ∧
      0 < i64 s.operands.arg0 ∧ (i64 s.operands.arg0).toNat ≤ s.params.nMax) (execFirInit s) := by
  simp only [execFirInit, guardFatal]
  split
  · exact .inl ⟨.fatal, by simp, rfl⟩
  · split
    · exact .inl ⟨.invalidLength, by simp, rfl⟩
    · split
      · exact .inl ⟨.addr, by simp, rfl⟩
      · split
        · exact .inl ⟨.alloc, by simp, rfl⟩
        · rcases withFreeSlot_cases s (fun h => finishInit h (.fir (FirState.fresh (i64 s.operands.arg0).toNat
            (s.readWords (u64 s.operands.arg1) (i64 s.operands.arg0).toNat)))
            (s.noteReads (u64 s.operands.arg1) (i64 s.operands.arg0).toNat)) with ⟨_, h⟩ | ⟨h, hs, hr⟩
          · exact .inl ⟨.alloc, by simp, h⟩
          · exact .inr ⟨h, hs, hr, by omega, by omega⟩

theorem execFirProcess_cases (h : Nat) (s : State) :
    EndsOr s (fun r => ∃ f, s.slot h = .fir f ∧
      r = finishProcess h (.fir (f.push (f64 s.operands.arg0)))
        (F64.settle s.draws (f.push (f64 s.operands.arg0)).output) 1 s) (execFirProcess h s) := by
  rcases withEngine_cases Slot.asFir h s _ with ⟨c, hc, hr⟩ | ⟨_, _, _, f, hf, hr⟩
  · exact .inl ⟨c, by rcases hc with rfl | rfl | rfl <;> simp, hr⟩
  · exact .inr ⟨f, Slot.asFir_eq_some.1 hf, hr⟩

theorem execFirRelease_cases (h : Nat) (s : State) :
    EndsOr s (fun r => (∃ f, s.slot h = .fir f) ∧ r = finishRelease h s) (execFirRelease h s) := by
  rcases withEngine_cases Slot.asFir h s _ with ⟨c, hc, hr⟩ | ⟨_, _, _, f, hf, hr⟩
  · exact .inl ⟨c, by rcases hc with rfl | rfl | rfl <;> simp, hr⟩
  · exact .inr ⟨⟨f, Slot.asFir_eq_some.1 hf⟩, hr⟩

theorem execIirInit_cases (s : State) :
    EndsOr s (fun r => ∃ h, s.freeSlot = some h ∧
      (let o := iirInitOperands s.operands
       let s1 := s.noteReads o.bAddr o.bLen.toNat
       r = finishInit h (.iir (IirState.fresh (o.bLen.toNat / 3) (s.readWords o.bAddr o.bLen.toNat)
         (s1.readWords o.aAddr o.aLen.toNat))) (s1.noteReads o.aAddr o.aLen.toNat) ∧
       1 ≤ o.bLen.toNat / 3 ∧ o.bLen.toNat / 3 ≤ s.params.sMax)) (execIirInit s) := by
  simp only [execIirInit, guardFatal]
  split
  · exact .inl ⟨.fatal, by simp, rfl⟩
  · split
    · exact .inl ⟨.invalidLength, by simp, rfl⟩
    · split
      · exact .inl ⟨.invalidLength, by simp, rfl⟩
      · split
        · exact .inl ⟨.addr, by simp, rfl⟩
        · split
          · exact .inl ⟨.alloc, by simp, rfl⟩
          · rcases withFreeSlot_cases s (fun h =>
              finishInit h (.iir (IirState.fresh ((iirInitOperands s.operands).bLen.toNat / 3)
                (s.readWords (iirInitOperands s.operands).bAddr (iirInitOperands s.operands).bLen.toNat)
                ((s.noteReads (iirInitOperands s.operands).bAddr (iirInitOperands s.operands).bLen.toNat).readWords
                  (iirInitOperands s.operands).aAddr (iirInitOperands s.operands).aLen.toNat)))
                ((s.noteReads (iirInitOperands s.operands).bAddr (iirInitOperands s.operands).bLen.toNat).noteReads
                  (iirInitOperands s.operands).aAddr (iirInitOperands s.operands).aLen.toNat)) with
              ⟨_, h⟩ | ⟨h, hs, hr⟩
            · exact .inl ⟨.alloc, by simp, h⟩
            · exact .inr ⟨h, hs, hr, by omega, by omega⟩

theorem execIirSetSection_cases (h : Nat) (s : State) :
    EndsOr s (fun r => ∃ q, s.slot h = .iir q ∧ 0 ≤ i64 s.operands.arg0 ∧ i64 s.operands.arg0 < q.s ∧
      r = completeOk (s.setSlot h (.iir { q with sec := q.sec.modify (i64 s.operands.arg0).toNat (fun t =>
        t.withCoefficients (f64 s.operands.arg1) (f64 s.operands.arg2) (f64 s.operands.arg3) (f64 s.operands.arg4)
          (f64 s.operands.arg5) (f64 s.operands.arg6)) }))) (execIirSetSection h s) := by
  rcases withEngine_cases Slot.asIir h s _ with ⟨c, hc, hr⟩ | ⟨_, _, _, q, hq, hr⟩
  · exact .inl ⟨c, by rcases hc with rfl | rfl | rfl <;> simp, hr⟩
  · rw [execIirSetSection, hr]
    dsimp only
    split
    · exact .inl ⟨.invalidParam, by simp, rfl⟩
    · exact .inr ⟨q, Slot.asIir_eq_some.1 hq, by omega, by omega, rfl⟩

/-- IIR_PROCESS alone can end in FAULT_A0_ZERO. -/
theorem execIirProcess_cases (h : Nat) (s : State) :
    EndsOr s (fun r => ∃ q, s.slot h = .iir q ∧
      ((q.hasZeroA0 = true ∧ r = raiseError .a0Zero s) ∨
        (q.hasZeroA0 = false ∧
          r = finishProcess h (.iir { q with sec := (cascade s.draws q.sec (f64 s.operands.arg0)).1 })
            (cascade s.draws q.sec (f64 s.operands.arg0)).2 q.sec.length s))) (execIirProcess h s) := by
  rcases withEngine_cases Slot.asIir h s _ with ⟨c, hc, hr⟩ | ⟨_, _, _, q, hq, hr⟩
  · exact .inl ⟨c, by rcases hc with rfl | rfl | rfl <;> simp, hr⟩
  · rw [execIirProcess, hr]
    dsimp only
    split
    · next h0 => exact .inr ⟨q, Slot.asIir_eq_some.1 hq, .inl ⟨h0, rfl⟩⟩
    · next h0 => exact .inr ⟨q, Slot.asIir_eq_some.1 hq, .inr ⟨by simpa using h0, rfl⟩⟩

theorem execIirRelease_cases (h : Nat) (s : State) :
    EndsOr s (fun r => (∃ q, s.slot h = .iir q) ∧ r = finishRelease h s) (execIirRelease h s) := by
  rcases withEngine_cases Slot.asIir h s _ with ⟨c, hc, hr⟩ | ⟨_, _, _, q, hq, hr⟩
  · exact .inl ⟨c, by rcases hc with rfl | rfl | rfl <;> simp, hr⟩
  · exact .inr ⟨⟨q, Slot.asIir_eq_some.1 hq⟩, hr⟩

theorem execLmsInit_cases (s : State) :
    EndsOr s (fun r => ∃ h, s.freeSlot = some h ∧
      r = finishInit h (.lms (LmsState.fresh (i64 s.operands.arg0).toNat (f64 s.operands.arg1))) s ∧
      0 < i64 s.operands.arg0 ∧ (i64 s.operands.arg0).toNat ≤ s.params.nMax ∧
      F64.lt F64.zero (f64 s.operands.arg1) = true ∧ F64.isFinite (f64 s.operands.arg1) = true) (execLmsInit s) := by
  simp only [execLmsInit, guardFatal]
  split
  · exact .inl ⟨.fatal, by simp, rfl⟩
  · split
    · exact .inl ⟨.invalidLength, by simp, rfl⟩
    · split
      · exact .inl ⟨.invalidParam, by simp, rfl⟩
      · next hp =>
        split
        · exact .inl ⟨.alloc, by simp, rfl⟩
        · rcases withFreeSlot_cases s (fun h => finishInit h (.lms
            (LmsState.fresh (i64 s.operands.arg0).toNat (f64 s.operands.arg1))) s) with ⟨_, h⟩ | ⟨h, hs, hr⟩
          · exact .inl ⟨.alloc, by simp, h⟩
          · exact .inr ⟨h, hs, hr, by omega, by omega, by simp_all, by simp_all⟩

theorem execLmsProcess_cases (h : Nat) (s : State) :
    EndsOr s (fun r => ∃ l, s.slot h = .lms l ∧
      r = finishProcess h (.lms (l.sample s.draws (f64 s.operands.arg0) (f64 s.operands.arg1)).1)
        (l.sample s.draws (f64 s.operands.arg0) (f64 s.operands.arg1)).2 (1 + l.n) s) (execLmsProcess h s) := by
  rcases withEngine_cases Slot.asLms h s _ with ⟨c, hc, hr⟩ | ⟨_, _, _, l, hl, hr⟩
  · exact .inl ⟨c, by rcases hc with rfl | rfl | rfl <;> simp, hr⟩
  · exact .inr ⟨l, Slot.asLms_eq_some.1 hl, hr⟩

theorem execLmsRelease_cases (h : Nat) (s : State) :
    EndsOr s (fun r => (∃ l, s.slot h = .lms l) ∧ r = finishRelease h s) (execLmsRelease h s) := by
  rcases withEngine_cases Slot.asLms h s _ with ⟨c, hc, hr⟩ | ⟨_, _, _, l, hl, hr⟩
  · exact .inl ⟨c, by rcases hc with rfl | rfl | rfl <;> simp, hr⟩
  · exact .inr ⟨⟨l, Slot.asLms_eq_some.1 hl⟩, hr⟩

theorem execRlsInit_cases (s : State) :
    EndsOr s (fun r => ∃ h, s.freeSlot = some h ∧
      r = finishInit h (.rls (RlsState.fresh (i64 s.operands.arg0).toNat (f64 s.operands.arg1)
        (f64 s.operands.arg2))) s ∧
      0 < i64 s.operands.arg0 ∧ (i64 s.operands.arg0).toNat ≤ s.params.nMax ∧
      F64.lt F64.zero (f64 s.operands.arg1) = true ∧ F64.le (f64 s.operands.arg1) F64.one = true ∧
      F64.lt F64.zero (f64 s.operands.arg2) = true ∧ F64.isFinite (f64 s.operands.arg2) = true) (execRlsInit s) := by
  simp only [execRlsInit, guardFatal]
  split
  · exact .inl ⟨.fatal, by simp, rfl⟩
  · split
    · exact .inl ⟨.invalidLength, by simp, rfl⟩
    · split
      · exact .inl ⟨.invalidParam, by simp, rfl⟩
      · split
        · exact .inl ⟨.invalidParam, by simp, rfl⟩
        · split
          · exact .inl ⟨.alloc, by simp, rfl⟩
          · rcases withFreeSlot_cases s (fun h => finishInit h (.rls (RlsState.fresh (i64 s.operands.arg0).toNat
              (f64 s.operands.arg1) (f64 s.operands.arg2))) s) with ⟨_, h⟩ | ⟨h, hs, hr⟩
            · exact .inl ⟨.alloc, by simp, h⟩
            · exact .inr ⟨h, hs, hr, by omega, by omega, by simp_all, by simp_all, by simp_all, by simp_all⟩

theorem execRlsProcess_cases (h : Nat) (s : State) :
    EndsOr s (fun r => ∃ t, s.slot h = .rls t ∧
      r = finishProcess h (.rls (t.sample s.draws (f64 s.operands.arg0) (f64 s.operands.arg1)).1)
        (t.sample s.draws (f64 s.operands.arg0) (f64 s.operands.arg1)).2 (1 + t.n + t.n * t.n) s)
      (execRlsProcess h s) := by
  rcases withEngine_cases Slot.asRls h s _ with ⟨c, hc, hr⟩ | ⟨_, _, _, t, ht, hr⟩
  · exact .inl ⟨c, by rcases hc with rfl | rfl | rfl <;> simp, hr⟩
  · exact .inr ⟨t, Slot.asRls_eq_some.1 ht, hr⟩

theorem execRlsRelease_cases (h : Nat) (s : State) :
    EndsOr s (fun r => (∃ t, s.slot h = .rls t) ∧ r = finishRelease h s) (execRlsRelease h s) := by
  rcases withEngine_cases Slot.asRls h s _ with ⟨c, hc, hr⟩ | ⟨_, _, _, t, ht, hr⟩
  · exact .inl ⟨c, by rcases hc with rfl | rfl | rfl <;> simp, hr⟩
  · exact .inr ⟨⟨t, Slot.asRls_eq_some.1 ht⟩, hr⟩

/-- The end of a QPSK_MODULATE that passes every check, from the state the bit reads leave (R263). -/
def modulateDone (s : State) : State :=
  let o := modulateOperands s.operands
  let len := o.numBits.toNat / 2 * o.sps.toNat
  let s1 := s.noteReads o.bitsAddr o.numBits.toNat
  let out := F64.settleAll s1.draws (complexWords (modulated trig (s.readWords o.bitsAddr o.numBits.toNat)
    o.sps.toNat len (phaseInc o.fc o.fs)))
  { s1.writeWords o.outAddr out with
    res0 := zext64 len, status := s1.status.noteResults out, draws := s1.draws + 2 * len }

theorem execQpskModulate_cases (s : State) :
    EndsOr s (fun r =>
      let o := modulateOperands s.operands
      s.inRange o.bitsAddr o.numBits.toNat = true ∧
      s.inRange o.outAddr (2 * (o.numBits.toNat / 2 * o.sps.toNat)) = true ∧
      (r = raiseError .invalidParam (s.noteReads o.bitsAddr o.numBits.toNat) ∨ r = completeOk (modulateDone s)))
      (execQpskModulate s) := by
  simp only [execQpskModulate, guardFatal]
  split
  · exact .inl ⟨.fatal, by simp, rfl⟩
  · split
    · exact .inl ⟨.invalidLength, by simp, rfl⟩
    · split
      · exact .inl ⟨.invalidParam, by simp, rfl⟩
      · split
        · exact .inl ⟨.invalidParam, by simp, rfl⟩
        · split
          · exact .inl ⟨.addr, by simp, rfl⟩
          · split
            · exact .inl ⟨.addr, by simp, rfl⟩
            · refine .inr ⟨by simp_all, by simp_all, ?_⟩
              split
              · exact .inl rfl
              · exact .inr rfl

/-- The end of a QPSK_DEMODULATE that passes every check (R280). -/
def demodulateDone (s : State) : State :=
  let o := demodulateOperands s.operands
  let skip := clampedDelay o.length o.delay
  let len := o.length.toNat - skip
  let m := ceilDiv len o.sps.toNat
  let smp := complexOfWords (s.readWords (o.inAddr + 2 * skip) (2 * len))
  let s1 := s.noteReads (o.inAddr + 2 * skip) (2 * len)
  let ds := decisions trig (baseband trig smp (phaseInc o.fc o.fs)) o.sps.toNat len s1.draws m
  let cons := complexWords (ds.map (fun d => d.point))
  let s2 := (s1.writeWords o.bitsAddr (bitWords ds)).writeWords o.consAddr cons
  { s2 with
    res0 := zext64 (2 * m)
    res1 := zext64 m
    status := { s2.status.noteResults cons with emptyWin := s2.status.emptyWin || ds.any (fun d => d.empty) }
    draws := s2.draws + 2 * m }

theorem execQpskDemodulate_cases (s : State) :
    EndsOr s (fun r =>
      let o := demodulateOperands s.operands
      let m := ceilDiv (o.length.toNat - clampedDelay o.length o.delay) o.sps.toNat
      s.inRange o.bitsAddr (2 * m) = true ∧ s.inRange o.consAddr (2 * m) = true ∧
      r = completeOk (demodulateDone s)) (execQpskDemodulate s) := by
  simp only [execQpskDemodulate, guardFatal]
  split
  · exact .inl ⟨.fatal, by simp, rfl⟩
  · split
    · exact .inl ⟨.invalidLength, by simp, rfl⟩
    · split
      · exact .inl ⟨.invalidParam, by simp, rfl⟩
      · split
        · exact .inl ⟨.invalidParam, by simp, rfl⟩
        · split
          · exact .inl ⟨.invalidParam, by simp, rfl⟩
          · split
            · exact .inl ⟨.addr, by simp, rfl⟩
            · split
              · exact .inl ⟨.addr, by simp, rfl⟩
              · exact .inr ⟨by simp_all, by simp_all, rfl⟩

end Sys2Proof.Machine
end

