-- ==== Sys2Proof/Laws/Float.lean ====
section
/-! SUPPORT. The laws of stored results and of the arithmetic that later proofs cite. -/

namespace Sys2Proof.Machine

/-- A drawn NaN is a quiet NaN, whatever is drawn (R18). -/
theorem F64.mag_nanResult (k : Nat) : 0x7FF8000000000000 ≤ F64.mag (F64.nanResult k) := by
  rw [F64.mag, F64.nanResult, BitVec.toNat_or, Nat.or_mod_two_pow]
  exact Nat.right_le_or

@[simp] theorem F64.isNaN_nanResult (k : Nat) : F64.isNaN (F64.nanResult k) = true := by
  have := F64.mag_nanResult k
  exact decide_eq_true (show 0x7FF0000000000000 < _ by omega)

@[simp] theorem F64.settle_of_not_nan {x : F64} (h : F64.isNaN x = false) (k : Nat) : F64.settle k x = x := by
  simp [F64.settle, h]

@[simp] theorem F64.settle_of_nan {x : F64} (h : F64.isNaN x = true) (k : Nat) : F64.settle k x = F64.nanResult k := by
  simp [F64.settle, h]

/-- Storing a result does not change whether it is a NaN. -/
@[simp] theorem F64.isNaN_settle (k : Nat) (x : F64) : F64.isNaN (F64.settle k x) = F64.isNaN x := by
  cases h : F64.isNaN x <;> simp [h]

@[simp] theorem F64.length_settleAll (k : Nat) (xs : List F64) : (F64.settleAll k xs).length = xs.length := by
  induction xs generalizing k with
  | nil => rfl
  | cons x xs ih => simp [F64.settleAll, ih]

/-- The i-th stored result is stored at draw k + i. -/
theorem F64.getElem_settleAll (k : Nat) (xs : List F64) (i : Nat) (h : i < xs.length) :
    (F64.settleAll k xs)[i]'(by simpa using h) = F64.settle (k + i) xs[i] := by
  induction xs generalizing k i with
  | nil => simp at h
  | cons x xs ih =>
    cases i with
    | zero => rfl
    | succ i =>
      simp only [F64.settleAll, List.getElem_cons_succ]
      rw [ih (k + 1) i (by simpa using h)]
      congr 1
      omega

/-- Multiplication is commutative (10_state R49, G9). -/
theorem F64.mul_comm (x y : F64) : F64.mul x y = F64.mul y x := by
  have hs : (F64.sign x != F64.sign y) = (F64.sign y != F64.sign x) := by
    cases F64.sign x <;> cases F64.sign y <;> rfl
  simp only [F64.mul, hs, Bool.or_comm (F64.isNaN x), Bool.or_comm (F64.isInf x), Bool.or_comm (F64.isZero x),
    Nat.mul_comm (F64.units x)]

end Sys2Proof.Machine
end

