-- ==== Sys2Proof/Laws/Modem.lean ====
section
/-! SUPPORT. The rows the modem commands build: how long they are, and what stands where (R262, R263, R280, R291). -/

namespace Sys2Proof.Machine

@[simp] theorem length_phases (inc : F64) (n : Nat) (t : F64) : (phases inc n t).length = n := by
  induction n generalizing t with
  | zero => rfl
  | succ n ih => simp [phases, ih]

/-- Sample n uses the phase advanced n times (R262). -/
theorem getElem_phases (inc : F64) (n : Nat) (t : F64) (i : Nat) (h : i < n) :
    (phases inc n t)[i]'(by simpa using h) = (phaseStep inc)^[i] t := by
  induction n generalizing t i with
  | zero => omega
  | succ n ih =>
    cases i with
    | zero => rfl
    | succ i => simp only [phases, List.getElem_cons_succ, Function.iterate_succ_apply, ih _ i (by omega)]

@[simp] theorem length_complexWords (ps : List (F64 × F64)) : (complexWords ps).length = 2 * ps.length := by
  induction ps with
  | nil => rfl
  | cons p ps ih => simp only [complexWords, List.length_cons, ih]; omega

/-- Element i of a complex array is at words 2i (re) and 2i + 1 (im) of its row (R43). -/
theorem getElem_complexWords (ps : List (F64 × F64)) (i : Nat) (h : i < ps.length) :
    (complexWords ps)[2 * i]? = some ps[i].1 ∧ (complexWords ps)[2 * i + 1]? = some ps[i].2 := by
  induction ps generalizing i with
  | nil => simp at h
  | cons p ps ih =>
    cases i with
    | zero => exact ⟨rfl, rfl⟩
    | succ i => simpa [complexWords, Nat.mul_add] using ih i (by simpa using h)

@[simp] theorem length_bitWords (ds : List Decision) : (bitWords ds).length = 2 * ds.length := by
  induction ds with
  | nil => rfl
  | cons d ds ih => simp only [bitWords, List.length_cons, ih]; omega

/-- Symbol i's bits are at words 2i (b0) and 2i + 1 (b1) of their row (R291). -/
theorem getElem_bitWords (ds : List Decision) (i : Nat) (h : i < ds.length) :
    (bitWords ds)[2 * i]? = some (bitWord ds[i].dibit.1) ∧ (bitWords ds)[2 * i + 1]? = some (bitWord ds[i].dibit.2) := by
  induction ds generalizing i with
  | nil => simp at h
  | cons d ds ih =>
    cases i with
    | zero => exact ⟨rfl, rfl⟩
    | succ i => simpa [bitWords, Nat.mul_add] using ih i (by simpa using h)

@[simp] theorem length_modulated (T : Trig) (bits : List Word) (sps len : Nat) (inc : F64) :
    (modulated T bits sps len inc).length = len := by
  simp [modulated]

@[simp] theorem length_decisions (T : Trig) (bb : List (F64 × F64)) (sps len k m : Nat) :
    (decisions T bb sps len k m).length = m := by
  simp [decisions]

/-- 2n words read as n complex samples (R43). -/
theorem complexOfWords_readWords (s : State) (a n : Nat) :
    (complexOfWords (s.readWords a (2 * n))).length = n := by
  have h : ∀ (n : Nat) (ws : List Word), ws.length = 2 * n → (complexOfWords ws).length = n := by
    intro n
    induction n with
    | zero =>
      intro ws hl
      obtain rfl : ws = [] := List.length_eq_zero_iff.1 (by omega)
      rfl
    | succ n ih =>
      intro ws hl
      match ws, hl with
      | [], hl => simp at hl
      | [_], hl => simp at hl; omega
      | a :: b :: ws, hl =>
        simp only [List.length_cons] at hl
        simp only [complexOfWords, List.length_cons, ih ws (by omega)]
  exact h n _ (by simp [State.readWords])

/-- The words a modulation writes are exactly its output array (R263). -/
theorem modulateDone_byte_outside {s : State} {x : Nat}
    (h : let o := modulateOperands s.operands
      x < 8 * o.outAddr ∨ 8 * (o.outAddr + 2 * (o.numBits.toNat / 2 * o.sps.toNat)) ≤ x) :
    Memory.byte (modulateDone s).mem x = Memory.byte s.mem x :=
  Memory.byte_putWords_outside (by simpa using h)

end Sys2Proof.Machine
end

