-- ==== Sys2Proof/Laws/PerInstr.lean ====
section
/-! SUPPORT. One family of statements per command: the word of a command lies in its row of spec/opcode_table.json, and
its HANDLE field holds its handle (30_encoding R100, R105, R111). -/

namespace Sys2Proof.Laws.MatchesItsRow

/-- match and mask of a command's row. -/
def row : Instr → Word × Word
  | .firInit => (0x0000000000000010#64, 0xFFFFFFFFFFFFFFFF#64)
  | .firProcess _ => (0x0000000000000011#64, 0xFFFFFFFFFFFF00FF#64)
  | .firRelease _ => (0x0000000000000012#64, 0xFFFFFFFFFFFF00FF#64)
  | .iirInit => (0x0000000000000020#64, 0xFFFFFFFFFFFFFFFF#64)
  | .iirSetSection _ => (0x0000000000000021#64, 0xFFFFFFFFFFFF00FF#64)
  | .iirProcess _ => (0x0000000000000022#64, 0xFFFFFFFFFFFF00FF#64)
  | .iirRelease _ => (0x0000000000000023#64, 0xFFFFFFFFFFFF00FF#64)
  | .lmsInit => (0x0000000000000030#64, 0xFFFFFFFFFFFFFFFF#64)
  | .lmsProcess _ => (0x0000000000000031#64, 0xFFFFFFFFFFFF00FF#64)
  | .lmsRelease _ => (0x0000000000000032#64, 0xFFFFFFFFFFFF00FF#64)
  | .rlsInit => (0x0000000000000040#64, 0xFFFFFFFFFFFFFFFF#64)
  | .rlsProcess _ => (0x0000000000000041#64, 0xFFFFFFFFFFFF00FF#64)
  | .rlsRelease _ => (0x0000000000000042#64, 0xFFFFFFFFFFFF00FF#64)
  | .qpskModulate => (0x0000000000000050#64, 0xFFFFFFFFFFFFFFFF#64)
  | .qpskDemodulate => (0x0000000000000060#64, 0xFFFFFFFFFFFFFFFF#64)

/-- A well-formed command's word agrees with its row on the mask's bits, and carries its handle in bits 15:8. -/
def Statement (i : Instr) : Prop :=
  WellFormed i → encode i &&& (row i).2 = (row i).1 ∧ handleField (encode i) = i.handle.getD 0

/-- A number built from a handle and an opcode, as three fields. -/
theorem word_append (h op : Nat) (ho : op < 256) :
    BitVec.ofNat 64 (h % 2 ^ 8 * 2 ^ 8 + op) = 0#48 ++ BitVec.ofNat 8 h ++ BitVec.ofNat 8 op := by
  apply BitVec.eq_of_toNat_eq
  simp only [BitVec.toNat_append, BitVec.toNat_ofNat]
  rw [← Nat.shiftLeft_add_eq_or_of_lt (by omega), ← Nat.shiftLeft_add_eq_or_of_lt (by omega)]
  simp only [Nat.shiftLeft_eq]
  omega

/-- The mask of a command with a handle clears the middle field. -/
theorem append_and_mask (v o : BitVec 8) :
    (0#48 ++ v ++ o) &&& 0xFFFFFFFFFFFF00FF#64 = 0#48 ++ 0#8 ++ o := by
  rw [show 0xFFFFFFFFFFFF00FF#64 = 0xFFFFFFFFFFFF#48 ++ 0x00#8 ++ 0xFF#8 from rfl, BitVec.and_append,
    BitVec.and_append]
  congr 1
  · simp
  · exact BitVec.and_allOnes

/-- The HANDLE field and the row of a word built from a handle and an opcode. -/
theorem word_fields (h op : Nat) (hh : h < 256) (ho : op < 256) :
    BitVec.ofNat 64 (h % 2 ^ 8 * 2 ^ 8 + op) &&& 0xFFFFFFFFFFFF00FF#64 = BitVec.ofNat 64 op ∧
      handleField (BitVec.ofNat 64 (h % 2 ^ 8 * 2 ^ 8 + op)) = h := by
  constructor
  · rw [word_append h op ho, append_and_mask]
    simpa using (word_append 0 op ho).symm
  · simp only [handleField, BitVec.toNat_ofNat]
    omega

/-- The statement for a command with a handle, from its opcode. -/
theorem of_handle {i : Instr} {h : Nat} (hi : i.handle = some h) (ho : opcodeOf i < 256)
    (hr : row i = (BitVec.ofNat 64 (opcodeOf i), 0xFFFFFFFFFFFF00FF#64)) : Statement i := by
  intro hw
  have hh : h < 256 := hw h (by simp [hi])
  simpa only [encode, commandWord, hi, Option.getD_some, hr] using word_fields h (opcodeOf i) hh ho

theorem firInit : Statement .firInit := fun _ => by decide
theorem firProcess (h : Nat) : Statement (.firProcess h) := of_handle rfl (by simp [opcodeOf]) rfl
theorem firRelease (h : Nat) : Statement (.firRelease h) := of_handle rfl (by simp [opcodeOf]) rfl
theorem iirInit : Statement .iirInit := fun _ => by decide
theorem iirSetSection (h : Nat) : Statement (.iirSetSection h) := of_handle rfl (by simp [opcodeOf]) rfl
theorem iirProcess (h : Nat) : Statement (.iirProcess h) := of_handle rfl (by simp [opcodeOf]) rfl
theorem iirRelease (h : Nat) : Statement (.iirRelease h) := of_handle rfl (by simp [opcodeOf]) rfl
theorem lmsInit : Statement .lmsInit := fun _ => by decide
theorem lmsProcess (h : Nat) : Statement (.lmsProcess h) := of_handle rfl (by simp [opcodeOf]) rfl
theorem lmsRelease (h : Nat) : Statement (.lmsRelease h) := of_handle rfl (by simp [opcodeOf]) rfl
theorem rlsInit : Statement .rlsInit := fun _ => by decide
theorem rlsProcess (h : Nat) : Statement (.rlsProcess h) := of_handle rfl (by simp [opcodeOf]) rfl
theorem rlsRelease (h : Nat) : Statement (.rlsRelease h) := of_handle rfl (by simp [opcodeOf]) rfl
theorem qpskModulate : Statement .qpskModulate := fun _ => by decide
theorem qpskDemodulate : Statement .qpskDemodulate := fun _ => by decide

end Sys2Proof.Laws.MatchesItsRow
end

