-- ==== Sys2Proof/Laws/Ring.lean ====
section
/-! SUPPORT. Sums term by term (R16), and circular buffers: what a buffer holds after its newest sample is written
(R163, R213). -/

namespace Sys2Proof.Machine

/-- Folding equal terms with any operation gives equal results. -/
theorem foldl_congr {α : Type} (op : α → α → α) {f g : Nat → α} (l : List Nat) (a : α) (h : ∀ i ∈ l, f i = g i) :
    l.foldl (fun acc i => op acc (f i)) a = l.foldl (fun acc i => op acc (g i)) a := by
  induction l generalizing a with
  | nil => rfl
  | cons i l ih =>
    simp only [List.foldl_cons]
    rw [h i (by simp), ih _ fun j hj => h j (by simp [hj])]

/-- Equal terms give equal sums. -/
theorem F64.sum_congr {n : Nat} {f g : Nat → F64} (h : ∀ i < n, f i = g i) : F64.sum n f = F64.sum n g :=
  foldl_congr F64.add _ _ fun i hi => h i (by simpa using hi)

theorem ringIndex_lt {n : Nat} (hn : 0 < n) (a : Int) : ringIndex a n < n := by
  have h0 := Int.emod_nonneg a (show (n : Int) ≠ 0 by omega)
  have h1 := Int.emod_lt_of_pos a (show (0 : Int) < n by omega)
  simp only [ringIndex]
  omega

/-- Advancing the cursor does not change which sample is how old. -/
theorem ringIndex_advance {n pos : Nat} (i : Int) :
    ringIndex (((pos + 1) % n : Nat) - 1 - i) n = ringIndex ((pos : Int) - i) n := by
  simp only [ringIndex]
  congr 1
  rw [Int.natCast_emod, sub_sub, Int.emod_sub_emod]
  congr 1
  push_cast
  ring

/-- The samples of a buffer whose cursor stands on the newest, just written: x, then what it held (R211). -/
theorem tapAt_set {buf u : List F64} {pos n : Nat} {x : F64} (hl : buf.length = n) (hp : pos < n)
    (h : ringHolds buf pos n u) {i : Nat} (hi : i < n) :
    tapAt (buf.set pos x) pos n i = (x :: u).getD i F64.zero := by
  simp only [tapAt]
  cases i with
  | zero =>
    have h0 : ringIndex ((pos : Int) - ((0 : Nat) : Int)) n = pos := by
      simp only [ringIndex, Nat.cast_zero, sub_zero]
      rw [Int.emod_eq_of_lt (by omega) (by omega)]
      omega
    rw [h0]
    simp [List.getD_eq_getElem?_getD, hl, hp]
  | succ i =>
    have hne : ringIndex ((pos : Int) - ((i + 1 : Nat) : Int)) n ≠ pos := by
      simp only [ringIndex]
      rcases Nat.lt_or_ge pos (i + 1) with hlt | hge
      · rw [← Int.add_emod_right, Int.emod_eq_of_lt (by omega) (by omega)]
        omega
      · rw [Int.emod_eq_of_lt (by omega) (by omega)]
        omega
    have hs : (buf.set pos x).getD (ringIndex ((pos : Int) - ((i + 1 : Nat) : Int)) n) F64.zero =
        buf.getD (ringIndex ((pos : Int) - 1 - (i : Int)) n) F64.zero := by
      have he : (pos : Int) - ((i + 1 : Nat) : Int) = (pos : Int) - 1 - (i : Int) := by push_cast; ring
      rw [he] at hne ⊢
      simp only [List.getD_eq_getElem?_getD, List.getElem?_set_ne (Ne.symm hne)]
    rw [hs, h i (by omega)]
    rfl

/-- Writing the newest sample at the cursor and advancing it (R161, R211, R231). -/
theorem ringHolds_set {buf u : List F64} {pos n : Nat} {x : F64} (hl : buf.length = n) (hp : pos < n)
    (h : ringHolds buf pos n u) : ringHolds (buf.set pos x) ((pos + 1) % n) n (x :: u) := by
  intro i hi
  rw [ringIndex_advance]
  exact tapAt_set hl hp h hi

/-- A fresh buffer holds no input. -/
theorem ringHolds_fresh (n : Nat) : ringHolds (List.replicate n F64.zero) 0 n [] := by
  intro i hi
  simp [List.getD_eq_getElem?_getD]

/-- What a stored result may be: itself, or a quiet NaN. -/
theorem F64.stores_settle (k : Nat) (v : F64) : F64.Stores v (F64.settle k v) := by
  cases h : F64.isNaN v with
  | false => simp [F64.Stores, h]
  | true => simpa [F64.Stores, h] using F64.mag_nanResult k

/-- The i-th of a row of stored results. -/
theorem F64.stores_settleAll (k : Nat) (xs : List F64) (i : Nat) (h : i < xs.length) (d : F64) :
    F64.Stores xs[i] ((F64.settleAll k xs).getD i d) := by
  have hl : i < (F64.settleAll k xs).length := by simpa using h
  rw [List.getD_eq_getElem?_getD, List.getElem?_eq_getElem hl, Option.getD_some, F64.getElem_settleAll k xs i h]
  exact F64.stores_settle _ _

end Sys2Proof.Machine
end

