-- ==== Sys2Proof/Laws/Step.lean ====
section
/-! SUPPORT. What the core's turn, a host access and the reset input do, once each; and that every operation on the state's
memory keeps the canonical form. -/

namespace Sys2Proof.Machine

/-! ## Whose turn it is -/

/-- At the core's turn the step is the core's. -/
theorem step_eq_coreTurn {s s0 : State} (h : s.coreStarts s0) : step s = coreTurn s0 := by
  rcases h with ⟨h, rfl⟩ | ⟨r, h, rfl⟩ | ⟨r, h, hb, rfl⟩
  · simp only [step, nextStep, h]
  · simp only [step, nextStep, h, runInput]
  · have hs : { s0 with inputs := Input.wait :: r } = s0 := by rw [← h]
    simp only [step, nextStep, h, runInput, waitTurn, hb, if_true, hs]

/-- The core's turn starts from the block as it was. -/
theorem State.coreStarts_same {s s0 : State} (h : s.coreStarts s0) : s0 = { s with inputs := s0.inputs } := by
  rcases h with ⟨_, rfl⟩ | ⟨_, _, rfl⟩ | ⟨_, _, _, rfl⟩ <;> rfl

/-- A pending command word that decodes is executed. -/
theorem coreTurn_of_decode {s : State} {p : Pending} {i : Instr} (hp : s.pending = some p) (hd : decode p.word = .ok i) :
    coreTurn s = exec i s := by
  simp only [coreTurn, hp, hd]

/-- An illegal pending word gets steps 1 and 2 of R133. -/
theorem coreTurn_of_illegal {s : State} {p : Pending} {e : DecodeError} (hp : s.pending = some p)
    (hd : decode p.word = .error e) : coreTurn s = illegalCommand s := by
  simp only [coreTurn, hp, hd]

/-! ## What exec can do -/

/-- The outcomes of each command in one place: an error, or what the command's own `_cases` lemma says. -/
theorem exec_error_or (i : Instr) (s : State) :
    (∃ c, c ≠ .ok ∧ exec i s = raiseError c s) ∨
      (i = .qpskModulate ∧
        exec i s = raiseError .invalidParam
          (s.noteReads (modulateOperands s.operands).bitsAddr (modulateOperands s.operands).numBits.toNat)) ∨
      ∃ t, exec i s = completeOk t := by
  have key : ∀ {P : Answer → Prop} {r : Answer}, EndsOr s P r → (P r → ∃ t, r = completeOk t) →
      (∃ c, c ≠ .ok ∧ r = raiseError c s) ∨ ∃ t, r = completeOk t := by
    rintro P r (h | h) hP
    · obtain ⟨c, hc, hr⟩ := h
      exact .inl ⟨c, hc.1, hr⟩
    · exact .inr (hP h)
  have lift : ∀ {r : Answer}, ((∃ c, c ≠ .ok ∧ r = raiseError c s) ∨ ∃ t, r = completeOk t) →
      (∃ c, c ≠ .ok ∧ r = raiseError c s) ∨
        (i = .qpskModulate ∧ r = raiseError .invalidParam
          (s.noteReads (modulateOperands s.operands).bitsAddr (modulateOperands s.operands).numBits.toNat)) ∨
        ∃ t, r = completeOk t := fun h => h.imp_right .inr
  cases i with
  | firInit => exact lift (key (execFirInit_cases s) fun ⟨_, _, hr, _⟩ => ⟨_, hr⟩)
  | firProcess h => exact lift (key (execFirProcess_cases h s) fun ⟨_, _, hr⟩ => ⟨_, hr⟩)
  | firRelease h => exact lift (key (execFirRelease_cases h s) fun ⟨_, hr⟩ => ⟨_, hr⟩)
  | iirInit => exact lift (key (execIirInit_cases s) fun ⟨_, _, hr, _⟩ => ⟨_, hr⟩)
  | iirSetSection h => exact lift (key (execIirSetSection_cases h s) fun ⟨_, _, _, _, hr⟩ => ⟨_, hr⟩)
  | iirProcess h =>
    rcases execIirProcess_cases h s with ⟨c, hc, hr⟩ | ⟨_, _, ⟨_, hr⟩ | ⟨_, hr⟩⟩
    · exact .inl ⟨c, hc.1, hr⟩
    · exact .inl ⟨.a0Zero, by simp, hr⟩
    · exact .inr (.inr ⟨_, hr⟩)
  | iirRelease h => exact lift (key (execIirRelease_cases h s) fun ⟨_, hr⟩ => ⟨_, hr⟩)
  | lmsInit => exact lift (key (execLmsInit_cases s) fun ⟨_, _, hr, _⟩ => ⟨_, hr⟩)
  | lmsProcess h => exact lift (key (execLmsProcess_cases h s) fun ⟨_, _, hr⟩ => ⟨_, hr⟩)
  | lmsRelease h => exact lift (key (execLmsRelease_cases h s) fun ⟨_, hr⟩ => ⟨_, hr⟩)
  | rlsInit => exact lift (key (execRlsInit_cases s) fun ⟨_, _, hr, _⟩ => ⟨_, hr⟩)
  | rlsProcess h => exact lift (key (execRlsProcess_cases h s) fun ⟨_, _, hr⟩ => ⟨_, hr⟩)
  | rlsRelease h => exact lift (key (execRlsRelease_cases h s) fun ⟨_, hr⟩ => ⟨_, hr⟩)
  | qpskModulate =>
    rcases execQpskModulate_cases s with ⟨c, hc, hr⟩ | ⟨_, _, hr | hr⟩
    · exact .inl ⟨c, hc.1, hr⟩
    · exact .inr (.inl ⟨rfl, hr⟩)
    · exact .inr (.inr ⟨_, hr⟩)
  | qpskDemodulate => exact lift (key (execQpskDemodulate_cases s) fun ⟨_, _, hr⟩ => ⟨_, hr⟩)

/-! ## Host accesses -/

/-- A host access is a bus error, a hazard, or the access itself at what stands there. -/
theorem hostAccess_cases (width off : Nat) (s : State) (k : Target → State) :
    (admitted s.params width off = none ∧ hostAccess width off s k = s.busError) ∨
      ∃ t, admitted s.params width off = some t ∧
        ((s.status.busy = true ∧ t.hazardous = true ∧ hostAccess width off s k = s.hazard) ∨
          ((s.status.busy = false ∨ t.hazardous = false) ∧ hostAccess width off s k = k t)) := by
  cases h : admitted s.params width off with
  | none => exact .inl ⟨rfl, by simp only [hostAccess, h]⟩
  | some t =>
    refine .inr ⟨t, rfl, ?_⟩
    cases hb : s.status.busy <;> cases ht : t.hazardous <;> simp [hostAccess, h, hb, ht]

/-- A load writes its answer and, if it is refused, a mark (R76). -/
theorem hostLoad_frame (width off : Nat) (s : State) :
    hostLoad width off s =
      { s with marks := (hostLoad width off s).marks, response := (hostLoad width off s).response } := by
  rcases hostAccess_cases width off s (fun t => { s with response := some (.data (readTarget t s)) }) with
    ⟨_, he⟩ | ⟨t, _, ⟨_, _, he⟩ | ⟨_, he⟩⟩ <;> rw [hostLoad, he] <;> rfl

/-- The answer to a load does not depend on what loads write (R76: they are idempotent). -/
theorem hostLoad_response_congr (width off : Nat) (s : State) (is : List Input) (m : Marks) (r : Option Response) :
    (hostLoad width off { s with inputs := is, marks := m, response := r }).response =
      (hostLoad width off s).response := by
  simp only [hostLoad, hostAccess]
  split
  · rfl
  · next t _ =>
    split
    · rfl
    · cases t <;> rfl

/-- Only an aligned 64-bit access is admitted (R39, R74). -/
theorem admitted_eq_some {p : Config.Params} {width off : Nat} {t : Target} (h : admitted p width off = some t) :
    width = 64 ∧ off % 8 = 0 ∧ targetAt p off = some t := by
  simp only [admitted] at h
  split at h
  · next hc => exact ⟨hc.1, hc.2, h⟩
  · cases h

/-! ## Clean entries and command words -/

theorem State.powerOn_cleanEntry (p : Config.Params) : (State.powerOn p).cleanEntry := rfl

/-- The state a reset input leaves is a clean entry if no mark is set (R350, R368). -/
theorem State.resetInput_cleanEntry {s : State} (h : s.unmarked) : s.resetInput.cleanEntry := by
  simp only [State.cleanEntry, State.resetInput, State.powerOn, h]

/-- `CMD <MNEMONIC> <h>` stores the word of the command, where HANDLE is as the command has it (R102, R111). -/
theorem Mnemonic.word_eq_encode (m : Mnemonic) (h : Nat) (hh : (m.command h).handle.getD 0 = h) :
    m.word h = encode (m.command h) := by
  simp only [Mnemonic.word, encode, hh]

/-! ## The canonical form of memory -/

theorem State.writeWords_wf {s : State} (h : Memory.wf s.mem) (a : Nat) (ws : List Word) :
    Memory.wf (s.writeWords a ws).mem := Memory.putWords_wf h a ws

theorem writeTarget_wf {s : State} (h : Memory.wf s.mem) (t : Target) (w : Word) : Memory.wf (writeTarget t w s).mem := by
  cases t with
  | dmem a => exact State.writeWords_wf h a [w]
  | cmd => simp only [writeTarget, State.writeCmd]; split <;> exact h
  | _ => exact h

theorem hostStore_wf {s : State} (h : Memory.wf s.mem) (width off : Nat) (w : Word) :
    Memory.wf (hostStore width off w s).mem := by
  rcases hostAccess_cases width off s (fun t => { writeTarget t w s with response := some .stored }) with
    ⟨_, he⟩ | ⟨t, _, ⟨_, _, he⟩ | ⟨_, he⟩⟩
  · rw [hostStore, he]; exact h
  · rw [hostStore, he]; exact h
  · rw [hostStore, he]; exact writeTarget_wf h t w

theorem State.powerOn_wf (p : Config.Params) : Memory.wf (State.powerOn p).mem := List.Pairwise.nil

theorem State.reset_wf : Memory.wf State.reset.mem := State.powerOn_wf _

theorem State.resetInput_wf (s : State) : Memory.wf s.resetInput.mem := List.Pairwise.nil

theorem modulateDone_wf {s : State} (h : Memory.wf s.mem) : Memory.wf (modulateDone s).mem := Memory.putWords_wf h _ _

theorem demodulateDone_wf {s : State} (h : Memory.wf s.mem) : Memory.wf (demodulateDone s).mem :=
  Memory.putWords_wf (Memory.putWords_wf h _ _) _ _

end Sys2Proof.Machine
end

