-- ==== Sys2Proof/Tests/Slice0.lean ====
section
/-! SUPPORT. Tests of the model on the spec's own words, operands and vectors (95_test_vectors), each about one step on a
small state. After them, for each statement with hypotheses, a state and operands that meet all of them. -/

namespace Sys2Proof.Tests

set_option Elab.async false

open Sys2Proof.Machine

/-! ## Well-formedness (30_encoding R100, R102) -/

theorem test_wellformed_takes_every_byte : WellFormed (.firProcess 0) ∧ WellFormed (.rlsRelease 255) := by
  simp [WellFormed, Instr.handle, handleFits]

theorem test_wellformed_refuses_nine_bits :
    ∀ i ∈ [Instr.firProcess 256, .firRelease 256, .iirSetSection 256, .iirProcess 256, .iirRelease 256,
      .lmsProcess 256, .lmsRelease 256, .rlsProcess 256, .rlsRelease 256], ¬WellFormed i := by
  simp [WellFormed, Instr.handle, handleFits]

/-! ## Command words (95 section 2.1) -/

theorem test_decode_fir_words :
    decode 0x0000000000000010#64 = .ok .firInit ∧ decode 0x0000000000000311#64 = .ok (.firProcess 3) ∧
      decode 0x0000000000000312#64 = .ok (.firRelease 3) ∧ decode 0x0000000000000011#64 = .ok (.firProcess 0) ∧
      decode 0x000000000000FF11#64 = .ok (.firProcess 255) := by decide

theorem test_decode_iir_words :
    decode 0x0000000000000020#64 = .ok .iirInit ∧ decode 0x0000000000000321#64 = .ok (.iirSetSection 3) ∧
      decode 0x0000000000000322#64 = .ok (.iirProcess 3) ∧ decode 0x0000000000000323#64 = .ok (.iirRelease 3) := by decide

theorem test_decode_lms_words :
    decode 0x0000000000000030#64 = .ok .lmsInit ∧ decode 0x0000000000000331#64 = .ok (.lmsProcess 3) ∧
      decode 0x0000000000000332#64 = .ok (.lmsRelease 3) := by decide

theorem test_decode_rls_words :
    decode 0x0000000000000040#64 = .ok .rlsInit ∧ decode 0x0000000000000341#64 = .ok (.rlsProcess 3) ∧
      decode 0x0000000000000342#64 = .ok (.rlsRelease 3) := by decide

theorem test_decode_qpsk_words :
    decode 0x0000000000000050#64 = .ok .qpskModulate ∧ decode 0x0000000000000060#64 = .ok .qpskDemodulate := by decide

theorem test_decode_refuses_reserved_opcodes :
    decode 0x0000000000000000#64 = .error .reservedOpcode ∧ decode 0x0000000000000013#64 = .error .reservedOpcode ∧
      decode 0x00000000000000FF#64 = .error .reservedOpcode := by decide

theorem test_decode_refuses_a_handle_where_none_is_taken :
    decode 0x0000000000000110#64 = .error .handleNotZero ∧ decode 0x0000000000000150#64 = .error .handleNotZero := by
  decide

theorem test_decode_refuses_reserved_bits :
    decode 0x0000000000010011#64 = .error .reservedBitsSet ∧
      decode 0x8000000000000011#64 = .error .reservedBitsSet := by decide

theorem test_encode_spec_examples :
    encode (.firProcess 3) = 0x0000000000000311#64 ∧ encode .qpskModulate = 0x0000000000000050#64 := by decide

theorem test_step_runs_a_placed_word :
    step (State.reset.withFetchWord 64 0x60) = exec .qpskDemodulate (State.reset.withFetchWord 64 0x60) := rfl

/-! ## Small states -/

def f0 : F64 := 0x0000000000000000#64
def fm0 : F64 := 0x8000000000000000#64
def f05 : F64 := 0x3FE0000000000000#64
def f025 : F64 := 0x3FD0000000000000#64
def f1 : F64 := 0x3FF0000000000000#64
def f2 : F64 := 0x4000000000000000#64
def f3 : F64 := 0x4008000000000000#64
def fc1000 : F64 := 0x408F400000000000#64
def fs8000 : F64 := 0x40BF400000000000#64

/-- ARG registers from a list of words. -/
def argsOf (l : List Word) : Args :=
  { arg0 := l.getD 0 0, arg1 := l.getD 1 0, arg2 := l.getD 2 0, arg3 := l.getD 3 0
    arg4 := l.getD 4 0, arg5 := l.getD 5 0, arg6 := l.getD 6 0, arg7 := l.getD 7 0 }

/-- A small block. -/
def tiny : Config.Params := { numSlots := 2, nMax := 4, sMax := 2, dmemWords := 64 }

/-- A small block after power-on with some DMEM words from address 0 written. -/
def block (ws : List Word) : State := (State.powerOn tiny).writeWords 0 ws

/-- A command accepted in s with these ARG values. -/
def issued (i : Instr) (l : List Word) (s : State) : State := { s with args := argsOf l }.accept (encode i)

/-- The state after one step. -/
def after (s : State) : State :=
  match step s with
  | .next t => t
  | .fault _ => s
  | .refused _ => s

def firF1 : FirState := { n := 2, c := [f05, f025], buf := [f0, f0], pos := 0 }
def lmsOne : LmsState := { n := 1, mu := f05, w := [f0], buf := [f0], pos := 0 }
def rlsOne : RlsState := { n := 1, lam := f1, delta := f1, w := [f1], buf := [f1], pos := 0, p := [[f05]] }

/-- A section b, a with a history. -/
def sect (b0 b1 b2 a0 a1 a2 x1 y1 : F64) : Section :=
  { b0 := b0, b1 := b1, b2 := b2, a0 := a0, a1 := a1, a2 := a2, x1 := x1, x2 := f0, y1 := y1, y2 := f0 }

def iirOf (c : Section) : IirState := { s := 1, sec := [c] }

/-- A small block with something in slot 0. -/
def holding (v : Slot) : State := (block []).setSlot 0 v

/-! ## FIR (95 sections 2.3 to 2.5) -/

/-- The example of R160. -/
theorem test_firInit_example :
    let t := after (issued .firInit [2, 0] (block [f05, f025]))
    t.slot 0 = .fir firF1 ∧ t.res0 = 0 ∧ t.status.word = 0x2 ∧ t.marks = Marks.clear := by decide +kernel

/-- Section 2.4: no wrap in the range check; section 2.3: words never written set the mark. -/
theorem test_firInit_range_and_unwritten :
    (after (issued .firInit [2, 0xFFFFFFFFFFFFFFFF] (block []))).status.word = 0x702 ∧
      (after (issued .firInit [2, 7] (block []))).marks.unwrittenRead = true := by decide +kernel

/-- F2, third sample: the order of the sum shows in the last bit. -/
theorem test_firProcess_F2 :
    let f : FirState :=
      { n := 3, c := [0x3FB999999999999A, 0x3FC999999999999A, 0x3FD3333333333333], buf := [f1, f2, f0], pos := 2 }
    let t := after (issued (.firProcess 0) [f3] (holding (.fir f)))
    t.res0 = 0x3FF0000000000000 ∧ t.slot 0 = .fir { f with buf := [f1, f2, f3], pos := 0 } := by decide +kernel

/-- F3 and F4: a sum starts at +0.0, and overflow is +∞ with NF. -/
theorem test_firProcess_F3_F4 :
    (after (issued (.firProcess 0) [fm0] (holding (.fir { n := 1, c := [f1], buf := [f0], pos := 0 })))).res0 = 0 ∧
      (let t := after (issued (.firProcess 0) [0x7FE1CCF385EBC8A0]
        (holding (.fir { n := 1, c := [f2], buf := [f3], pos := 0 })))
      t.res0 = 0x7FF0000000000000 ∧ t.status.word = 0xA) := by decide +kernel

theorem test_firRelease_twice :
    let t := after (issued (.firRelease 0) [] (holding (.fir firF1)))
    t.slot 0 = .free ∧ t.status.word = 0x2 ∧ (after (issued (.firRelease 0) [] t)).status.word = 0x502 := by
  decide +kernel

/-! ## IIR (95 sections 2.4 and 2.6) -/

/-- The example of R180. -/
theorem test_iirInit_example :
    let t := after (issued .iirInit [3, 0, 3, 3] (block [f1, f1, f0, f1, 0xBFE0000000000000, f0]))
    t.slot 0 = .iir (iirOf (sect f1 f1 f0 f1 0xBFE0000000000000 f0 f0 f0)) ∧ t.status.word = 0x2 := by decide +kernel

/-- Section 2.4: lengths. -/
theorem test_iirInit_lengths :
    ∀ a ∈ [[0, 0, 0, 0], [3, 0, 6, 0], [4, 0, 4, 0]],
      (after (issued .iirInit a (block []))).status.word = 0x102 := by decide +kernel

/-- I5: SET_SECTION keeps the history. -/
theorem test_iirSetSection_I5 :
    (after (issued (.iirSetSection 0) [0, f0, f1, f0, f1, f0, f0]
      (holding (.iir (iirOf (sect f1 f1 f0 f1 0xBFE0000000000000 f0 f1 f1)))))).slot 0 =
      .iir (iirOf (sect f0 f1 f0 f1 f0 f0 f1 f1)) := by decide +kernel

/-- Section 2.4: idx = -1 and idx = S. -/
theorem test_iirSetSection_index :
    let s := holding (.iir (iirOf (sect f1 f0 f0 f1 f0 f0 f0 f0)))
    (after (issued (.iirSetSection 0) [0xFFFFFFFFFFFFFFFF] s)).status.word = 0x202 ∧
      (after (issued (.iirSetSection 0) [1] s)).status.word = 0x202 := by decide +kernel

/-- I3, and I1's third output from the history of the second. -/
theorem test_iirProcess_I3_I1 :
    (after (issued (.iirProcess 0) [f3] (holding (.iir (iirOf (sect f1 f0 f0 f2 f0 f0 f0 f0)))))).res0 =
        0x3FF8000000000000 ∧
      (after (issued (.iirProcess 0) [f0]
        (holding (.iir (iirOf (sect f1 f1 f0 f1 0xBFE0000000000000 f0 f0 0x3FF8000000000000)))))).res0 =
        0x3FE8000000000000 := by decide +kernel

/-- Section 2.4: a0 = -0.0 is FAULT_A0_ZERO, and every later command gets ERR_FATAL. -/
theorem test_iirProcess_zero_a0 :
    let t := after (issued (.iirProcess 0) [f1] (holding (.iir (iirOf (sect f1 f0 f0 fm0 f0 f0 f0 f0)))))
    t.status.word = 0x922 ∧ t.res0 = 0 ∧ (after (issued (.iirRelease 0) [] t)).status.word = 0x822 := by decide +kernel

theorem test_iirRelease :
    (after (issued (.iirRelease 0) [] (holding (.iir (iirOf (sect f1 f0 f0 f0 f0 f0 f0 f0)))))).slot 0 = .free := by
  decide +kernel

/-! ## LMS (95 sections 2.4 and 2.7) -/

theorem test_lmsInit_mu :
    [f0, fm0, 0x7FF8000000000000, 0x7FF0000000000000].map
        (fun mu => (after (issued .lmsInit [1, mu] (block []))).status.word) = [0x202, 0x202, 0x202, 0x202] ∧
      (after (issued .lmsInit [1, 1] (block []))).slot 0 =
        .lms { n := 1, mu := 1, w := [f0], buf := [f0], pos := 0 } := by decide +kernel

/-- L3, second sample: (mu · e) is rounded before it meets the sample. -/
theorem test_lmsProcess_L3 :
    let l : LmsState :=
      { n := 2, mu := 0x3FB999999999999A, w := [0x3FA999999999999A, f0], buf := [f1, f0], pos := 1 }
    let t := after (issued (.lmsProcess 0) [f05, f025] (holding (.lms l)))
    t.res0 = 0x3F9999999999999A ∧
      t.slot 0 = .lms { l with w := [0x3FAF5C28F5C28F5D, 0x3F970A3D70A3D70B], buf := [f1, f05], pos := 0 } := by
  decide +kernel

/-- Section 2.4: LMS_RELEASE of an FIR slot. -/
theorem test_lmsRelease_kinds :
    (after (issued (.lmsRelease 0) [] (holding (.fir firF1)))).status.word = 0x602 ∧
      (after (issued (.lmsRelease 0) [] (holding (.lms lmsOne)))).slot 0 = .free := by decide +kernel

/-! ## RLS (95 sections 2.4 and 2.8) -/

theorem test_rlsInit_parameters :
    (after (issued .rlsInit [1, 0x3FF0000000000001, f1] (block []))).status.word = 0x202 ∧
      (after (issued .rlsInit [1, f1, 0xBFF0000000000000] (block []))).status.word = 0x202 := by decide +kernel

/-- A subnormal δ: 1/δ overflows, and is accepted. -/
theorem test_rlsInit_subnormal_delta :
    (after (issued .rlsInit [1, f1, 1] (block []))).slot 0 =
      .rls { n := 1, lam := f1, delta := 1, w := [f0], buf := [f0], pos := 0, p := [[0x7FF0000000000000]] } := by
  decide +kernel

/-- S1, second sample. -/
theorem test_rlsProcess_S1 :
    let t := after (issued (.rlsProcess 0) [f1, f2] (holding (.rls rlsOne)))
    t.res0 = 0x3FF0000000000000 ∧
      t.slot 0 = .rls { rlsOne with w := [0x3FF5555555555555], p := [[0x3FD5555555555556]] } := by decide +kernel

theorem test_rlsRelease :
    (after (issued (.rlsRelease 0) [] (holding (.rls rlsOne)))).slot 0 = .free := by decide +kernel

/-! ## QPSK (95 sections 2.4, 2.9 and 2.10) -/

/-- Sample 0 of dibit 10 is (+AMP, -AMP), by R260 and item I4 property 2. -/
theorem test_qpskModulate_first_sample :
    let t := after (issued .qpskModulate [0, 2, fc1000, fs8000, 1, 4] (block [1, 0]))
    t.res0 = 1 ∧ t.readWords 4 2 = [0x3FE6A09E667F3BCD, 0xBFE6A09E667F3BCD] ∧ t.status.word = 0x2 := by decide +kernel

/-- Section 2.4: the order of the checks. -/
theorem test_qpskModulate_checks :
    (after (issued .qpskModulate [0, 3, f0, fs8000, 1, 4] (block []))).status.word = 0x102 ∧
      (after (issued .qpskModulate [0, 2, fc1000, fs8000, 8, 49] (block [0, 2]))).status.word = 0x702 ∧
      (after (issued .qpskModulate [0, 2, fc1000, fs8000, 8, 48] (block [0, 2]))).status.word = 0x202 := by decide +kernel

/-- M1, sample 1, with the correctly rounded cosine and sine of 0x3FE921FB54442D18. -/
theorem test_modulated_M1_sample_1 :
    let T : Trig :=
      { cos := fun x => if x = f0 then f1 else 0x3FE6A09E667F3BCD
        sin := fun x => if x = f0 then f0 else 0x3FE6A09E667F3BCC
        atan2 := fun _ x => x }
    modulated T [0, 0] 8 2 (phaseInc fc1000 fs8000) =
      [(0x3FE6A09E667F3BCD, 0x3FE6A09E667F3BCD), (0x3CA0000000000000, 0x3FF0000000000000)] := by decide +kernel

/-- Two samples, sps = 2: the window of the one symbol is sample 0; the point (-1, +0) has angle +π, dibit 11. -/
theorem test_qpskDemodulate_pi_is_11 :
    let t := after (issued .qpskDemodulate [0, 2, fc1000, fs8000, 2, 0, 8, 10] (block [0xBFF0000000000000, f0, f0, f0]))
    t.res0 = 2 ∧ t.res1 = 1 ∧ t.readWords 8 2 = [1, 1] ∧ t.readWords 10 2 = [0xBFF0000000000000, f0] ∧
      t.status.word = 0x2 := by decide +kernel

/-- Section 2.4: a delay beyond the length is clamped; a negative one is refused. With sps = 1 every window is empty
(R286, R288). -/
theorem test_qpskDemodulate_delay_and_window :
    (after (issued .qpskDemodulate [0, 2, fc1000, fs8000, 8, 0xFFFFFFFFFFFFFFFF, 8, 10] (block []))).status.word =
        0x202 ∧
      (let t := after (issued .qpskDemodulate [0, 2, fc1000, fs8000, 1, 100, 8, 10] (block [f0, f0, f1, f1]))
      t.res1 = 1 ∧ t.status.emptyWin = true ∧ t.status.err = .ok) := by decide +kernel

/-- Sector edges of section 2.10, as angles (R289, R17). -/
theorem test_sector_edges :
    sectorOf 0x0000000000000000#64 = (false, false) ∧ sectorOf 0x8000000000000000#64 = (false, false) ∧
      sectorOf 0x3FF921FB54442D18#64 = (false, true) ∧ sectorOf 0x400921FB54442D18#64 = (true, true) ∧
      sectorOf 0xC00921FB54442D18#64 = (true, true) ∧ sectorOf 0xBFF921FB54442D18#64 = (true, false) ∧
      sectorOf 0x7FF8000000000000#64 = (true, true) := by decide +kernel

/-! ## Host accesses, STATUS and irq (95 sections 2.2 and 2.3) -/

/-- The block with one host access waiting. -/
def withInput (i : Input) (s : State) : State := { s with inputs := [i] }

def fatalStatus : State :=
  { block [] with status := { Status.reset with done := true, fatal := true, err := .a0Zero } }

/-- FATAL and ERR are read-only. -/
theorem test_status_write_all_ones :
    fatalStatus.status.word = 0x922 ∧
      (after (withInput (.store 64 0x010 0xFFFFFFFFFFFFFFFF) fatalStatus)).status.word = 0x920 := by decide +kernel

theorem test_loads :
    (after (withInput (.load 64 0x000) (block []))).response = some (.data 0x0000000146495250) ∧
      (after (withInput (.load 64 0x018) (block []))).response = some (.data 0) ∧
      (after (withInput (.load 64 (0x80000 + 8)) (block [1, 5]))).response = some (.data 5) := by decide +kernel

theorem test_bus_errors :
    ∀ i ∈ [Input.load 64 0x030, .load 64 0x080, .load 32 0x010, .load 64 0x014, .store 64 (0x80000 + 8 * 64) 1],
      after (withInput i (block [])) =
        { block [] with marks := { Marks.clear with hostBusError := true }, response := some .busError } := by
  decide +kernel

/-- R76: two loads of a DMEM word never written, with nothing between them, answer the same. -/
theorem test_unwritten_loads_agree :
    let t := after (withInput (.load 64 0x80028) (block [1]))
    t.response = some (.data (Config.unwrittenWord 0 5)) ∧
      (after (withInput (.load 64 0x80028) t)).response = t.response := ⟨rfl, rfl⟩

/-- R110, log 31: `WRD 65539, v` does not reach the CMD register. -/
theorem test_wrd_beyond_the_aperture :
    (ScriptLine.wrd 65539 0x10).inputs = [.store 64 0x100018 0x10] ∧
      after (withInput (.store 64 0x100018 0x10) (block [])) = (block []).busError := by decide +kernel

theorem test_busy_hazard_and_safe_load :
    (after (withInput (.load 64 0x040) (issued .lmsInit [] (block [])))).marks.hostHazard = true ∧
      (after (withInput (.load 64 0x010) (issued .lmsInit [] (block [])))).response = some (.data 1) ∧
      (after (withInput (.store 64 0x018 0) (issued .lmsInit [] (block [])))).status.word = 0x5 := by decide +kernel

theorem test_byte_order : (block [0x0807060504030201]).mem.map (fun c => (c.1, c.2.toNat)) =
    [(0, 1), (1, 2), (2, 3), (3, 4), (4, 5), (5, 6), (6, 7), (7, 8)] := by decide +kernel

/-- The expansion of CALL (R112). -/
theorem test_call_expansion :
    ScriptLine.inputs (.call .firProcess 3 [f1] false) =
      [.store 64 0x040 f1, .store 64 0x010 0x2, .store 64 0x018 0x311, .wait, .load 64 0x010, .load 64 0x020] := by
  decide

/-- R111's examples, and a handle on a mnemonic that takes none: the word 0x110, which is illegal (R104). -/
theorem test_cmd_lines :
    (ScriptLine.cmd .firProcess 3).inputs = [.store 64 0x018 0x311] ∧
      (ScriptLine.cmd .qpskModulate 0).inputs = [.store 64 0x018 0x50] ∧
      (ScriptLine.cmd .firInit 1).inputs = [.store 64 0x018 0x110] ∧
      (after ((block []).accept 0x110)).status.word = 0x402 := by decide +kernel

/-- Log 33: the ninth value of a CALL reaches no register. -/
theorem test_call_with_nine_values :
    (storeArgs 0 [0, 1, 2, 3, 4, 5, 6, 7, 8]).drop 7 = [.store 64 0x078 7, .store 64 0x080 8] ∧
      after (withInput (.store 64 0x080 8) (block [])) = (block []).busError := by decide +kernel

/-! ## Witnesses: states and operands that meet the hypotheses of each statement -/

/-- FIR_PROCESS 0 in flight on the example filter. -/
def inFlight : State := issued (.firProcess 0) [f1] (holding (.fir firF1))

/-- A pending word that is illegal. -/
def illegalInFlight : State := (block []).accept 0x13

/-- A pending command while FATAL is latched. -/
def fatalInFlight : State := { inFlight with status := { inFlight.status with fatal := true } }

theorem witness_DecodeOfEncodeIsTheCommand : WellFormed (.iirSetSection 255) ∧ WellFormed .qpskModulate := by
  simp [WellFormed, Instr.handle, handleFits]

theorem witness_EncodeOfDecodeIsTheWord : decode 0x000000000000FF42#64 = .ok (.rlsRelease 255) := by decide

theorem witness_IllegalWordsAreExactlyThese :
    decode 0x0000000000010010#64 = .error .reservedBitsSet ∧ decode 0x000000000000FF61#64 = .error .reservedOpcode ∧
      decode 0x000000000000FF60#64 = .error .handleNotZero := by decide

/-- Each way for it to be the core's turn. -/
theorem witness_StepRunsTheDecodedCommand :
    inFlight.coreStarts inFlight ∧ { inFlight with inputs := [.coreTurn] }.coreStarts inFlight ∧
      { inFlight with inputs := [.wait] }.coreStarts { inFlight with inputs := [.wait] } ∧
      inFlight.pending = some { word := 0x11, args := argsOf [f1] } ∧ decode 0x11 = .ok (.firProcess 0) :=
  ⟨.inl ⟨rfl, rfl⟩, .inr (.inl ⟨[], rfl, rfl⟩), .inr (.inr ⟨[], rfl, rfl, rfl⟩), rfl, by decide⟩

theorem witness_IllegalCommandChangesNothingElse :
    illegalInFlight.coreStarts illegalInFlight ∧ illegalInFlight.pending = some { word := 0x13, args := Args.reset } ∧
      illegalInFlight.status.fatal = false ∧ decode 0x13 = .error .reservedOpcode :=
  ⟨.inl ⟨rfl, rfl⟩, rfl, rfl, by decide⟩

theorem witness_FatalRefusesEveryCommand :
    fatalInFlight.coreStarts fatalInFlight ∧ fatalInFlight.pending = some { word := 0x11, args := argsOf [f1] } ∧
      fatalInFlight.status.fatal = true := ⟨.inl ⟨rfl, rfl⟩, rfl, rfl⟩

theorem witness_EveryStepAnswersAndCommandsComplete :
    inFlight.coreStarts inFlight ∧ inFlight.pending.isSome = true := ⟨.inl ⟨rfl, rfl⟩, rfl⟩

theorem witness_IdleBlockKeepsAllState : (block [1]).pending = none ∧ (block [1]).inputs = [] := ⟨rfl, rfl⟩

theorem witness_CmdWriteIsAcceptedWhenIdle :
    let s := withInput (.store 64 0x018 0xFF) (block [])
    s.inputs = [.store 64 0x018 0xFF] ∧ s.status.busy = false := ⟨rfl, rfl⟩

theorem witness_CmdWriteIsDroppedWhileBusy :
    let s := withInput (.store 64 0x018 0x10) inFlight
    s.inputs = [.store 64 0x018 0x10] ∧ s.status.busy = true := ⟨rfl, rfl⟩

/-- Each reason for a bus error, at the edges of its range; a misaligned access to ARG0 while BUSY = 1 (log 11), and the
first offset beyond the aperture (log 31). -/
theorem witness_BusErrorHasNoEffect :
    (32 ≠ 64 ∧ 65 ≠ 64) ∧ 0x014 % 8 ≠ 0 ∧
      (0x030 ≤ 0x030 ∧ 0x038 < 0x040) ∧
      (0x080 ≤ 0x080 ∧ 0x7FFF8 < 0x80000) ∧
      0x80000 + 8 * tiny.dmemWords ≤ 0x80200 ∧ 0x80000 + 8 * tiny.dmemWords ≤ 0xFFFF8 ∧
      0x80000 + 8 * tiny.dmemWords ≤ 0x100000 ∧
      (0x044 % 8 ≠ 0 ∧ inFlight.status.busy = true ∧
        (withInput (.load 64 0x044) inFlight).inputs = [.load 64 0x044]) ∧
      (withInput (.store 64 0x80200 1) (block [])).inputs = [.store 64 0x80200 1] := by decide

/-- The edges of the three hazardous ranges. -/
theorem witness_BusyHazardOnlySetsItsMark :
    inFlight.status.busy = true ∧ (withInput (.load 64 0x801F8) inFlight).inputs = [.load 64 0x801F8] ∧
      (0x020 ≤ 0x020 ∧ 0x028 < 0x030) ∧
      (0x040 ≤ 0x040 ∧ 0x078 < 0x080) ∧
      (0x80000 ≤ 0x80000 ∧ 0x801F8 < 0x80000 + 8 * tiny.dmemWords) ∧
      0x801F8 % 8 = 0 := by decide

/-- An access that is refused, and a second load of an unwritten word. -/
theorem witness_LoadsHaveNoSideEffect :
    (withInput (.load 32 0x80000) inFlight).inputs = [.load 32 0x80000] ∧
      (let s : State := { block [] with inputs := [.load 64 0x80000, .load 64 0x80000] }
      ∃ t, step s = .next t ∧ t.inputs = [.load 64 0x80000] ∧
        t = { t with inputs := t.inputs, marks := t.marks, response := t.response }) := ⟨rfl, _, rfl, rfl, rfl⟩

/-- Each clause: the four registers that load at any time, with every STATUS field set; RES0 and RES1; ARG0 and ARG7. -/
theorem witness_RegisterLoadsReturnTheRegisters :
    let full : State := { inFlight with status :=
      { busy := true, done := true, ovr := true, nf := true, emptyWin := true, fatal := true, err := .a0Zero } }
    (∀ off ∈ [0x000, 0x008, 0x010, 0x018], (withInput (.load 64 off) full).inputs = [.load 64 off]) ∧
      (0x93F#64).toNat = full.status.busy.toNat + 2 * full.status.done.toNat + 4 * full.status.ovr.toNat +
        8 * full.status.nf.toNat + 16 * full.status.emptyWin.toNat + 32 * full.status.fatal.toNat + 256 * 0x09 ∧
      (block []).status.busy = false ∧
      (∀ off ∈ [0x020, 0x028, 0x040, 0x078], (withInput (.load 64 off) (block [])).inputs = [.load 64 off]) ∧
      0x040 = 0x040 + 8 * 0 ∧ 0x078 = 0x040 + 8 * 7 ∧
      (let a := argsOf [1, 2, 3, 4, 5, 6, 7, 8]
      [a.arg0, a.arg1, a.arg2, a.arg3, a.arg4, a.arg5, a.arg6, a.arg7][0]? = some 1 ∧
        [a.arg0, a.arg1, a.arg2, a.arg3, a.arg4, a.arg5, a.arg6, a.arg7][7]? = some 8) := by decide

/-- The STATUS word of 95 section 2.4's notation with every field set: bits 0 to 5, and FAULT_A0_ZERO in bits 15:8. -/
theorem test_status_load :
    let full : State := { inFlight with status :=
      { busy := true, done := true, ovr := true, nf := true, emptyWin := true, fatal := true, err := .a0Zero } }
    (after (withInput (.load 64 0x010) full)).response = some (.data 0x93F) := by decide

theorem witness_ReadOnlyRegistersIgnoreStores :
    (withInput (.store 64 0x000 5) inFlight).inputs = [.store 64 0x000 5] ∧
      (withInput (.store 64 0x020 5) (block [])).inputs = [.store 64 0x020 5] ∧
      (withInput (.store 64 0x028 5) (block [])).status.busy = false := ⟨rfl, rfl, rfl⟩

theorem witness_ArgStoreThenLoad :
    let s (k : Nat) : State :=
      { block [] with inputs := [.store 64 (0x040 + 8 * k) 9, .load 64 (0x040 + 8 * k)] }
    0 < 8 ∧ 7 < 8 ∧ (s 0).status.busy = false ∧ (s 7).status.busy = false ∧
      (s 7).inputs = [.store 64 0x078 9, .load 64 0x078] := by decide

theorem witness_DmemStoreThenLoad :
    let s : State := { block [] with inputs := [.store 64 0x801F8 9, .load 64 0x801F8] }
    63 < s.params.dmemWords ∧ s.status.busy = false ∧
      s.inputs = [.store 64 (0x80000 + 8 * 63) 9, .load 64 (0x80000 + 8 * 63)] := by
  decide

theorem witness_StatusStoreClearsOnes :
    (withInput (.store 64 0x010 0x1E) inFlight).inputs = [.store 64 0x010 0x1E] := rfl

theorem witness_CtrlStoreThenLoad :
    ({ inFlight with inputs := [.store 64 0x008 3, .load 64 0x008] } : State).inputs =
      [.store 64 0x008 3, .load 64 0x008] := rfl

/-- One state for each clause: a completion, a CTRL store, an acceptance, a DONE cleared, a reset. -/
theorem witness_IrqFollowsDoneAndEnable :
    { inFlight with ie := true }.coreStarts { inFlight with ie := true } ∧
      (∃ t, step { inFlight with ie := true } = .next t) ∧
      (∃ t, step (withInput (.store 64 0x008 1) (block [])) = .next t) ∧
      ((block []).status.busy = false ∧ ∃ t, step (withInput (.store 64 0x018 1) (block [])) = .next t) ∧
      ((0x2#64).getLsbD 1 = true ∧ ∃ t, step (withInput (.store 64 0x010 2) inFlight) = .next t) ∧
      ∃ t, step (withInput .reset inFlight) = .next t :=
  ⟨.inl ⟨rfl, rfl⟩, ⟨_, rfl⟩, ⟨_, rfl⟩, ⟨rfl, _, rfl⟩, ⟨by decide, _, rfl⟩, _, rfl⟩

/-- A reset input on a block that has run, with no mark set. -/
theorem witness_ResetStateHasTheResetValues :
    (withInput .reset inFlight).inputs = [.reset] ∧ (withInput .reset inFlight).unmarked ∧
      ∃ t, step (withInput .reset inFlight) = .next t := ⟨rfl, rfl, _, rfl⟩

theorem witness_ResetInputResetsEverything : (withInput .reset fatalInFlight).inputs = [.reset] := rfl

/-- A state in the middle of a run that meets the invariant. -/
theorem witness_StepKeepsTheInvariant :
    let s := issued (.firProcess 0) [f1] ((block [f05, f025]).setSlot 0 (.fir firF1))
    s.Inv ∧ ∃ t, step s = .next t := by
  refine ⟨⟨by decide, by decide +kernel, by decide +kernel, rfl, by decide +kernel, rfl⟩, _, rfl⟩

theorem witness_PowerOnMeetsTheInvariant : tiny.legal ∧ Config.Params.default.legal := by decide

theorem witness_MarksAreNeverCleared :
    let s : State := { withInput .reset inFlight with
      marks := { unwrittenRead := true, hostBusError := true, hostHazard := true } }
    ∃ t, step s = .next t ∧ s.marks.unwrittenRead = true ∧ s.marks.hostBusError = true ∧ s.marks.hostHazard = true ∧
      ¬s.unmarked := ⟨_, rfl, rfl, rfl, rfl, by decide⟩

/-- A run can end: the reset state is final (R369). -/
theorem test_reset_is_final : State.reset.final := by decide

theorem witness_OnlyResetClearsFatal :
    fatalInFlight.status.fatal = true ∧ (∃ t, step fatalInFlight = .next t) ∧
      ∀ rest, fatalInFlight.inputs ≠ .reset :: rest := 
  ⟨rfl, ⟨_, rfl⟩, fun _ h => nomatch (show ([] : List Input) = _ from h)⟩

/-- Two taps, P symmetric and not diagonal. -/
def rlsTwo : RlsState :=
  { n := 2, lam := f1, delta := f1, w := [f1, f0], buf := [f1, f2], pos := 1, p := [[f1, f05], [f05, f2]] }

theorem witness_StepKeepsCovarianceSymmetric :
    (∀ h r, (holding (.rls rlsTwo)).slot h = .rls r → r.symmetric) ∧
      ∃ t, step (issued (.rlsProcess 0) [f1, f2] (holding (.rls rlsTwo))) = .next t := by
  refine ⟨fun h r hr => ?_, _, rfl⟩
  match h, hr with
  | 0, hr =>
    obtain rfl : rlsTwo = r := by injection hr
    intro i j hi hj
    have hi : i < 2 := hi
    have hj : j < 2 := hj
    left
    interval_cases i <;> interval_cases j <;> rfl
  | 1, hr => exact absurd hr (by simp [holding, State.setSlot, State.slot, block, State.writeWords, State.powerOn, tiny])
  | h + 2, hr =>
    exact absurd hr (by simp [holding, State.setSlot, State.slot, block, State.writeWords, State.powerOn, tiny])

/-- A failing command of the plain kind, and QPSK_MODULATE over a word that is no bit. -/
theorem witness_FailedCommandChangesOnlyStatus :
    (∃ t, exec (.firProcess 1) inFlight = .next t ∧ t.status.err ≠ .ok) ∧
      ∃ t, exec .qpskModulate (issued .qpskModulate [0, 2, fc1000, fs8000, 1, 4] (block [2, 0])) = .next t ∧
        t.status.err ≠ .ok := ⟨⟨_, rfl, by decide⟩, _, rfl, by decide +kernel⟩

/-- A handle command, SET_SECTION, a RELEASE, an INIT and a modem command. -/
theorem witness_CommandFootprint :
    (∃ t, exec (.firProcess 0) inFlight = .next t) ∧
      (∃ t, exec (.iirSetSection 0) (issued (.iirSetSection 0) [0] (holding (.iir (iirOf (sect f1 f0 f0 f1 f0 f0 f0 f0))))) =
        .next t) ∧
      (∃ t, exec (.firRelease 0) inFlight = .next t) ∧
      (∃ t, exec .lmsInit (issued .lmsInit [1, f05] (block [])) = .next t) ∧
      ∃ t, exec .qpskModulate (issued .qpskModulate [0, 2, fc1000, fs8000, 1, 4] (block [0, 0])) = .next t :=
  ⟨⟨_, rfl⟩, ⟨_, rfl⟩, ⟨_, rfl⟩, ⟨_, rfl⟩, _, rfl⟩

theorem witness_CodesOfEachCommand : ∃ t, exec .rlsInit (block []) = .next t ∧ t.status.err = .invalidLength :=
  ⟨_, rfl, by decide⟩

theorem witness_CommandsReadTheSnapshotOnly :
    inFlight.pending = some { word := 0x11, args := argsOf [f1] } ∧ ∃ t, exec (.firProcess 0) inFlight = .next t :=
  ⟨rfl, _, rfl⟩

theorem witness_CommandsNeverClearStickyFlags :
    let s : State := { inFlight with status := { inFlight.status with nf := true, emptyWin := true, ovr := true } }
    (∃ t, exec (.firProcess 0) s = .next t) ∧ s.status.nf = true ∧ s.status.emptyWin = true ∧ s.status.ovr = true :=
  ⟨⟨_, rfl⟩, rfl, rfl, rfl⟩

/-- Handle NUM_SLOTS, and a FREE slot. -/
theorem witness_BadHandleIsRefused :
    (Instr.rlsProcess 2).handle = some 2 ∧ inFlight.params.numSlots ≤ 2 ∧ (Instr.firRelease 1).handle = some 1 ∧
      inFlight.slot 1 = .free ∧ inFlight.status.fatal = false := by decide

/-- The clauses of the other three kinds on an FIR slot, and the FIR clause on an LMS slot. -/
theorem witness_WrongKindIsRefused :
    inFlight.status.fatal = false ∧ 0 < inFlight.params.numSlots ∧ inFlight.slot 0 ≠ .free ∧
      (∀ q, inFlight.slot 0 ≠ .iir q) ∧ (∀ l, inFlight.slot 0 ≠ .lms l) ∧ (∀ r, inFlight.slot 0 ≠ .rls r) ∧
      ∀ f, (holding (.lms lmsOne)).slot 0 ≠ .fir f :=
  ⟨rfl, by decide, by decide, fun _ h => (nomatch (show Slot.fir firF1 = _ from h)),
    fun _ h => (nomatch (show Slot.fir firF1 = _ from h)), fun _ h => (nomatch (show Slot.fir firF1 = _ from h)),
    fun _ h => (nomatch (show Slot.lms lmsOne = _ from h))⟩

theorem witness_ReleaseFreesTheSlot :
    (holding (.fir firF1)).slot 0 = .fir firF1 ∧ (holding (.lms lmsOne)).slot 0 = .lms lmsOne ∧
      (holding (.rls rlsOne)).slot 0 = .rls rlsOne ∧
      (holding (.iir (iirOf (sect f1 f0 f0 f1 f0 f0 f0 f0)))).slot 0 = .iir (iirOf (sect f1 f0 f0 f1 f0 f0 f0 f0)) ∧
      0 < (holding (.fir firF1)).params.numSlots ∧ (holding (.fir firF1)).status.fatal = false := by decide

/-- Two states that differ in another slot, in DMEM, in RES and in a flag. -/
theorem witness_HandleCommandsSeeOnlyTheirSlot :
    let s' : State := { inFlight.setSlot 1 (.lms lmsOne) with
      mem := [(0, 1)], res0 := 7, status := { inFlight.status with nf := true } }
    inFlight.slot 0 = s'.slot 0 ∧ inFlight.params.numSlots = s'.params.numSlots ∧
      inFlight.status.fatal = s'.status.fatal ∧ inFlight.operands = s'.operands ∧ inFlight.draws = s'.draws ∧
      ∃ t, exec (.firProcess 0) inFlight = .next t := by
  refine ⟨by decide, rfl, rfl, rfl, rfl, _, rfl⟩

/-- FIR_INIT over one written and one unwritten coefficient; N and N_MAX meet. -/
def firInitState (n : Word) : State := issued .firInit [n, 1] ((block [f1, f05]).setSlot 0 (.lms lmsOne))

/-- The clauses of FIR_INIT and IIR_INIT, at N = N_MAX and S = S_MAX, over words of which some are written. -/
theorem witness_UnwrittenReadsAreMarked_inits :
    (let s := firInitState 4
    s.status.fatal = false ∧ 0 < i64 s.operands.arg0 ∧
      u64 s.operands.arg1 + (i64 s.operands.arg0).toNat ≤ s.params.dmemWords ∧
      (i64 s.operands.arg0).toNat ≤ s.params.nMax ∧ s.freeSlot.isSome = true ∧ s.written 1 = true ∧
      s.written 2 = false) ∧
      (let s := issued .iirInit [6, 0, 6, 58] (block [f1])
      let o := iirInitOperands s.operands
      s.status.fatal = false ∧ o.bLen = 3 * ((2 : Nat) : Int) ∧ o.aLen = 3 * ((2 : Nat) : Int) ∧
        o.bAddr + 3 * 2 ≤ s.params.dmemWords ∧ o.aAddr + 3 * 2 ≤ s.params.dmemWords ∧ 2 ≤ s.params.sMax ∧
        s.freeSlot.isSome = true ∧ s.written o.bAddr = true ∧ s.written o.aAddr = false) := by decide

/-- The clauses of the modem commands, with outputs that end at the end of DMEM; and a command that sets no mark. -/
theorem witness_UnwrittenReadsAreMarked_modem :
    (let s := issued .qpskModulate [0, 2, fc1000, fs8000, 8, 48] (block [1])
    let o := modulateOperands s.operands
    s.status.fatal = false ∧ 0 < o.numBits ∧ o.numBits % 2 = 0 ∧ F64.lt F64.zero o.fc = true ∧
      F64.isFinite o.fc = true ∧ F64.lt F64.zero o.fs = true ∧ F64.isFinite o.fs = true ∧ 0 < o.sps ∧
      o.bitsAddr + o.numBits.toNat ≤ s.params.dmemWords ∧
      o.outAddr + 2 * (o.numBits.toNat / 2 * o.sps.toNat) ≤ s.params.dmemWords ∧ s.written (o.bitsAddr + 1) = false) ∧
      (let s := issued .qpskDemodulate [0, 2, fc1000, fs8000, 2, 0, 4, 62] (block [f1, f1])
      let o := demodulateOperands s.operands
      s.status.fatal = false ∧ 0 < o.length ∧ F64.lt F64.zero o.fc = true ∧ F64.isFinite o.fc = true ∧
        F64.lt F64.zero o.fs = true ∧ F64.isFinite o.fs = true ∧ 0 < o.sps ∧ 0 ≤ o.delay ∧
        o.inAddr + 2 * o.length.toNat ≤ s.params.dmemWords ∧ (min o.delay (o.length - 1)).toNat = 0 ∧
        (2 - 0 + 2 - 1) / 2 = 1 ∧ o.bitsAddr + 2 * 1 ≤ s.params.dmemWords ∧ o.consAddr + 2 * 1 ≤ s.params.dmemWords ∧
        s.written (o.inAddr + 2 * 0 + 2) = false) ∧
      Instr.firProcess 0 ∉ [Instr.firInit, .iirInit, .qpskModulate, .qpskDemodulate] ∧
      ∃ t, exec (.firProcess 0) inFlight = .next t :=
  ⟨by decide +kernel, by decide +kernel, by decide, _, rfl⟩

theorem witness_FirInitBuildsTheFilter :
    (firInitState 2).status.fatal = false ∧ i64 (firInitState 2).operands.arg0 = 2 ∧
      u64 (firInitState 2).operands.arg1 + 2 ≤ (firInitState 2).params.dmemWords ∧ 2 ≤ (firInitState 2).params.nMax ∧
      1 < (firInitState 2).slots.length ∧ (firInitState 2).slot 1 = .free ∧
      (∀ g, g < 1 → (firInitState 2).slot g ≠ .free) ∧ Memory.word (firInitState 2).mem 1 = some f05 := by decide +kernel

/-- Each clause at the edge: N = 0; one word too many; N = N_MAX + 1, and no FREE slot. -/
theorem witness_FirInitChecks :
    i64 (firInitState 0).operands.arg0 ≤ 0 ∧
      (let s := issued .firInit [2, 63] (block [])
      0 < i64 s.operands.arg0 ∧ s.params.dmemWords < u64 s.operands.arg1 + (i64 s.operands.arg0).toNat) ∧
      (firInitState 5).params.nMax < (i64 (firInitState 5).operands.arg0).toNat ∧
      (let s := (firInitState 2).setSlot 1 (.fir firF1)
      u64 s.operands.arg1 + (i64 s.operands.arg0).toNat ≤ s.params.dmemWords ∧
        ∀ g, g < s.slots.length → s.slot g ≠ .free) := by decide +kernel

/-- The cursor at the end of the buffer, two samples held. -/
def firWrapping : FirState := { n := 2, c := [f05, f025], buf := [f2, f3], pos := 1 }

theorem witness_FirProcessConvolves :
    let s := issued (.firProcess 0) [f1] (holding (.fir firWrapping))
    s.status.fatal = false ∧ 0 < s.params.numSlots ∧ s.slot 0 = .fir firWrapping ∧
      firWrapping.buf.length = firWrapping.n ∧ firWrapping.pos < firWrapping.n ∧
      ringHolds firWrapping.buf firWrapping.pos firWrapping.n [f2, f3] := by
  refine ⟨rfl, by decide, rfl, rfl, by decide, ?_⟩
  unfold ringHolds
  decide

def iirInitState (a : List Word) : State :=
  issued .iirInit a ((block [f1, f0, f0, f2, f0, f0]).setSlot 0 (.lms lmsOne))

theorem witness_IirInitBuildsTheCascade :
    let s := iirInitState [6, 0, 6, 58]
    let o := iirInitOperands s.operands
    s.status.fatal = false ∧ o.bLen = 3 * 2 ∧ o.aLen = 3 * 2 ∧ o.bAddr + 3 * 2 ≤ s.params.dmemWords ∧
      o.aAddr + 3 * 2 ≤ s.params.dmemWords ∧ 2 ≤ s.params.sMax ∧ 1 < s.slots.length ∧ s.slot 1 = .free ∧
      (∀ g, g < 1 → s.slot g ≠ .free) ∧ Memory.word s.mem (o.bAddr + 3 * 1) = some f2 := by decide +kernel

/-- Each clause at the edge of its range. -/
theorem witness_IirInitChecks :
    (iirInitOperands (iirInitState [0, 0, 3, 0]).operands).bLen ≤ 0 ∧
      (iirInitOperands (iirInitState [4, 0, 4, 0]).operands).bLen % 3 ≠ 0 ∧
      (iirInitOperands (iirInitState [3, 0, 6, 0]).operands).bLen ≠
        (iirInitOperands (iirInitState [3, 0, 6, 0]).operands).aLen ∧
      (let s := iirInitState [3, 0, 3, 62]
      s.params.dmemWords < (iirInitOperands s.operands).aAddr + (iirInitOperands s.operands).aLen.toNat) ∧
      (let s := iirInitState [9, 0, 9, 0]
      s.params.sMax < (iirInitOperands s.operands).bLen.toNat / 3) ∧
      (let s := (iirInitState [3, 0, 3, 3]).setSlot 1 (.fir firF1)
      ∀ g, g < s.slots.length → s.slot g ≠ .free) := by decide +kernel

/-- Both clauses: the index S, and the last section. -/
theorem witness_IirSetSectionOverwritesOneSection :
    let q : IirState := { s := 2, sec := [sect f1 f0 f0 f1 f0 f0 f0 f0, sect f1 f1 f0 f2 f0 f0 f1 f1] }
    let s (k : Word) := issued (.iirSetSection 0) [k, f1] (holding (.iir q))
    (s 2).status.fatal = false ∧ 0 < (s 2).params.numSlots ∧ (s 2).slot 0 = .iir q ∧ q.sec.length = q.s ∧
      (q.s : Int) ≤ i64 (s 2).operands.arg0 ∧ i64 (s 0xFFFFFFFFFFFFFFFF).operands.arg0 < 0 ∧
      i64 (s 1).operands.arg0 = ((1 : Nat) : Int) ∧ q.sec[1]? = some (sect f1 f1 f0 f2 f0 f0 f1 f1) := by decide +kernel

theorem witness_IirProcessRunsTheDifferenceEquations :
    let q : IirState := { s := 2, sec := [sect f1 f0 f0 f1 f0 f0 f0 f0, sect f1 f1 f0 f2 f0 f0 f1 f1] }
    let s := issued (.iirProcess 0) [f1] (holding (.iir q))
    s.status.fatal = false ∧ 0 < s.params.numSlots ∧ s.slot 0 = .iir q ∧
      q.sec.all (fun c => !F64.eq c.a0 F64.zero) = true := by decide +kernel

/-- Both signs of zero, in the second section. -/
theorem witness_ZeroA0IsFatal :
    let q (z : F64) : IirState := { s := 2, sec := [sect f1 f0 f0 f1 f0 f0 f0 f0, sect f1 f1 f0 z f0 f0 f1 f1] }
    let s (z : F64) := issued (.iirProcess 0) [f1] (holding (.iir (q z)))
    (s f0).slot 0 = .iir (q f0) ∧ (s fm0).slot 0 = .iir (q fm0) ∧ sect f1 f1 f0 fm0 f0 f0 f1 f1 ∈ (q fm0).sec ∧
      (s f0).status.fatal = false ∧ 0 < (s f0).params.numSlots ∧ fm0 = 0x8000000000000000#64 := by decide +kernel

def lmsInitState (n mu : Word) : State := issued .lmsInit [n, mu] (holding (.lms lmsOne))

theorem witness_LmsInitBuildsTheFilter :
    let s := lmsInitState 4 1
    s.status.fatal = false ∧ i64 s.operands.arg0 = 4 ∧ F64.lt F64.zero s.operands.arg1 = true ∧
      F64.isFinite s.operands.arg1 = true ∧ 4 ≤ s.params.nMax ∧ 1 < s.slots.length ∧ s.slot 1 = .free ∧
      ∀ g, g < 1 → s.slot g ≠ .free := by decide +kernel

theorem witness_LmsInitChecks :
    i64 (lmsInitState 0 f0).operands.arg0 ≤ 0 ∧ F64.lt F64.zero (lmsInitState 1 fm0).operands.arg1 = false ∧
      F64.isFinite (lmsInitState 1 0x7FF0000000000000).operands.arg1 = false ∧
      (lmsInitState 5 f1).params.nMax < (i64 (lmsInitState 5 f1).operands.arg0).toNat ∧
      (let s := (lmsInitState 1 f1).setSlot 1 (.fir firF1)
      ∀ g, g < s.slots.length → s.slot g ≠ .free) := by decide +kernel

theorem witness_LmsProcessFiltersAndAdapts :
    let l : LmsState := { n := 2, mu := f05, w := [f1, f05], buf := [f2, f3], pos := 1 }
    let s := issued (.lmsProcess 0) [f1, f2] (holding (.lms l))
    s.status.fatal = false ∧ 0 < s.params.numSlots ∧ s.slot 0 = .lms l ∧ l.buf.length = l.n ∧ l.pos < l.n ∧
      ringHolds l.buf l.pos l.n [f2, f3] := by
  refine ⟨rfl, by decide, rfl, rfl, by decide, ?_⟩
  unfold ringHolds
  decide

def rlsInitState (n lam delta : Word) : State := issued .rlsInit [n, lam, delta] (holding (.lms lmsOne))

theorem witness_RlsInitBuildsTheFilter :
    let s := rlsInitState 4 f1 1
    s.status.fatal = false ∧ i64 s.operands.arg0 = 4 ∧ F64.lt F64.zero s.operands.arg1 = true ∧
      F64.le s.operands.arg1 F64.one = true ∧ F64.lt F64.zero s.operands.arg2 = true ∧
      F64.isFinite s.operands.arg2 = true ∧ 4 ≤ s.params.nMax ∧ 1 < s.slots.length ∧ s.slot 1 = .free ∧
      ∀ g, g < 1 → s.slot g ≠ .free := by decide +kernel

theorem witness_RlsInitChecks :
    i64 (rlsInitState 0 f1 f1).operands.arg0 ≤ 0 ∧ F64.lt F64.zero (rlsInitState 1 f0 f1).operands.arg1 = false ∧
      F64.le (rlsInitState 1 0x3FF0000000000001 f1).operands.arg1 F64.one = false ∧
      F64.lt F64.zero (rlsInitState 1 f1 fm0).operands.arg2 = false ∧
      F64.isFinite (rlsInitState 1 f1 0x7FF0000000000000).operands.arg2 = false ∧
      (rlsInitState 5 f1 f1).params.nMax < (i64 (rlsInitState 5 f1 f1).operands.arg0).toNat ∧
      (let s := (rlsInitState 1 f1 f1).setSlot 1 (.fir firF1)
      ∀ g, g < s.slots.length → s.slot g ≠ .free) := by decide +kernel

theorem witness_RlsProcessRunsTheRecursion :
    let s := issued (.rlsProcess 0) [f1, f2] (holding (.rls rlsTwo))
    s.status.fatal = false ∧ 0 < s.params.numSlots ∧ s.slot 0 = .rls rlsTwo ∧ rlsTwo.buf.length = rlsTwo.n ∧
      rlsTwo.pos < rlsTwo.n ∧ ringHolds rlsTwo.buf rlsTwo.pos rlsTwo.n [f1, f2] := by
  refine ⟨rfl, by decide, rfl, rfl, by decide, ?_⟩
  unfold ringHolds
  decide

def modState (a : List Word) : State := issued .qpskModulate a (block [0, 1, 2])

/-- The phases of the statement, from R262's step. -/
def phaseRow (inc : F64) (n : Nat) : F64 := (phaseStep inc)^[n] f0

theorem phaseRow_succ (inc : F64) (n : Nat) : phaseRow inc (n + 1) = phaseStep inc (phaseRow inc n) :=
  Function.iterate_succ_apply' _ _ _

/-- Each clause of the checks at the edge of its range. -/
theorem witness_ModulateChecks :
    (modulateOperands (modState [0, 0]).operands).numBits ≤ 0 ∧
      (modulateOperands (modState [0, 3]).operands).numBits % 2 ≠ 0 ∧
      (let o := modulateOperands (modState [0, 2, fm0, 0x7FF0000000000000, 0]).operands
      F64.lt F64.zero o.fc = false ∧ F64.isFinite o.fs = false ∧ o.sps ≤ 0) ∧
      (let s := modState [63, 2, fc1000, fs8000, 8, 48]
      let o := modulateOperands s.operands
      s.params.dmemWords < o.bitsAddr + o.numBits.toNat) ∧
      (let s := modState [0, 2, fc1000, fs8000, 8, 49]
      let o := modulateOperands s.operands
      s.params.dmemWords < o.outAddr + 2 * (o.numBits.toNat / 2 * o.sps.toNat)) ∧
      (let s := modState [1, 2, fc1000, fs8000, 8, 48]
      let o := modulateOperands s.operands
      F64.lt F64.zero o.fc = true ∧ F64.isFinite o.fc = true ∧ F64.lt F64.zero o.fs = true ∧
        F64.isFinite o.fs = true ∧ 0 < o.sps ∧ o.bitsAddr + o.numBits.toNat ≤ s.params.dmemWords ∧
        o.outAddr + 2 * (o.numBits.toNat / 2 * o.sps.toNat) ≤ s.params.dmemWords ∧
        Memory.word s.mem (o.bitsAddr + 1) = some 2) := by decide +kernel

theorem witness_ModulateWritesTheSamples :
    let s := modState [0, 2, fc1000, fs8000, 8, 48]
    let o := modulateOperands s.operands
    let inc := F64.div (F64.mul 0x401921FB54442D18#64 o.fc) o.fs
    (s.status.fatal = false ∧ 0 < o.numBits ∧ o.numBits % 2 = 0 ∧ F64.lt F64.zero o.fc = true ∧
      F64.isFinite o.fc = true ∧ F64.lt F64.zero o.fs = true ∧ F64.isFinite o.fs = true ∧ 0 < o.sps ∧
      o.bitsAddr + o.numBits.toNat ≤ s.params.dmemWords ∧
      o.outAddr + 2 * (o.numBits.toNat / 2 * o.sps.toNat) ≤ s.params.dmemWords ∧
      Memory.word s.mem o.bitsAddr = some 0 ∧ Memory.word s.mem (o.bitsAddr + 1) = some 1) ∧
      phaseRow inc 0 = 0x0000000000000000#64 ∧ ∀ n, phaseRow inc (n + 1) = phaseStep inc (phaseRow inc n) :=
  ⟨by decide +kernel, rfl, fun n => phaseRow_succ _ n⟩

theorem witness_FirstSampleIsTheSymbol :
    let s := modState [0, 2, fc1000, fs8000, 1, 48]
    let o := modulateOperands s.operands
    (∀ j, j < o.numBits.toNat → s.written (o.bitsAddr + j) = true) ∧
      ∃ t, exec .qpskModulate s = .next t ∧ t.status.err = .ok := by
  exact ⟨by decide +kernel, _, rfl, by decide +kernel⟩

def demodState (a : List Word) : State := issued .qpskDemodulate a (block [f1, f1, f2, f2])

/-- Each clause of the checks at the edge of its range. -/
theorem witness_DemodulateChecks :
    (demodulateOperands (demodState [0, 0]).operands).length ≤ 0 ∧
      (let o := demodulateOperands (demodState [0, 2, f0, 0x7FF8000000000000, 0, 0xFFFFFFFFFFFFFFFF]).operands
      F64.lt F64.zero o.fc = false ∧ F64.lt F64.zero o.fs = false ∧ o.sps ≤ 0 ∧ o.delay < 0) ∧
      (let s := demodState [61, 2, fc1000, fs8000, 2, 0, 4, 6]
      let o := demodulateOperands s.operands
      s.params.dmemWords < o.inAddr + 2 * o.length.toNat) ∧
      (let s := demodState [0, 2, fc1000, fs8000, 2, 5, 63, 63]
      let o := demodulateOperands s.operands
      (min o.delay (o.length - 1)).toNat = 1 ∧ s.params.dmemWords < o.bitsAddr + 2 * 1 ∧
        s.params.dmemWords < o.consAddr + 2 * 1) := by decide +kernel

theorem witness_DemodulateDecidesTheSymbols :
    let s := demodState [0, 2, fc1000, fs8000, 2, 0, 4, 62]
    let o := demodulateOperands s.operands
    let inc := F64.div (F64.mul 0x401921FB54442D18#64 o.fc) o.fs
    (s.status.fatal = false ∧ 0 < o.length ∧ F64.lt F64.zero o.fc = true ∧ F64.isFinite o.fc = true ∧
      F64.lt F64.zero o.fs = true ∧ F64.isFinite o.fs = true ∧ 0 < o.sps ∧ 0 ≤ o.delay ∧
      o.inAddr + 2 * o.length.toNat ≤ s.params.dmemWords ∧ o.bitsAddr + 2 * 1 ≤ s.params.dmemWords ∧
      o.consAddr + 2 * 1 ≤ s.params.dmemWords ∧ (2 - 0 + 2 - 1) / 2 = 1 ∧
      Memory.word s.mem (o.inAddr + 2 * (0 + 0)) = some f1 ∧ Memory.word s.mem (o.inAddr + 2 * (0 + 0) + 1) = some f1 ∧
      Memory.word s.mem (o.inAddr + 2 * (0 + 1)) = some f2 ∧
      Memory.word s.mem (o.inAddr + 2 * (0 + 1) + 1) = some f2) ∧
      phaseRow inc 0 = 0x0000000000000000#64 ∧ ∀ n, phaseRow inc (n + 1) = phaseStep inc (phaseRow inc n) :=
  ⟨by decide +kernel, rfl, fun n => phaseRow_succ _ n⟩

/-- The double nearest to π/4 is within one ulp of the angle of dibit 00. -/
theorem witness_DecisionInvertsTheGrayMap :
    let p := symbolPoint false false
    F64.withinUlps 1 0x3FE921FB54442D18#64
      (Complex.arg ⟨(F64.signedUnits p.1 : ℝ) / 2 ^ 1074, (F64.signedUnits p.2 : ℝ) / 2 ^ 1074⟩) := by
  intro p
  have ha : (0 : ℝ) < (F64.signedUnits F64.amp : ℝ) / 2 ^ 1074 := by
    have : (0 : Int) < F64.signedUnits F64.amp := by decide +kernel
    exact div_pos (by exact_mod_cast this) (by positivity)
  have harg : Complex.arg ⟨(F64.signedUnits F64.amp : ℝ) / 2 ^ 1074, (F64.signedUnits F64.amp : ℝ) / 2 ^ 1074⟩ =
      Real.pi / 4 := by
    generalize (F64.signedUnits F64.amp : ℝ) / 2 ^ 1074 = r at ha
    have hr : (⟨r, r⟩ : ℂ) = ((r * √2 : ℝ) : ℂ) *
        (Complex.cos ((Real.pi / 4 : ℝ) : ℂ) + Complex.sin ((Real.pi / 4 : ℝ) : ℂ) * Complex.I) := by
      rw [← Complex.ofReal_cos, ← Complex.ofReal_sin, Real.cos_pi_div_four, Real.sin_pi_div_four]
      have h2 : √2 * √2 = (2 : ℝ) := Real.mul_self_sqrt (by norm_num)
      apply Complex.ext
      · simp; linear_combination (-r / 2) * h2
      · simp; linear_combination (-r / 2) * h2
    rw [hr, Complex.arg_mul_cos_add_sin_mul_I (by positivity)]
    have := Real.pi_pos
    constructor <;> linarith
  have hv : (F64.signedUnits 0x3FE921FB54442D18#64 : ℝ) / 2 ^ 1074 = 7074237752028440 / 2 ^ 53 := by
    have h : F64.signedUnits 0x3FE921FB54442D18#64 = 7074237752028440 * 2 ^ 1021 := by decide +kernel
    rw [h, Int.cast_mul, Int.cast_pow, show (1074 : Nat) = 1021 + 53 from rfl, pow_add, mul_comm]
    exact mul_div_mul_left _ _ (by positivity)
  have h1 := Real.pi_gt_d20
  have h2 := Real.pi_lt_d20
  refine ⟨by decide +kernel, -53, by norm_num, .inr ?_, ?_⟩
  · show _ ≤ |Complex.arg ⟨(F64.signedUnits F64.amp : ℝ) / 2 ^ 1074, (F64.signedUnits F64.amp : ℝ) / 2 ^ 1074⟩|
    rw [harg, abs_of_pos (by linarith)]
    norm_num
    linarith
  · show |_ - Complex.arg ⟨(F64.signedUnits F64.amp : ℝ) / 2 ^ 1074, (F64.signedUnits F64.amp : ℝ) / 2 ^ 1074⟩| ≤ _
    rw [harg, hv, abs_le]
    norm_num
    constructor <;> linarith

/-- Finite operands and results, and a tie of each operation: 1 + 2^-53, (1 + 2^-52)·1.5 and 3·2^-1074 / 2. -/
theorem witness_ArithmeticIsCorrectlyRounded :
    let v := F64.signedUnits
    let one := (2 : Int) ^ 1074
    let h : F64 := 0x3CA0000000000000#64
    let z : F64 := 0x3FF0000000000001#64
    let p : F64 := 0x3FF8000000000000#64
    let q : F64 := 0x3FF8000000000001#64
    (F64.isFinite (F64.add f1 h) = true ∧ (v (F64.add f1 h) - (v f1 + v h)).natAbs = (v z - (v f1 + v h)).natAbs ∧
        v z ≠ v (F64.add f1 h)) ∧
      (F64.isFinite (F64.mul z p) = true ∧
        (v (F64.mul z p) * one - v z * v p).natAbs = (v q * one - v z * v p).natAbs ∧ v q ≠ v (F64.mul z p)) ∧
      (F64.isZero f2 = false ∧ F64.isFinite (F64.div 3#64 f2) = true ∧
        (v (F64.div 3#64 f2) * v f2 - v 3#64 * one).natAbs = (v 1#64 * v f2 - v 3#64 * one).natAbs ∧
        v 1#64 ≠ v (F64.div 3#64 f2)) := by decide +kernel

theorem witness_ComparisonsOrderTheValues :
    F64.isFinite fm0 = true ∧ F64.isFinite f0 = true ∧ F64.signedUnits fm0 = F64.signedUnits f0 ∧
      F64.isNaN 0x7FF0000000000001#64 = true ∧ F64.isNaN 0x7FF0000000000000#64 = false := by decide +kernel

end Sys2Proof.Tests
end

section
/-! Binary64 arithmetic and comparisons (00_scope R16, R17, R19). The magnitude bits, read as one number, enumerate the
magnitudes in increasing order, so `F64.key` orders the finite values and two neighbouring magnitudes bracket any exact
result. -/

namespace Sys2Proof.Machine

/-! ## The value of a row of magnitude bits -/

/-- The magnitude, in units of 2^-1074, that the magnitude bits `m` encode. -/
def F64.unitsOfMag (m : Nat) : Nat :=
  if m / 2 ^ 52 = 0 then m else (2 ^ 52 + m % 2 ^ 52) * 2 ^ (m / 2 ^ 52 - 1)

theorem F64.units_eq_unitsOfMag (x : F64) : F64.units x = F64.unitsOfMag (F64.mag x) := rfl

/-- A 53-bit significand `q` at spacing `2 ^ sh`; `q = 2 ^ 53` carries into the next exponent. -/
theorem F64.unitsOfMag_significand {sh q : Nat} (hnormal : sh = 0 ∨ 2 ^ 52 ≤ q) (hq : q ≤ 2 ^ 53) :
    F64.unitsOfMag (sh * 2 ^ 52 + q) = q * 2 ^ sh := by
  rw [F64.unitsOfMag]
  rcases hq.lt_or_eq with hlt | rfl
  · rcases Nat.lt_or_ge q (2 ^ 52) with hsub | hnorm
    · obtain rfl : sh = 0 := by omega
      rw [if_pos (by omega)]
      omega
    · rw [if_neg (by omega), show (sh * 2 ^ 52 + q) / 2 ^ 52 - 1 = sh by omega,
        show 2 ^ 52 + (sh * 2 ^ 52 + q) % 2 ^ 52 = q by omega]
  · rw [if_neg (by omega), show (sh * 2 ^ 52 + 2 ^ 53) / 2 ^ 52 - 1 = sh + 1 by omega,
      show (sh * 2 ^ 52 + 2 ^ 53) % 2 ^ 52 = 0 by omega, pow_succ]
    ring

theorem F64.unitsOfMag_strictMono : StrictMono F64.unitsOfMag := by
  refine strictMono_nat_of_lt_succ fun m => ?_
  obtain ⟨sh, q, hm, hnormal, hq⟩ : ∃ sh q, m = sh * 2 ^ 52 + q ∧ (sh = 0 ∨ 2 ^ 52 ≤ q) ∧ q < 2 ^ 53 :=
    ⟨m / 2 ^ 52 - 1, m - (m / 2 ^ 52 - 1) * 2 ^ 52, by omega⟩
  rw [hm, Nat.add_assoc, F64.unitsOfMag_significand hnormal hq.le,
    F64.unitsOfMag_significand (by omega) (by omega)]
  exact Nat.mul_lt_mul_of_pos_right q.lt_succ_self (Nat.two_pow_pos sh)

/-! ## Signs -/

/-- A sign and a magnitude as an integer. -/
def F64.signed (neg : Bool) (n : Nat) : Int := if neg then -(n : Int) else n

theorem F64.signedUnits_eq_signed (x : F64) : F64.signedUnits x = F64.signed (F64.sign x) (F64.units x) := rfl

theorem F64.key_eq_signed (x : F64) : F64.key x = F64.signed (F64.sign x) (F64.mag x) := rfl

theorem F64.signed_mul_signed (a b : Bool) (m n : Nat) :
    F64.signed a m * F64.signed b n = F64.signed (a != b) (m * n) := by
  cases a <;> cases b <;> simp [F64.signed]

theorem F64.signed_mul_natCast (s : Bool) (m n : Nat) : F64.signed s m * (n : Int) = F64.signed s (m * n) := by
  cases s <;> simp [F64.signed]

/-- The value, in units of 2^-1074, of the words whose key is `k`. -/
def F64.valueOfKey (k : Int) : Int := F64.signed (decide (k < 0)) (F64.unitsOfMag k.natAbs)

theorem F64.valueOfKey_neg (k : Int) : F64.valueOfKey (-k) = -F64.valueOfKey k := by
  rcases lt_trichotomy k 0 with h | rfl | h
  · simp [F64.valueOfKey, F64.signed, h, h.le]
  · rfl
  · simp [F64.valueOfKey, F64.signed, h, h.le]

theorem F64.valueOfKey_natCast (m : Nat) : F64.valueOfKey m = F64.unitsOfMag m := by
  simp [F64.valueOfKey, F64.signed]

theorem F64.valueOfKey_signed (s : Bool) (m : Nat) :
    F64.valueOfKey (F64.signed s m) = F64.signed s (F64.unitsOfMag m) := by
  cases s
  · exact F64.valueOfKey_natCast m
  · exact (F64.valueOfKey_neg m).trans (congrArg _ (F64.valueOfKey_natCast m))

theorem F64.valueOfKey_key (x : F64) : F64.valueOfKey (F64.key x) = F64.signedUnits x := by
  rw [F64.key_eq_signed, F64.valueOfKey_signed, F64.signedUnits_eq_signed, F64.units_eq_unitsOfMag]

/-- Keys order the values: on naturals by the magnitudes, below 0 by symmetry. -/
theorem F64.valueOfKey_strictMono : StrictMono F64.valueOfKey := by
  have step (m : Nat) : F64.valueOfKey m < F64.valueOfKey (m + 1) := by
    have : F64.unitsOfMag m < F64.unitsOfMag (m + 1) := F64.unitsOfMag_strictMono m.lt_succ_self
    rw [← Nat.cast_succ, F64.valueOfKey_natCast, F64.valueOfKey_natCast]
    exact_mod_cast this
  refine strictMono_int_of_lt_succ fun k => ?_
  cases k with
  | ofNat m => exact step m
  | negSucc m =>
    rw [Int.negSucc_eq, show -((m : Int) + 1) + 1 = -m by omega, F64.valueOfKey_neg, F64.valueOfKey_neg]
    exact neg_lt_neg (step m)

/-! ## Comparisons (R17) -/

theorem F64.not_nan_of_isFinite {x : F64} (h : F64.isFinite x = true) : F64.isNaN x = false := by
  simp only [F64.isFinite, F64.isNaN, decide_eq_true_eq, decide_eq_false_iff_not] at *
  omega

theorem F64.not_inf_of_isFinite {x : F64} (h : F64.isFinite x = true) : F64.isInf x = false := by
  simp only [F64.isFinite, F64.isInf, decide_eq_true_eq, decide_eq_false_iff_not] at *
  omega

/-- Settles O60: on words that are not NaN all three compare keys, and `F64.valueOfKey` is strictly monotone. -/
theorem comparisonsOrderTheValues : Obligations.ComparisonsOrderTheValues := by
  refine fun x y => ⟨fun hx hy => ?_, ?_⟩
  · have hx := F64.not_nan_of_isFinite hx
    have hy := F64.not_nan_of_isFinite hy
    have mono := F64.valueOfKey_strictMono
    simp [F64.lt, F64.le, F64.eq, hx, hy, ← F64.valueOfKey_key, mono.lt_iff_lt, mono.le_iff_le, mono.injective.eq_iff]
  · rintro (hx | hy)
    · simp [F64.lt, F64.le, F64.eq, hx]
    · simp [F64.lt, F64.le, F64.eq, hy]

/-! ## Packing -/

theorem F64.toNat_pack (s : Bool) {m : Nat} (h : m < 2 ^ 63) :
    (F64.pack s m).toNat = (if s then 2 ^ 63 else 0) + m := by
  rw [F64.pack, BitVec.toNat_ofNat, Nat.mod_eq_of_lt]
  split <;> omega

theorem F64.mag_pack (s : Bool) {m : Nat} (h : m < 2 ^ 63) : F64.mag (F64.pack s m) = m := by
  rw [F64.mag, F64.toNat_pack s h]
  split <;> omega

theorem F64.sign_pack (s : Bool) {m : Nat} (h : m < 2 ^ 63) : F64.sign (F64.pack s m) = s := by
  rw [F64.sign, F64.toNat_pack s h]
  cases s
  · simpa using h
  · simp

theorem F64.getLsbD_zero_pack (s : Bool) {m : Nat} (h : m < 2 ^ 63) (heven : m % 2 = 0) :
    (F64.pack s m).getLsbD 0 = false := by
  rw [← BitVec.testBit_toNat, F64.toNat_pack s h, Nat.testBit_zero, decide_eq_false_iff_not]
  split <;> omega

theorem F64.roundMag_lt (n d : Nat) : F64.roundMag n d < 2 ^ 63 :=
  (Nat.min_le_right _ _).trans_lt (by decide)

theorem F64.signedUnits_round (s : Bool) (n d : Nat) :
    F64.signedUnits (F64.round s n d) = F64.signed s (F64.unitsOfMag (F64.roundMag n d)) := by
  have h := F64.roundMag_lt n d
  rw [F64.signedUnits_eq_signed, F64.round, F64.units_eq_unitsOfMag, F64.sign_pack s h, F64.mag_pack s h]

/-! ## Rounding (R16) -/

/-- `sh` and `q` of `F64.roundMag`: 53 bits are kept, fewer only at the smallest spacing. -/
theorem F64.significand_bounds (n d : Nat) :
    let sh := Nat.log2 (n / d) - 52
    let q := n / (d * 2 ^ sh)
    q < 2 ^ 53 ∧ (sh = 0 ∨ 2 ^ 52 ≤ q) := by
  intro sh q
  have hq : q = n / d / 2 ^ sh := (Nat.div_div_eq_div_mul n d (2 ^ sh)).symm
  have hlt : n / d < 2 ^ ((n / d).log2 + 1) := Nat.lt_log2_self
  refine ⟨?_, or_iff_not_imp_left.mpr fun hsh => ?_⟩
  · rw [hq, Nat.div_lt_iff_lt_mul (Nat.two_pow_pos sh), ← pow_add]
    exact hlt.trans_le (Nat.pow_le_pow_right two_pos (by omega))
  · have hne : n / d ≠ 0 := fun h => hsh (by simp [sh, h])
    rw [hq, Nat.le_div_iff_mul_le (Nat.two_pow_pos sh), ← pow_add, show 52 + sh = (n / d).log2 by omega]
    exact Nat.log2_self_le hne

/-- Two neighbouring magnitudes bracket `n / d`; the result is the nearer one, or the even one at the midpoint. -/
theorem F64.roundMag_brackets {n d : Nat} (hd : 0 < d) (hfin : F64.roundMag n d < F64.infMag) :
    ∃ m, let lo := F64.unitsOfMag m * d; let hi := F64.unitsOfMag (m + 1) * d
      lo ≤ n ∧ n < hi ∧
        (F64.roundMag n d = m ∧ 2 * n ≤ lo + hi ∧ (2 * n = lo + hi → m % 2 = 0) ∨
          F64.roundMag n d = m + 1 ∧ lo + hi ≤ 2 * n ∧ (2 * n = lo + hi → m % 2 = 1)) := by
  obtain ⟨hq, hnormal⟩ := F64.significand_bounds n d
  rw [F64.roundMag] at hfin ⊢
  generalize Nat.log2 (n / d) - 52 = sh at *
  have hu : 0 < d * 2 ^ sh := Nat.mul_pos hd (Nat.two_pow_pos sh)
  have hn : d * 2 ^ sh * (n / (d * 2 ^ sh)) + n % (d * 2 ^ sh) = n := Nat.div_add_mod n _
  have hr : n % (d * 2 ^ sh) < d * 2 ^ sh := Nat.mod_lt n hu
  generalize n / (d * 2 ^ sh) = q at *
  generalize n % (d * 2 ^ sh) = r at *
  have hlo : F64.unitsOfMag (sh * 2 ^ 52 + q) * d = d * 2 ^ sh * q := by
    rw [F64.unitsOfMag_significand hnormal hq.le]
    ring
  have hhi : F64.unitsOfMag (sh * 2 ^ 52 + q + 1) * d = d * 2 ^ sh * q + d * 2 ^ sh := by
    rw [Nat.add_assoc, F64.unitsOfMag_significand (by omega) hq, Nat.succ_eq_add_one]
    ring
  refine ⟨sh * 2 ^ 52 + q, ?_⟩
  rw [hlo, hhi]
  generalize d * 2 ^ sh * q = lo at *
  generalize d * 2 ^ sh = u at *
  dsimp only at hfin ⊢
  rw [min_eq_left (by omega)]
  refine ⟨by omega, by omega, ?_⟩
  split <;> omega

/-- The rounded magnitude against every signed value: the values at or below the lower neighbour, and the values at or
above the upper one. -/
theorem F64.roundMag_nearest {n d : Nat} (hd : 0 < d) (hfin : F64.roundMag n d < F64.infMag) (k : Int) :
    let w : Int := F64.unitsOfMag (F64.roundMag n d)
    |w * d - n| ≤ |F64.valueOfKey k * d - n| ∧
      (|w * d - n| = |F64.valueOfKey k * d - n| → F64.valueOfKey k ≠ w → F64.roundMag n d % 2 = 0) := by
  intro w
  obtain ⟨m, hlo, hhi, hres⟩ := F64.roundMag_brackets hd hfin
  have hd' : (0 : Int) < d := by exact_mod_cast hd
  have hside : F64.valueOfKey k * d ≤ F64.unitsOfMag m * d ∨ F64.unitsOfMag (m + 1) * d ≤ F64.valueOfKey k * d := by
    simp only [mul_le_mul_iff_left₀ hd', ← F64.valueOfKey_natCast, F64.valueOfKey_strictMono.le_iff_le]
    omega
  have hne : F64.valueOfKey k ≠ w → F64.valueOfKey k * d ≠ w * d := fun h h' => h (mul_right_cancel₀ hd'.ne' h')
  zify at hlo hhi
  simp only [abs_eq_max_neg]
  rcases hres with ⟨hm, hmid, heven⟩ | ⟨hm, hmid, hodd⟩ <;> zify at hmid
  · simp only [w, hm] at hne ⊢
    omega
  · simp only [w, hm] at hne ⊢
    omega

/-! ## The operations (R16) -/

/-- `w` is a binary64 value nearest to `n / d` units, and its last bit is 0 where another value is as near. -/
def F64.IsNearestEven (w : F64) (n d : Int) : Prop :=
  ∀ z : F64, F64.isFinite z = true →
    |F64.signedUnits w * d - n| ≤ |F64.signedUnits z * d - n| ∧
      (|F64.signedUnits w * d - n| = |F64.signedUnits z * d - n| → F64.signedUnits z ≠ F64.signedUnits w →
        w.getLsbD 0 = false)

/-- The sign of the denominator may stand in the numerator. -/
theorem F64.isNearestEven_signed_signed (w : F64) (s t : Bool) (n d : Nat) :
    F64.IsNearestEven w (F64.signed s n) (F64.signed t d) ↔ F64.IsNearestEven w (F64.signed (s != t) n) d := by
  cases t with
  | false => simp [F64.signed]
  | true =>
    have hnum : F64.signed (s != true) n = -F64.signed s n := by cases s <;> simp [F64.signed]
    have habs (a : Int) : |a * -d - F64.signed s n| = |a * d - -F64.signed s n| := by
      rw [← abs_neg]
      congr 1
      ring
    have hden : F64.signed true d = -(d : Int) := rfl
    simp only [F64.IsNearestEven, hnum, hden, habs]

theorem F64.round_isNearestEven (s : Bool) {n d : Nat} (hd : 0 < d) (hfin : F64.isFinite (F64.round s n d) = true) :
    F64.IsNearestEven (F64.round s n d) (F64.signed s n) d := by
  have hlt := F64.roundMag_lt n d
  rw [F64.isFinite, F64.round, F64.mag_pack s hlt, decide_eq_true_eq] at hfin
  intro z _
  have hlsb := F64.getLsbD_zero_pack s hlt
  rw [F64.signedUnits_round, ← F64.valueOfKey_key z]
  cases s with
  | false =>
    obtain ⟨hnear, htie⟩ := F64.roundMag_nearest hd hfin (F64.key z)
    exact ⟨hnear, fun h hne => hlsb (htie h hne)⟩
  | true =>
    obtain ⟨hnear, htie⟩ := F64.roundMag_nearest hd hfin (-F64.key z)
    have habs (a : Int) : |a * d - -n| = |-a * d - n| := by rw [← abs_neg]; congr 1; ring
    simp only [F64.signed, if_true, habs, neg_neg, F64.valueOfKey_neg] at hnear htie ⊢
    exact ⟨hnear, fun h hne => hlsb (htie h (by omega))⟩

/-- A sum that is exactly 0 is a rounding too, so the sum has one form; only the sign of a zero depends on the case. -/
theorem F64.add_eq_round {x y : F64} (hx : F64.isFinite x = true) (hy : F64.isFinite y = true) :
    ∃ s n, F64.signedUnits x + F64.signedUnits y = F64.signed s n ∧ F64.add x y = F64.round s n 1 := by
  simp only [F64.add, F64.not_nan_of_isFinite hx, F64.not_nan_of_isFinite hy, F64.not_inf_of_isFinite hx,
    F64.not_inf_of_isFinite hy, Bool.or_self, Bool.false_eq_true, if_false]
  generalize F64.signedUnits x + F64.signedUnits y = t
  by_cases ht : t = 0
  · refine ⟨F64.sign x && F64.sign y, 0, ?_, ?_⟩
    · simp [F64.signed, ht]
    · rw [if_pos ht]
      rfl
  · refine ⟨decide (t < 0), t.natAbs, ?_, if_neg ht⟩
    simp only [F64.signed, decide_eq_true_eq]
    split <;> omega

theorem F64.mul_eq_round {x y : F64} (hx : F64.isFinite x = true) (hy : F64.isFinite y = true) :
    F64.mul x y = F64.round (F64.sign x != F64.sign y) (F64.units x * F64.units y) F64.unitsOfOne := by
  simp [F64.mul, F64.not_nan_of_isFinite, F64.not_inf_of_isFinite, hx, hy]

theorem F64.div_eq_round {x y : F64} (hx : F64.isFinite x = true) (hy : F64.isFinite y = true)
    (h0 : F64.isZero y = false) :
    F64.div x y = F64.round (F64.sign x != F64.sign y) (F64.units x * F64.unitsOfOne) (F64.units y) := by
  simp [F64.div, F64.not_nan_of_isFinite, F64.not_inf_of_isFinite, hx, hy, h0]

theorem F64.units_pos {y : F64} (h0 : F64.isZero y = false) : 0 < F64.units y :=
  F64.unitsOfMag_strictMono (Nat.pos_of_ne_zero (of_decide_eq_false h0))

theorem F64.add_isNearestEven {x y : F64} (hx : F64.isFinite x = true) (hy : F64.isFinite y = true)
    (h : F64.isFinite (F64.add x y) = true) :
    F64.IsNearestEven (F64.add x y) (F64.signedUnits x + F64.signedUnits y) 1 := by
  obtain ⟨s, n, hsum, hadd⟩ := F64.add_eq_round hx hy
  rw [hadd] at h ⊢
  rw [hsum]
  exact F64.round_isNearestEven s one_pos h

theorem F64.unitsOfOne_pos : 0 < F64.unitsOfOne := by
  unfold F64.unitsOfOne
  positivity

theorem F64.mul_isNearestEven {x y : F64} (hx : F64.isFinite x = true) (hy : F64.isFinite y = true)
    (h : F64.isFinite (F64.mul x y) = true) :
    F64.IsNearestEven (F64.mul x y) (F64.signedUnits x * F64.signedUnits y) F64.unitsOfOne := by
  rw [F64.mul_eq_round hx hy] at h ⊢
  rw [F64.signedUnits_eq_signed, F64.signedUnits_eq_signed, F64.signed_mul_signed]
  exact F64.round_isNearestEven _ F64.unitsOfOne_pos h

theorem F64.div_isNearestEven {x y : F64} (hx : F64.isFinite x = true) (hy : F64.isFinite y = true)
    (h0 : F64.isZero y = false) (h : F64.isFinite (F64.div x y) = true) :
    F64.IsNearestEven (F64.div x y) (F64.signedUnits x * F64.unitsOfOne) (F64.signedUnits y) := by
  rw [F64.div_eq_round hx hy h0] at h ⊢
  have hround := F64.round_isNearestEven _ (F64.units_pos h0) h
  have hnum : F64.signedUnits x * F64.unitsOfOne = F64.signed (F64.sign x) (F64.units x * F64.unitsOfOne) := by
    rw [F64.signedUnits_eq_signed, F64.signed_mul_natCast]
  rw [hnum, F64.signedUnits_eq_signed y, F64.isNearestEven_signed_signed]
  exact hround

/-- Settles O59: each operation on finite operands rounds the exact result once (`F64.round_isNearestEven`). -/
theorem arithmeticIsCorrectlyRounded : Obligations.ArithmeticIsCorrectlyRounded := by
  intro x y z hx hy hz
  have hone : (F64.unitsOfOne : Int) = 2 ^ 1074 := by rw [F64.unitsOfOne, Nat.cast_pow, Nat.cast_ofNat]
  refine ⟨fun h => ?_, fun h => ?_, fun h0 h => ?_⟩
  · simpa only [mul_one] using F64.add_isNearestEven hx hy h z hz
  · simpa only [hone] using F64.mul_isNearestEven hx hy h z hz
  · simpa only [hone] using F64.div_isNearestEven hx hy h0 h z hz

end Sys2Proof.Machine
end

section
/-! What a command can change (40_command R132, R147) and what a step can change (20_memory R83), once each: the
statements about every step are case splits on `StepEffect`. -/

namespace Sys2Proof.Machine

/-! ## What a command can change -/

/-- One word of DMEM is written. -/
def Memory.WordWrite (p : Config.Params) (m m' : List Host.Cell) : Prop :=
  ∃ a w, a < p.dmemWords ∧ m' = Memory.putWord m a w

theorem Memory.putWords_writes {p : Config.Params} {m : List Host.Cell} {a : Nat} {ws : List Word}
    (h : a + ws.length ≤ p.dmemWords) : Relation.ReflTransGen (Memory.WordWrite p) m (Memory.putWords m a ws) := by
  induction ws generalizing m a with
  | nil => exact .refl
  | cons w ws ih =>
    rw [List.length_cons] at h
    exact .head ⟨a, w, by omega, rfl⟩ (ih (by omega))

/-- What a command can find in the slot it writes, and what it leaves there. -/
inductive Slot.Rewrites (p : Config.Params) : Slot → Slot → Prop where
  | release (v : Slot) : Rewrites p v .free
  | firInit {n : Nat} {c : List F64} (hpos : 0 < n) (hmax : n ≤ p.nMax) (hc : c.length = n) :
      Rewrites p .free (.fir (FirState.fresh n c))
  | firProcess (f : FirState) (x : F64) : Rewrites p (.fir f) (.fir (f.push x))
  | iirInit {n : Nat} (b a : List F64) (hpos : 0 < n) (hmax : n ≤ p.sMax) :
      Rewrites p .free (.iir (IirState.fresh n b a))
  | iirSetSection (q : IirState) (i : Nat) (g : Section → Section) :
      Rewrites p (.iir q) (.iir { q with sec := q.sec.modify i g })
  | iirProcess (q : IirState) (k : Nat) (x : F64) : Rewrites p (.iir q) (.iir { q with sec := (cascade k q.sec x).1 })
  | lmsInit {n : Nat} {mu : F64} (hpos : 0 < n) (hmax : n ≤ p.nMax) (hmu : F64.lt F64.zero mu = true)
      (hfin : F64.isFinite mu = true) : Rewrites p .free (.lms (LmsState.fresh n mu))
  | lmsProcess (l : LmsState) (k : Nat) (x d : F64) : Rewrites p (.lms l) (.lms (l.sample k x d).1)
  | rlsInit {n : Nat} {lam delta : F64} (hpos : 0 < n) (hmax : n ≤ p.nMax) (hlam : F64.lt F64.zero lam = true)
      (hone : F64.le lam F64.one = true) (hdelta : F64.lt F64.zero delta = true)
      (hfin : F64.isFinite delta = true) : Rewrites p .free (.rls (RlsState.fresh n lam delta))
  | rlsProcess (r : RlsState) (k : Nat) (x d : F64) : Rewrites p (.rls r) (.rls (r.sample k x d).1)

/-- What holds between the states before and after a command that completes, with any code. -/
structure CommandEffect (s t : State) : Prop where
  params : t.params = s.params
  pending : t.pending = none
  busy : t.status.busy = false
  fatal : s.status.fatal = true → t.status.fatal = true
  slots : t.slots = s.slots ∨ ∃ h v, Slot.Rewrites s.params (s.slot h) v ∧ t.slots = s.slots.set h v
  mem : Relation.ReflTransGen (Memory.WordWrite s.params) s.mem t.mem

/-- Inputs, marks and draws before the command do not matter. -/
theorem CommandEffect.of_model_fields {s s' t : State} (h : CommandEffect s' t) (hparams : s'.params = s.params)
    (hstatus : s'.status = s.status) (hslots : s'.slots = s.slots) (hmem : s'.mem = s.mem) : CommandEffect s t where
  params := hparams ▸ h.params
  pending := h.pending
  busy := h.busy
  fatal := hstatus ▸ h.fatal
  slots := by
    have hslot (g : Nat) : s'.slot g = s.slot g := by rw [State.slot, hslots, State.slot]
    simpa only [hparams, hslots, hslot] using h.slots
  mem := hparams ▸ hmem ▸ h.mem

theorem State.raised_effect (s : State) (c : Code) : CommandEffect s (s.raised c) where
  params := rfl
  pending := rfl
  busy := rfl
  fatal hf := by simp [hf]
  slots := .inl rfl
  mem := .refl

theorem raiseError_effect {s t : State} {c : Code} (h : .next t = raiseError c s) : CommandEffect s t := by
  cases h
  exact s.raised_effect c

/-- A command that ends OK after it wrote slot `h` and registers. -/
theorem completeOk_slot_effect {s s' t : State} {h : Nat} {v : Slot} (ht : .next t = completeOk s')
    (hv : Slot.Rewrites s.params (s.slot h) v) (hparams : s'.params = s.params)
    (hfatal : s'.status.fatal = s.status.fatal) (hslots : s'.slots = s.slots.set h v) (hmem : s'.mem = s.mem) :
    CommandEffect s t := by
  cases ht
  exact ⟨hparams, rfl, rfl, fun hf => hfatal.trans hf, .inr ⟨h, v, hv, hslots⟩, hmem ▸ .refl⟩

theorem finishInit_effect {s t : State} {h : Nat} {v : Slot} (ht : .next t = finishInit h v s)
    (hfree : s.freeSlot = some h) (hv : Slot.Rewrites s.params .free v) : CommandEffect s t := by
  obtain ⟨_, hslot, _⟩ := State.freeSlot_eq_some.1 hfree
  exact completeOk_slot_effect ht (hslot ▸ hv) rfl rfl rfl rfl

theorem finishRelease_effect {s t : State} {h : Nat} (ht : .next t = finishRelease h s) : CommandEffect s t :=
  completeOk_slot_effect ht (.release _) rfl rfl rfl rfl

theorem finishProcess_effect {s t : State} {h drawn : Nat} {u v : Slot} {y : F64}
    (ht : .next t = finishProcess h v y drawn s) (hslot : s.slot h = u) (hv : Slot.Rewrites s.params u v) :
    CommandEffect s t :=
  completeOk_slot_effect ht (hslot ▸ hv) rfl rfl rfl rfl

/-- A command that ends OK after it wrote DMEM and registers. -/
theorem completeOk_mem_effect {s s' t : State} (ht : .next t = completeOk s') (hparams : s'.params = s.params)
    (hfatal : s'.status.fatal = s.status.fatal) (hslots : s'.slots = s.slots)
    (hmem : Relation.ReflTransGen (Memory.WordWrite s.params) s.mem s'.mem) : CommandEffect s t := by
  cases ht
  exact ⟨hparams, rfl, rfl, fun hf => hfatal.trans hf, .inl hslots, hmem⟩

theorem modulateDone_writes {s : State}
    (h : let o := modulateOperands s.operands
      s.inRange o.outAddr (2 * (o.numBits.toNat / 2 * o.sps.toNat)) = true) :
    Relation.ReflTransGen (Memory.WordWrite s.params) s.mem (modulateDone s).mem :=
  Memory.putWords_writes (by simpa [State.inRange] using h)

theorem demodulateDone_writes {s : State}
    (h : let o := demodulateOperands s.operands
      let m := ceilDiv (o.length.toNat - clampedDelay o.length o.delay) o.sps.toNat
      s.inRange o.bitsAddr (2 * m) = true ∧ s.inRange o.consAddr (2 * m) = true) :
    Relation.ReflTransGen (Memory.WordWrite s.params) s.mem (demodulateDone s).mem :=
  (Memory.putWords_writes (by simpa [State.inRange] using h.1)).trans
    (Memory.putWords_writes (by simpa [State.inRange] using h.2))

theorem EndsOr.effect {s t : State} {P : Answer → Prop} {r : Answer} (h : EndsOr s P r) (hr : r = .next t)
    (hP : P (.next t) → CommandEffect s t) : CommandEffect s t := by
  subst hr
  rcases h with ⟨c, _, he⟩ | h
  · exact raiseError_effect he
  · exact hP h

theorem exec_effect {i : Instr} {s t : State} (h : exec i s = .next t) : CommandEffect s t := by
  cases i with
  | firInit =>
    refine (execFirInit_cases s).effect h fun ⟨_, hfree, ht, hpos, hmax⟩ => ?_
    refine (finishInit_effect ht hfree ?_).of_model_fields rfl rfl rfl rfl
    exact .firInit (by omega) hmax (by simp [State.readWords])
  | firProcess g =>
    exact (execFirProcess_cases g s).effect h fun ⟨_, hslot, ht⟩ => finishProcess_effect ht hslot (.firProcess _ _)
  | firRelease g => exact (execFirRelease_cases g s).effect h fun ⟨_, ht⟩ => finishRelease_effect ht
  | iirInit =>
    refine (execIirInit_cases s).effect h fun ⟨_, hfree, ht, hpos, hmax⟩ => ?_
    exact (finishInit_effect ht hfree (.iirInit _ _ hpos hmax)).of_model_fields rfl rfl rfl rfl
  | iirSetSection g =>
    exact (execIirSetSection_cases g s).effect h fun ⟨_, hslot, _, _, ht⟩ =>
      completeOk_slot_effect ht (hslot ▸ .iirSetSection _ _ _) rfl rfl rfl rfl
  | iirProcess g =>
    refine (execIirProcess_cases g s).effect h ?_
    rintro ⟨_, hslot, ⟨_, ht⟩ | ⟨_, ht⟩⟩
    · exact raiseError_effect ht
    · exact finishProcess_effect ht hslot (.iirProcess _ _ _)
  | iirRelease g => exact (execIirRelease_cases g s).effect h fun ⟨_, ht⟩ => finishRelease_effect ht
  | lmsInit =>
    exact (execLmsInit_cases s).effect h fun ⟨_, hfree, ht, hpos, hmax, hmu, hfin⟩ =>
      finishInit_effect ht hfree (.lmsInit (by omega) hmax hmu hfin)
  | lmsProcess g =>
    exact (execLmsProcess_cases g s).effect h fun ⟨_, hslot, ht⟩ => finishProcess_effect ht hslot (.lmsProcess _ _ _ _)
  | lmsRelease g => exact (execLmsRelease_cases g s).effect h fun ⟨_, ht⟩ => finishRelease_effect ht
  | rlsInit =>
    exact (execRlsInit_cases s).effect h fun ⟨_, hfree, ht, hpos, hmax, hlam, hone, hdelta, hfin⟩ =>
      finishInit_effect ht hfree (.rlsInit (by omega) hmax hlam hone hdelta hfin)
  | rlsProcess g =>
    exact (execRlsProcess_cases g s).effect h fun ⟨_, hslot, ht⟩ => finishProcess_effect ht hslot (.rlsProcess _ _ _ _)
  | rlsRelease g => exact (execRlsRelease_cases g s).effect h fun ⟨_, ht⟩ => finishRelease_effect ht
  | qpskModulate =>
    refine (execQpskModulate_cases s).effect h ?_
    rintro ⟨_, hout, ht | ht⟩
    · exact (raiseError_effect ht).of_model_fields rfl rfl rfl rfl
    · exact completeOk_mem_effect ht rfl rfl rfl (modulateDone_writes hout)
  | qpskDemodulate =>
    exact (execQpskDemodulate_cases s).effect h fun ⟨hbits, hcons, ht⟩ =>
      completeOk_mem_effect ht rfl rfl rfl (demodulateDone_writes ⟨hbits, hcons⟩)

theorem illegalCommand_effect {s t : State} (h : illegalCommand s = .next t) : CommandEffect s t := by
  cases hf : s.status.fatal with
  | true => exact raiseError_effect (h.symm.trans (guardFatal_fatal hf))
  | false => exact raiseError_effect (h.symm.trans (guardFatal_eq hf))

/-! ## What a step can change -/

/-- What a step does to the block; the inputs and the response, the model's own, are left open. -/
inductive StepEffect (s t : State) : Prop where
  /-- A load, a refused access, or a turn with nothing pending. -/
  | quiet (h : t = { s with inputs := t.inputs, marks := t.marks, response := t.response })
  /-- An admitted store. -/
  | store (width off : Nat) (w : Word) (tgt : Target) (hadm : admitted s.params width off = some tgt)
      (h : t = { writeTarget tgt w s with inputs := t.inputs, response := t.response })
  | reset (rest : List Input) (hin : s.inputs = .reset :: rest) (h : t = { s.resetInput with inputs := t.inputs })
  | command (h : CommandEffect s t)

theorem writeTarget_with_inputs (tgt : Target) (w : Word) (s : State) (is : List Input) :
    writeTarget tgt w { s with inputs := is } = { writeTarget tgt w s with inputs := is } := by
  cases tgt with
  | cmd =>
    simp only [writeTarget, State.writeCmd]
    split <;> rfl
  | _ => rfl

theorem hostLoad_effect (width off : Nat) (s : State) (is : List Input) :
    StepEffect s (hostLoad width off { s with inputs := is }) := by
  refine .quiet ?_
  rw [hostLoad_frame]

theorem hostStore_effect (width off : Nat) (w : Word) (s : State) (is : List Input) :
    StepEffect s (hostStore width off w { s with inputs := is }) := by
  rcases hostAccess_cases width off { s with inputs := is }
    (fun tgt => { writeTarget tgt w { s with inputs := is } with response := some .stored }) with
    ⟨_, he⟩ | ⟨tgt, hadm, ⟨_, _, he⟩ | ⟨_, he⟩⟩ <;> rw [hostStore, he]
  · exact .quiet rfl
  · exact .quiet rfl
  · exact .store width off w tgt hadm (by rw [writeTarget_with_inputs])

theorem coreTurn_effect {s t : State} (is : List Input) (h : coreTurn { s with inputs := is } = .next t) :
    StepEffect s t := by
  cases hp : s.pending with
  | none =>
    simp only [coreTurn, hp, Host.Outcome.next.injEq] at h
    exact .quiet (by rw [← h, hp])
  | some p =>
    refine .command (CommandEffect.of_model_fields (s' := { s with inputs := is }) ?_ rfl rfl rfl rfl)
    cases hd : decode p.word with
    | error e => exact illegalCommand_effect (coreTurn_of_illegal (s := { s with inputs := is }) hp hd ▸ h)
    | ok i => exact exec_effect (coreTurn_of_decode (s := { s with inputs := is }) hp hd ▸ h)

theorem step_effect {s t : State} (h : step s = .next t) : StepEffect s t := by
  rw [step, nextStep] at h
  split at h
  · exact coreTurn_effect s.inputs h
  · next i rest hin =>
    cases i with
    | load width off =>
      cases h
      exact hostLoad_effect width off s rest
    | store width off w =>
      cases h
      exact hostStore_effect width off w s rest
    | reset =>
      cases h
      exact .reset rest hin rfl
    | coreTurn => exact coreTurn_effect rest h
    | wait =>
      simp only [runInput, waitTurn] at h
      split at h
      · exact coreTurn_effect _ h
      · cases h
        exact hostLoad_effect 64 0x010 s rest

/-- A store reaches only words of DMEM (R38). -/
theorem admitted_dmem_lt {p : Config.Params} {width off a : Nat} (h : admitted p width off = some (.dmem a)) :
    a < p.dmemWords := by
  obtain ⟨_, _, h⟩ := admitted_eq_some h
  have hbase : dmemOffset = 0x80000 := rfl
  rw [targetAt] at h
  split_ifs at h <;> cases h
  omega

/-- A store writes no slot and no capacity, and leaves FATAL as it is. -/
theorem writeTarget_frame (tgt : Target) (w : Word) (s : State) :
    (writeTarget tgt w s).params = s.params ∧ (writeTarget tgt w s).slots = s.slots ∧
      (writeTarget tgt w s).status.fatal = s.status.fatal := by
  cases tgt with
  | cmd =>
    simp only [writeTarget, State.writeCmd]
    split <;> exact ⟨rfl, rfl, rfl⟩
  | _ => exact ⟨rfl, rfl, rfl⟩

end Sys2Proof.Machine
end

section
/-! The invariant of the machine (10_state R40, R42, R45 to R49, R54; 00_scope R11): what can be written in a slot has its
engine's shape, and DMEM is written in whole words. -/

namespace Sys2Proof.Machine

/-! ## Slots (R46 to R49) -/

@[simp] theorem length_cascade (k : Nat) (qs : List Section) (x : F64) : (cascade k qs x).1.length = qs.length := by
  induction qs generalizing k x with
  | nil => rfl
  | cons q qs ih => simp [cascade, ih]

theorem FirState.wf_iff {p : Config.Params} {f : FirState} :
    f.wf p = true ↔ (1 ≤ f.n ∧ f.n ≤ p.nMax) ∧ f.c.length = f.n ∧ f.buf.length = f.n ∧ f.pos < f.n := by
  simp [FirState.wf, and_assoc]

theorem IirState.wf_iff {p : Config.Params} {q : IirState} :
    q.wf p = true ↔ (1 ≤ q.s ∧ q.s ≤ p.sMax) ∧ q.sec.length = q.s := by
  simp [IirState.wf]

theorem LmsState.wf_iff {p : Config.Params} {l : LmsState} :
    l.wf p = true ↔ (1 ≤ l.n ∧ l.n ≤ p.nMax) ∧ l.w.length = l.n ∧ l.buf.length = l.n ∧ l.pos < l.n ∧
      F64.lt F64.zero l.mu = true ∧ F64.isFinite l.mu = true := by
  simp [LmsState.wf, and_assoc]

theorem RlsState.wf_iff {p : Config.Params} {r : RlsState} :
    r.wf p = true ↔ (1 ≤ r.n ∧ r.n ≤ p.nMax) ∧ r.w.length = r.n ∧ r.buf.length = r.n ∧ r.pos < r.n ∧
      (r.p.length = r.n ∧ ∀ row ∈ r.p, row.length = r.n) ∧
      (F64.lt F64.zero r.lam = true ∧ F64.le r.lam F64.one = true) ∧
      F64.lt F64.zero r.delta = true ∧ F64.isFinite r.delta = true := by
  simp [RlsState.wf, and_assoc]

theorem FirState.push_wf {p : Config.Params} {f : FirState} (h : f.wf p = true) (x : F64) : (f.push x).wf p = true := by
  rw [FirState.wf_iff] at h ⊢
  obtain ⟨hn, hc, hbuf, _⟩ := h
  exact ⟨hn, hc, by simpa [FirState.push] using hbuf, Nat.mod_lt _ hn.1⟩

theorem LmsState.sample_wf {p : Config.Params} {l : LmsState} (h : l.wf p = true) (k : Nat) (x d : F64) :
    (l.sample k x d).1.wf p = true := by
  rw [LmsState.wf_iff] at h ⊢
  obtain ⟨hn, _, hbuf, _, hmu⟩ := h
  exact ⟨hn, by simp [LmsState.sample, LmsState.updated], by simpa [LmsState.sample] using hbuf, Nat.mod_lt _ hn.1, hmu⟩

theorem RlsState.sample_wf {p : Config.Params} {r : RlsState} (h : r.wf p = true) (k : Nat) (x d : F64) :
    (r.sample k x d).1.wf p = true := by
  rw [RlsState.wf_iff] at h ⊢
  obtain ⟨hn, _, hbuf, _, _, hparams⟩ := h
  refine ⟨hn, ?_, ?_, Nat.mod_lt _ hn.1, ?_, hparams⟩
  · simp [RlsState.sample, RlsState.newWeights]
  · simpa [RlsState.sample] using hbuf
  · simp [RlsState.sample, RlsState.newP]

/-- Whatever a command leaves in a slot has the shape of its engine's record, if what it found there had. -/
theorem Slot.Rewrites.wf {p : Config.Params} {u v : Slot} (h : Slot.Rewrites p u v) (hu : u.wf p = true) :
    v.wf p = true := by
  cases h with
  | release => rfl
  | firInit hpos hmax hc => exact FirState.wf_iff.2 ⟨⟨hpos, hmax⟩, hc, List.length_replicate, hpos⟩
  | firProcess f x => exact FirState.push_wf hu x
  | iirInit b a hpos hmax => exact IirState.wf_iff.2 ⟨⟨hpos, hmax⟩, by simp [IirState.fresh]⟩
  | iirSetSection q i g =>
    obtain ⟨hs, hlen⟩ := IirState.wf_iff.1 hu
    exact IirState.wf_iff.2 ⟨hs, by simpa using hlen⟩
  | iirProcess q k x =>
    obtain ⟨hs, hlen⟩ := IirState.wf_iff.1 hu
    exact IirState.wf_iff.2 ⟨hs, by simpa using hlen⟩
  | lmsInit hpos hmax hmu hfin =>
    exact LmsState.wf_iff.2 ⟨⟨hpos, hmax⟩, List.length_replicate, List.length_replicate, hpos, hmu, hfin⟩
  | lmsProcess l k x d => exact LmsState.sample_wf hu k x d
  | rlsInit hpos hmax hlam hone hdelta hfin =>
    exact RlsState.wf_iff.2 ⟨⟨hpos, hmax⟩, List.length_replicate, List.length_replicate, hpos,
      by simp [RlsState.fresh, diagonal], ⟨hlam, hone⟩, hdelta, hfin⟩
  | rlsProcess r k x d => exact RlsState.sample_wf hu k x d

theorem State.Inv.slot_wf {s : State} (h : s.Inv) (g : Nat) : (s.slot g).wf s.params = true := by
  rw [State.slot, List.getD_eq_getElem?_getD]
  cases hg : s.slots[g]? with
  | none => rfl
  | some v => exact h.slotShapes v (List.mem_of_getElem? hg)

/-! ## Memory (R42) -/

/-- Memory in canonical form, made of whole words of DMEM: what the invariant says of memory. -/
structure Memory.Whole (p : Config.Params) (m : List Host.Cell) : Prop where
  canonical : Memory.wf m
  words : ∀ c ∈ m, c.1 < 8 * p.dmemWords ∧ (Memory.word m (c.1 / 8)).isSome = true

theorem Memory.WordWrite.whole {p : Config.Params} {m m' : List Host.Cell} (h : Memory.WordWrite p m m')
    (hm : Memory.Whole p m) : Memory.Whole p m' := by
  obtain ⟨a, w, ha, rfl⟩ := h
  refine ⟨Memory.putWord_wf hm.canonical a w, fun c hc => ?_⟩
  by_cases hca : c.1 / 8 = a
  · exact ⟨by omega, by rw [hca, Memory.word_putWord_same, Option.isSome_some]⟩
  · have hbyte := Memory.byte_isSome_of_mem hc
    rw [Memory.byte_putWord, if_neg (by omega)] at hbyte
    obtain ⟨b, hb⟩ := Memory.exists_mem_of_byte hbyte
    rw [Memory.word_putWord_other w hca]
    exact hm.words (c.1, b) hb

theorem Memory.Whole.of_writes {p : Config.Params} {m m' : List Host.Cell} (hm : Memory.Whole p m)
    (h : Relation.ReflTransGen (Memory.WordWrite p) m m') : Memory.Whole p m' := by
  induction h with
  | refl => exact hm
  | tail _ hw ih => exact hw.whole ih

/-! ## Steps -/

theorem State.Inv.memory_whole {s : State} (h : s.Inv) : Memory.Whole s.params s.mem := ⟨h.memory, h.wholeWords⟩

/-- The fields the invariant is not about do not matter. -/
theorem State.Inv.of_fields {s t : State} (h : s.Inv) (hparams : t.params = s.params)
    (hmem : Memory.Whole s.params t.mem) (hslots : t.slots = s.slots)
    (hbusy : t.status.busy = t.pending.isSome) : t.Inv where
  legal := hparams ▸ h.legal
  memory := hmem.canonical
  wholeWords := hparams ▸ hmem.words
  slotCount := by rw [hslots, hparams, h.slotCount]
  slotShapes := by rw [hslots, hparams]; exact h.slotShapes
  pendingWhileBusy := hbusy

theorem State.powerOn_inv {p : Config.Params} (hp : p.legal) : (State.powerOn p).Inv where
  legal := hp
  memory := State.powerOn_wf p
  wholeWords := by simp [State.powerOn]
  slotCount := List.length_replicate
  slotShapes v hv := by rw [List.eq_of_mem_replicate hv]; rfl
  pendingWhileBusy := rfl

theorem State.writeCmd_inv {s : State} (h : s.Inv) (w : Word) : (s.writeCmd w).Inv := by
  simp only [State.writeCmd]
  split
  · exact h.of_fields rfl h.memory_whole rfl h.pendingWhileBusy
  · exact h.of_fields rfl h.memory_whole rfl rfl

theorem writeTarget_inv {s : State} {tgt : Target} (h : s.Inv) (w : Word)
    (htgt : ∀ a, tgt = .dmem a → a < s.params.dmemWords) : (writeTarget tgt w s).Inv := by
  cases tgt with
  | cmd => exact State.writeCmd_inv h w
  | dmem a =>
    have hwrite : Memory.WordWrite s.params s.mem (Memory.putWord s.mem a w) := ⟨a, w, htgt a rfl, rfl⟩
    exact h.of_fields rfl (hwrite.whole h.memory_whole) rfl h.pendingWhileBusy
  | _ => exact h.of_fields rfl h.memory_whole rfl h.pendingWhileBusy

theorem CommandEffect.inv {s t : State} (e : CommandEffect s t) (h : s.Inv) : t.Inv := by
  have hmem := h.memory_whole.of_writes e.mem
  have hbusy : t.status.busy = t.pending.isSome := by rw [e.busy, e.pending, Option.isSome_none]
  rcases e.slots with hslots | ⟨g, v, hv, hslots⟩
  · exact h.of_fields e.params hmem hslots hbusy
  · have hshapes : ∀ u ∈ s.slots.set g v, u.wf s.params = true := fun u hu =>
      (List.mem_or_eq_of_mem_set hu).elim (h.slotShapes u) fun huv => huv ▸ hv.wf (h.slot_wf g)
    exact
      { legal := e.params ▸ h.legal
        memory := hmem.canonical
        wholeWords := e.params ▸ hmem.words
        slotCount := by rw [hslots, e.params, List.length_set, h.slotCount]
        slotShapes := by rw [hslots, e.params]; exact hshapes
        pendingWhileBusy := hbusy }

/-- Settles O24: by the kinds of steps; a command keeps the shapes by `Slot.Rewrites.wf` and writes whole words of DMEM. -/
theorem stepKeepsTheInvariant : Obligations.StepKeepsTheInvariant := by
  intro s t h hstep
  cases step_effect hstep with
  | quiet ht =>
    rw [ht]
    exact h.of_fields rfl h.memory_whole rfl h.pendingWhileBusy
  | store width off w tgt hadm ht =>
    have hw := writeTarget_inv h w fun a ha => admitted_dmem_lt (hadm.trans (congrArg some ha))
    rw [ht]
    exact hw.of_fields rfl hw.memory_whole rfl hw.pendingWhileBusy
  | reset rest _ ht =>
    have hr := State.powerOn_inv h.legal
    rw [ht]
    exact hr.of_fields rfl hr.memory_whole rfl rfl
  | command he => exact he.inv h

/-- Settles O25: the capacities of R11 are legal, and nothing is written, occupied or pending after power-on. -/
theorem powerOnMeetsTheInvariant : Obligations.PowerOnMeetsTheInvariant :=
  ⟨State.powerOn_inv (by decide), fun _ hp => State.powerOn_inv hp⟩

end Sys2Proof.Machine
end

section
/-! What else every step keeps: FATAL (10_state R36, 40_command R134) and the symmetry of P (10_state R49, 44_rls R231). -/

namespace Sys2Proof.Machine

/-- Settles O27: no store and no command clears FATAL. -/
theorem onlyResetClearsFatal : Obligations.OnlyResetClearsFatal := by
  intro s t hfatal hstep hreset
  cases step_effect hstep with
  | quiet ht => rw [ht]; exact hfatal
  | store width off w tgt _ ht =>
    obtain ⟨_, _, hkept⟩ := writeTarget_frame tgt w s
    rw [ht]
    exact hkept.trans hfatal
  | reset rest hin _ => exact absurd hin (hreset rest)
  | command he => exact he.fatal hfatal

/-! ## Equal values, where all NaNs are one value -/

/-- The same binary64 value, or both NaN (R49). -/
def F64.Same (x y : F64) : Prop := x = y ∨ (F64.isNaN x = true ∧ F64.isNaN y = true)

theorem F64.isNaN_add_of_left {x : F64} (y : F64) (h : F64.isNaN x = true) : F64.isNaN (F64.add x y) = true := by
  rw [F64.add, h, Bool.true_or, if_pos rfl]
  decide

theorem F64.isNaN_div_of_left {x : F64} (y : F64) (h : F64.isNaN x = true) : F64.isNaN (F64.div x y) = true := by
  simp only [F64.div, h, Bool.true_or, if_true]
  decide

theorem F64.Same.sub_right {x y : F64} (h : F64.Same x y) (z : F64) : F64.Same (F64.sub x z) (F64.sub y z) :=
  h.imp (fun e => by rw [e]) fun ⟨hx, hy⟩ => ⟨F64.isNaN_add_of_left _ hx, F64.isNaN_add_of_left _ hy⟩

theorem F64.Same.div_right {x y : F64} (h : F64.Same x y) (z : F64) : F64.Same (F64.div x z) (F64.div y z) :=
  h.imp (fun e => by rw [e]) fun ⟨hx, hy⟩ => ⟨F64.isNaN_div_of_left z hx, F64.isNaN_div_of_left z hy⟩

/-- Two NaN results may be stored with different bits, so the draws do not matter. -/
theorem F64.Same.settle {x y : F64} (h : F64.Same x y) (j k : Nat) : F64.Same (F64.settle j x) (F64.settle k y) := by
  rcases h with rfl | ⟨hx, hy⟩
  · cases hx : F64.isNaN x with
    | false => exact .inl (by rw [F64.settle_of_not_nan hx, F64.settle_of_not_nan hx])
    | true => exact .inr (by simp [hx])
  · exact .inr (by simp [hx, hy])

/-! ## The matrix P -/

theorem entry_map_range {n : Nat} (f : Nat → Nat → F64) {i j : Nat} (hi : i < n) (hj : j < n) :
    entry ((List.range n).map fun i => (List.range n).map (f i)) i j = f i j := by
  simp [entry, List.getD_eq_getElem?_getD, hi, hj]

theorem RlsState.fresh_symmetric (n : Nat) (lam delta : F64) : (RlsState.fresh n lam delta).symmetric := by
  intro i j hi hj
  have hentry {i j : Nat} (hi : i < n) (hj : j < n) :
      entry (diagonal n (F64.div F64.one delta)) i j = if i = j then F64.div F64.one delta else F64.zero :=
    entry_map_range _ hi hj
  refine .inl ?_
  simp only [RlsState.fresh, hentry hi hj, hentry hj hi, eq_comm]

/-- Step 7 of R231 treats row i, column j and row j, column i alike: `k[i] · k[j] = k[j] · k[i]` (C18). -/
theorem RlsState.newEntry_same {r : RlsState} (h : r.symmetric) (k : List F64) (denom : F64) {i j : Nat} (hi : i < r.n)
    (hj : j < r.n) : F64.Same (r.newEntry k denom i j) (r.newEntry k denom j i) := by
  rw [RlsState.newEntry, RlsState.newEntry, F64.mul_comm (k.getD j F64.zero)]
  exact (F64.Same.sub_right (h i j hi hj) _).div_right _

theorem RlsState.sample_symmetric {r : RlsState} (h : r.symmetric) (k : Nat) (x d : F64) :
    (r.sample k x d).1.symmetric := by
  intro i j hi hj
  simp only [RlsState.sample, RlsState.newP] at hi hj ⊢
  rw [entry_map_range _ hi hj, entry_map_range _ hj hi]
  exact (RlsState.newEntry_same h _ _ hi hj).settle _ _

/-- The matrix P of a slot is symmetric, where it holds one. -/
def Slot.Symmetric (v : Slot) : Prop := ∀ r, v = .rls r → r.symmetric

theorem Slot.Rewrites.symmetric {p : Config.Params} {u v : Slot} (h : Slot.Rewrites p u v) (hu : u.Symmetric) :
    v.Symmetric := by
  rintro r rfl
  cases h with
  | rlsInit => exact RlsState.fresh_symmetric _ _ _
  | rlsProcess r k x d => exact RlsState.sample_symmetric (hu r rfl) k x d

theorem CommandEffect.symmetric {s t : State} (e : CommandEffect s t) (h : ∀ g, (s.slot g).Symmetric) (g : Nat) :
    (t.slot g).Symmetric := by
  rcases e.slots with hslots | ⟨g', v, hv, hslots⟩
  · rw [State.slot, hslots]
    exact h g
  · have ht : t.slot g = (s.setSlot g' v).slot g := by rw [State.slot, hslots]; rfl
    rw [ht]
    by_cases hg : g = g'
    · subst hg
      rcases Nat.lt_or_ge g s.slots.length with hlt | hge
      · rw [State.slot_setSlot_same hlt]
        exact hv.symmetric (h g)
      · rw [State.slot, State.setSlot_slots, List.set_eq_of_length_le hge]
        exact h g
    · rw [State.slot_setSlot_other hg]
      exact h g

/-- No slot is occupied where all that are listed are FREE. -/
theorem State.slot_eq_free {s : State} {n : Nat} (hs : s.slots = List.replicate n .free) (g : Nat) :
    s.slot g = .free := by
  rw [State.slot, hs, List.getD_eq_getElem?_getD, List.getElem?_replicate]
  split <;> rfl

/-- Settles O28: only RLS_INIT and RLS_PROCESS write a matrix, and both write a symmetric one. -/
theorem stepKeepsCovarianceSymmetric : Obligations.StepKeepsCovarianceSymmetric := by
  intro s t h hstep
  have hsym (g : Nat) : (s.slot g).Symmetric := fun r => h g r
  suffices ∀ g, (t.slot g).Symmetric from fun g r => this g r
  intro g
  cases step_effect hstep with
  | quiet ht => rw [ht]; exact hsym g
  | store width off w tgt _ ht =>
    obtain ⟨_, hslots, _⟩ := writeTarget_frame tgt w s
    rw [ht, State.slot, hslots]
    exact hsym g
  | reset rest _ ht =>
    have hfree : t.slot g = .free := State.slot_eq_free (by rw [ht]; exact s.resetInput_slots) g
    rw [hfree]
    rintro r ⟨⟩
  | command he => exact he.symmetric hsym g

end Sys2Proof.Machine
end

section
/-! Host accesses (10_state R31 to R38, R42; 20_memory R76): what stands at the offset of each register and DMEM word, what
an admitted load or store does in one step, and the values after power-on (R54). -/

namespace Sys2Proof.Machine

/-! ## One access, one step -/

theorem step_store {s : State} {off : Nat} {w : Word} {rest : List Input} {tgt : Target}
    (hin : s.inputs = .store 64 off w :: rest) (hadm : admitted s.params 64 off = some tgt)
    (hsafe : s.status.busy = false ∨ tgt.hazardous = false) :
    step s = .next { writeTarget tgt w s with inputs := rest, response := some .stored } := by
  have hgo : (s.status.busy && tgt.hazardous) = false := by rcases hsafe with h | h <;> simp [h]
  simp only [step, nextStep, hin, runInput, hostStore, hostAccess, hadm, hgo, writeTarget_with_inputs, Bool.false_eq_true,
    if_false]

theorem readTarget_with_inputs (tgt : Target) (s : State) (is : List Input) :
    readTarget tgt { s with inputs := is } = readTarget tgt s := by
  cases tgt <;> rfl

theorem step_load {s : State} {off : Nat} {rest : List Input} {tgt : Target}
    (hin : s.inputs = .load 64 off :: rest) (hadm : admitted s.params 64 off = some tgt)
    (hsafe : s.status.busy = false ∨ tgt.hazardous = false) :
    step s = .next { s with inputs := rest, response := some (.data (readTarget tgt s)) } := by
  have hgo : (s.status.busy && tgt.hazardous) = false := by rcases hsafe with h | h <;> simp [h]
  simp only [step, nextStep, hin, runInput, hostLoad, hostAccess, hadm, hgo, readTarget_with_inputs, Bool.false_eq_true,
    if_false]

/-! ## The map (R38) -/

theorem admitted_arg (p : Config.Params) {k : Nat} (hk : k < 8) : admitted p 64 (0x040 + 8 * k) = some (.arg k) := by
  interval_cases k <;> rfl

theorem admitted_dmem {p : Config.Params} {a : Nat} (ha : a < p.dmemWords) :
    admitted p 64 (0x80000 + 8 * a) = some (.dmem a) := by
  have hbase : dmemOffset = 0x80000 := rfl
  rw [admitted, if_pos ⟨rfl, by omega⟩, targetAt]
  repeat rw [if_neg (by omega)]
  rw [if_pos (by omega), hbase, Nat.add_sub_cancel_left, Nat.mul_div_cancel_left a (by decide)]

/-! ## Stores, then loads -/

theorem Args.get_set_same (a : Args) (v : Word) {k : Nat} (hk : k < 8) : (a.set k v).get k = v := by
  interval_cases k <;> rfl

theorem Args.get_set_other (a : Args) (v : Word) {j k : Nat} (hj : j < 8) (hk : k < 8) (hne : j ≠ k) :
    (a.set k v).get j = a.get j := by
  interval_cases k <;> interval_cases j <;> simp_all [Args.get, Args.set]

/-- Settles O17: offset 0x040 + 8k is ARG k, for the store and for the load. -/
theorem argStoreThenLoad : Obligations.ArgStoreThenLoad := by
  intro s k v rest hk hbusy hin
  have hadm := admitted_arg s.params hk
  refine ⟨_, _, step_store hin hadm (.inl hbusy), step_load rfl hadm (.inl hbusy), ?_, rfl, fun j hj hne => ?_, rfl⟩
  · exact congrArg (some ∘ Response.data) (s.args.get_set_same v hk)
  · exact s.args.get_set_other v hj hk hne

/-- Settles O18: offset 0x80000 + 8a is DMEM word a, whose bytes alone a store there writes. -/
theorem dmemStoreThenLoad : Obligations.DmemStoreThenLoad := by
  intro s a v rest ha hbusy hin
  have hadm := admitted_dmem ha
  have hword := Memory.word_putWord_same s.mem a v
  refine ⟨_, _, step_store hin hadm (.inl hbusy), step_load rfl hadm (.inl hbusy), ?_, ?_, rfl, fun x hx => ?_, rfl⟩
  · simp [readTarget, State.wordRead, writeTarget, Memory.putWords, hword]
  · simp [State.written, writeTarget, Memory.putWords, hword]
  · exact Memory.byte_putWords_outside (by simpa [Nat.mul_add] using hx)

/-- CTRL reads bit 0 of the word written (R32). -/
theorem ctrlWord_ctrlWrite (w : Word) : ctrlWord (ctrlWrite w) = w &&& 1 := by
  refine BitVec.eq_of_getLsbD_eq fun i _ => ?_
  simp only [ctrlWord, ctrlWrite, BitVec.getLsbD_append, BitVec.getLsbD_ofBool, BitVec.getLsbD_zero, BitVec.getLsbD_and]
  rcases Nat.eq_zero_or_pos i with rfl | hi
  · simp
  · simp [BitVec.getLsbD_one, Nat.ne_of_gt hi]

/-- Settles O20: CTRL holds bit 0 of what is stored. -/
theorem ctrlStoreThenLoad : Obligations.CtrlStoreThenLoad := by
  intro s w rest hin
  exact ⟨_, _, step_store hin rfl (.inr rfl), step_load rfl rfl (.inr rfl),
    congrArg (some ∘ Response.data) (ctrlWord_ctrlWrite w), rfl, rfl⟩

/-- Settles O16: the stores are admitted and their targets ignore them. -/
theorem readOnlyRegistersIgnoreStores : Obligations.ReadOnlyRegistersIgnoreStores := by
  rintro s off w rest hin (rfl | ⟨hbusy, rfl | rfl⟩)
  · exact step_store (tgt := .id) hin rfl (.inr rfl)
  · exact step_store (tgt := .res0) hin rfl (.inl hbusy)
  · exact step_store (tgt := .res1) hin rfl (.inl hbusy)

/-! ## STATUS (R36) -/

/-- Bits 4:0 of STATUS. -/
theorem Status.getLsbD_word_flags (s : Status) :
    s.word.getLsbD 0 = s.busy ∧ s.word.getLsbD 1 = s.done ∧ s.word.getLsbD 2 = s.ovr ∧ s.word.getLsbD 3 = s.nf ∧
      s.word.getLsbD 4 = s.emptyWin := by
  simp only [Status.word, BitVec.getLsbD_append, BitVec.getLsbD_ofBool]
  simp

/-- A host write leaves FATAL, ERR and the reserved bits as they are. -/
theorem Status.getLsbD_word_clearOnes (s : Status) (w : Word) {i : Nat} (hi : 5 ≤ i) :
    (s.clearOnes w).word.getLsbD i = s.word.getLsbD i := by
  obtain ⟨j, rfl⟩ := Nat.exists_eq_add_of_le' hi
  simp only [Status.word, BitVec.getLsbD_append, BitVec.getLsbD_ofBool]
  simp

theorem Status.clearOnes_word (s : Status) (w : Word) : (s.clearOnes w).word = s.word &&& ~~~(w &&& 0x1E#64) := by
  refine BitVec.eq_of_getLsbD_eq fun i hi => ?_
  rcases Nat.lt_or_ge i 5 with hlt | hge
  · have hs := s.getLsbD_word_flags
    have ht := (s.clearOnes w).getLsbD_word_flags
    interval_cases i <;> simp only [BitVec.getLsbD_and, BitVec.getLsbD_not, hs, ht] <;> simp
  · have hmask : (0x1E#64).getLsbD i = false := by
      rw [← BitVec.testBit_toNat]
      exact Nat.testBit_lt_two_pow (lt_of_lt_of_le (by decide) (Nat.pow_le_pow_right two_pos hge))
    rw [s.getLsbD_word_clearOnes w hge, BitVec.getLsbD_and, BitVec.getLsbD_not, BitVec.getLsbD_and, hmask]
    simp [hi]

/-- Settles O19: what is stored is `Status.clearOnes`. -/
theorem statusStoreClearsOnes : Obligations.StatusStoreClearsOnes :=
  fun s w _ hin => ⟨_, step_store hin rfl (.inr rfl), s.status.clearOnes_word w, rfl⟩

theorem toNat_append_eq_add {m n : Nat} (x : BitVec m) (y : BitVec n) :
    (x ++ y).toNat = x.toNat * 2 ^ n + y.toNat := by
  rw [BitVec.toNat_append, ← Nat.shiftLeft_add_eq_or_of_lt y.isLt, Nat.shiftLeft_eq]

/-- STATUS as a number. -/
theorem Status.toNat_word (s : Status) :
    s.word.toNat = s.busy.toNat + 2 * s.done.toNat + 4 * s.ovr.toNat + 8 * s.nf.toNat + 16 * s.emptyWin.toNat +
      32 * s.fatal.toNat + 256 * s.err.byte.toNat := by
  simp only [Status.word, toNat_append_eq_add, BitVec.toNat_ofBool, BitVec.toNat_zero]
  omega

/-! ## Register loads -/

theorem Args.get_of_list (a : Args) {k : Nat} {v : Word}
    (h : [a.arg0, a.arg1, a.arg2, a.arg3, a.arg4, a.arg5, a.arg6, a.arg7][k]? = some v) : k < 8 ∧ a.get k = v := by
  obtain ⟨hk, hv⟩ := List.getElem?_eq_some_iff.1 h
  refine ⟨hk, ?_⟩
  rw [← hv]
  change k < 8 at hk
  interval_cases k <;> rfl

/-- Settles O15: each offset admits the load of its register, and STATUS reads as the number `Status.toNat_word`. -/
theorem registerLoadsReturnTheRegisters : Obligations.RegisterLoadsReturnTheRegisters := by
  intro s off v rest hin number hv
  have hnumber : number = s.status.err.byte.toNat := by
    simp only [number]
    cases s.status.err <;> rfl
  rcases hv with ⟨rfl, rfl⟩ | ⟨rfl, rfl⟩ | ⟨rfl, hv⟩ | ⟨rfl, rfl⟩ | ⟨rfl, hbusy, rfl⟩ | ⟨rfl, hbusy, rfl⟩ |
    ⟨hbusy, k, rfl, hv⟩
  · exact step_load (tgt := .id) hin rfl (.inr rfl)
  · have hctrl : ctrlWord s.ie = if s.ie then 1 else 0 := by cases s.ie <;> rfl
    rw [← hctrl]
    exact step_load (tgt := .ctrl) hin rfl (.inr rfl)
  · rw [hnumber, ← Status.toNat_word] at hv
    rw [BitVec.eq_of_toNat_eq hv]
    exact step_load (tgt := .status) hin rfl (.inr rfl)
  · exact step_load (tgt := .cmd) hin rfl (.inr rfl)
  · exact step_load (tgt := .res0) hin rfl (.inl hbusy)
  · exact step_load (tgt := .res1) hin rfl (.inl hbusy)
  · obtain ⟨hk, rfl⟩ := Args.get_of_list _ hv
    exact step_load (tgt := .arg k) hin (admitted_arg _ hk) (.inl hbusy)

/-! ## Reset (R54, R368) -/

/-- Settles O23: the values are those of `State.powerOn`, which the reset input takes over. -/
theorem resetStateHasTheResetValues : Obligations.ResetStateHasTheResetValues := by
  refine ⟨rfl, by decide, rfl, rfl, fun k hk => ?_, rfl, rfl, State.slot_eq_free rfl, fun a => rfl, rfl,
    State.powerOn_cleanEntry, fun s t rest hin hmarks hstep => ?_⟩
  · interval_cases k <;> rfl
  · simp only [step, nextStep, hin, runInput, Host.Outcome.next.injEq] at hstep
    rw [← hstep]
    exact State.resetInput_cleanEntry hmarks

end Sys2Proof.Machine
end

section
/-! Commands and the live ARG registers (10_state R40, 30_encoding R107): every operation a command is made of commutes with
a change of ARG0 to ARG7, and its operands are PENDING's. -/

namespace Sys2Proof.Machine

/-- The state with other values in ARG0 to ARG7. -/
def State.withArgs (a : Args) (s : State) : State := { s with args := a }

/-- An answer with other values in ARG0 to ARG7 of its next state. -/
def answerWithArgs (a : Args) : Answer → Answer
  | .next s => .next (s.withArgs a)
  | .fault r => .fault r
  | .refused r => .refused r

section
variable (a : Args) (s : State)

@[simp] theorem State.withArgs_params : (s.withArgs a).params = s.params := rfl
@[simp] theorem State.withArgs_draws : (s.withArgs a).draws = s.draws := rfl
@[simp] theorem State.withArgs_slot (h : Nat) : (s.withArgs a).slot h = s.slot h := rfl
@[simp] theorem State.withArgs_inRange (b n : Nat) : (s.withArgs a).inRange b n = s.inRange b n := rfl
@[simp] theorem State.withArgs_readWords (b n : Nat) : (s.withArgs a).readWords b n = s.readWords b n := rfl
@[simp] theorem State.withArgs_noteReads (b n : Nat) : (s.withArgs a).noteReads b n = (s.noteReads b n).withArgs a := rfl
@[simp] theorem State.withArgs_setSlot (h : Nat) (v : Slot) : (s.withArgs a).setSlot h v = (s.setSlot h v).withArgs a := rfl

@[simp] theorem raiseError_withArgs (c : Code) : raiseError c (s.withArgs a) = answerWithArgs a (raiseError c s) := rfl
@[simp] theorem completeOk_withArgs : completeOk (s.withArgs a) = answerWithArgs a (completeOk s) := rfl
@[simp] theorem finishInit_withArgs (h : Nat) (v : Slot) :
    finishInit h v (s.withArgs a) = answerWithArgs a (finishInit h v s) := rfl
@[simp] theorem finishRelease_withArgs (h : Nat) : finishRelease h (s.withArgs a) = answerWithArgs a (finishRelease h s) := rfl
@[simp] theorem finishProcess_withArgs (h drawn : Nat) (v : Slot) (y : F64) :
    finishProcess h v y drawn (s.withArgs a) = answerWithArgs a (finishProcess h v y drawn s) := rfl

@[simp] theorem ite_withArgs (c : Prop) [Decidable c] (r r' : Answer) :
    (if c then answerWithArgs a r else answerWithArgs a r') = answerWithArgs a (if c then r else r') :=
  (apply_ite (answerWithArgs a) c r r').symm

@[simp] theorem guardFatal_withArgs (k : Answer) :
    guardFatal (s.withArgs a) (answerWithArgs a k) = answerWithArgs a (guardFatal s k) :=
  ite_withArgs a (s.status.fatal = true) (raiseError .fatal s) k

@[simp] theorem withEngine_withArgs {α : Type} (kind : Slot → Option α) (h : Nat) (k : α → Answer) :
    withEngine kind h (s.withArgs a) (fun e => answerWithArgs a (k e)) = answerWithArgs a (withEngine kind h s k) := by
  cases he : kind (s.slot h) <;> simp [withEngine, he]

@[simp] theorem withFreeSlot_withArgs (k : Nat → Answer) :
    withFreeSlot (s.withArgs a) (fun h => answerWithArgs a (k h)) = answerWithArgs a (withFreeSlot s k) := by
  have hfree : (s.withArgs a).freeSlot = s.freeSlot := rfl
  cases hs : s.freeSlot <;> simp [withFreeSlot, hfree, hs]

end

theorem State.operands_withArgs {s : State} {p : Pending} (hp : s.pending = some p) (a : Args) :
    (s.withArgs a).operands = s.operands := by
  have hp' : (s.withArgs a).pending = some p := hp
  rw [State.operands, State.operands, hp, hp']

/-- Where a modem command completes, its next state is a record update, and both sides unfold to the same one. -/
theorem exec_withArgs (i : Instr) {s : State} {p : Pending} (hp : s.pending = some p) (a : Args) :
    exec i (s.withArgs a) = answerWithArgs a (exec i s) := by
  have hops := State.operands_withArgs hp a
  cases i with
  | firInit => simp [exec, execFirInit, hops]
  | firProcess h => simp [exec, execFirProcess, hops]
  | firRelease h => simp [exec, execFirRelease]
  | iirInit => simp [exec, execIirInit, hops]
  | iirSetSection h => simp [exec, execIirSetSection, hops]
  | iirProcess h => simp [exec, execIirProcess, hops]
  | iirRelease h => simp [exec, execIirRelease]
  | lmsInit => simp [exec, execLmsInit, hops]
  | lmsProcess h => simp [exec, execLmsProcess, hops]
  | lmsRelease h => simp [exec, execLmsRelease]
  | rlsInit => simp [exec, execRlsInit, hops]
  | rlsProcess h => simp [exec, execRlsProcess, hops]
  | rlsRelease h => simp [exec, execRlsRelease]
  | qpskModulate =>
    rw [exec, exec, execQpskModulate, execQpskModulate, hops, ← guardFatal_withArgs]
    simp only [apply_ite (answerWithArgs a)]
    rfl
  | qpskDemodulate =>
    rw [exec, exec, execQpskDemodulate, execQpskDemodulate, hops, ← guardFatal_withArgs]
    simp only [apply_ite (answerWithArgs a)]
    rfl

/-- Settles O32: `exec` commutes with a change of the live registers. -/
theorem commandsReadTheSnapshotOnly : Obligations.CommandsReadTheSnapshotOnly :=
  fun i _ _ _ a hp h => (exec_withArgs i hp a).trans (congrArg (answerWithArgs a) h)

end Sys2Proof.Machine
end

section
/-! Reads of DMEM (20_memory R76, R80; 60_exceptions R330): a host load answers and leaves the block alone, and a command
that reads words never written leaves the mark UNWRITTEN_READ. -/

namespace Sys2Proof.Machine

/-! ## Host loads (R76) -/

theorem step_load_eq_hostLoad {s : State} {width off : Nat} {rest : List Input} (hin : s.inputs = .load width off :: rest) :
    step s = .next (hostLoad width off { s with inputs := rest }) := by
  simp only [step, nextStep, hin, runInput]

/-- Settles O14: a load is `hostLoad`, which writes a mark and the answer only and does not read what loads write. -/
theorem loadsHaveNoSideEffect : Obligations.LoadsHaveNoSideEffect := by
  intro s width off rest hin
  have hframe := hostLoad_frame width off { s with inputs := rest }
  refine ⟨_, step_load_eq_hostLoad hin, hframe, fun u rest' hu hin' => ⟨_, step_load_eq_hostLoad hin', ?_⟩⟩
  have hsame : { u with inputs := rest' } =
      { { s with inputs := rest } with inputs := rest', marks := u.marks, response := u.response } := by
    rw [hu, hframe]
  rw [hsame, hostLoad_response_congr]

/-! ## What a read leaves in the marks (R80) -/

theorem State.allWritten_eq_false {s : State} {a n : Nat} :
    s.allWritten a n = false ↔ ∃ j, j < n ∧ s.written (a + j) = false := by
  simp [State.allWritten]

theorem State.noteReads_marksUnwrittenRead (s : State) (a n : Nat) :
    s.marksUnwrittenRead (s.noteReads a n) (∃ j, j < n ∧ s.written (a + j) = false) :=
  ⟨rfl, rfl, by simp [← State.allWritten_eq_false]⟩

theorem State.marksUnwrittenRead.trans {s t u : State} {p q : Prop} (hst : s.marksUnwrittenRead t p)
    (htu : t.marksUnwrittenRead u q) : s.marksUnwrittenRead u (p ∨ q) := by
  obtain ⟨hbus, hhazard, hread⟩ := hst
  obtain ⟨hbus', hhazard', hread'⟩ := htu
  exact ⟨hbus'.trans hbus, hhazard'.trans hhazard, by rw [hread', hread, or_assoc]⟩

/-! ## The commands that read DMEM, their checks passed -/

theorem State.inRange_iff {s : State} {a n : Nat} : s.inRange a n = true ↔ a + n ≤ s.params.dmemWords :=
  decide_eq_true_iff

theorem isRate_iff {x : F64} : isRate x = true ↔ F64.lt F64.zero x = true ∧ F64.isFinite x = true :=
  Bool.and_eq_true_iff

/-- FIR_INIT after the checks of R160. -/
theorem exec_firInit_passed {s : State} {h : Nat} (hfatal : s.status.fatal = false)
    (hn : 0 < i64 s.operands.arg0)
    (hc : u64 s.operands.arg1 + (i64 s.operands.arg0).toNat ≤ s.params.dmemWords)
    (hmax : (i64 s.operands.arg0).toNat ≤ s.params.nMax) (hfree : s.freeSlot = some h) :
    exec .firInit s = finishInit h (.fir (FirState.fresh (i64 s.operands.arg0).toNat
      (s.readWords (u64 s.operands.arg1) (i64 s.operands.arg0).toNat)))
      (s.noteReads (u64 s.operands.arg1) (i64 s.operands.arg0).toNat) := by
  have hc := State.inRange_iff.2 hc
  simp [exec, execFirInit, withFreeSlot, hfatal, hn.not_ge, hc, hmax.not_gt, hfree]

/-- IIR_INIT of `n` sections after the checks of R180. -/
theorem exec_iirInit_passed {s : State} {h n : Nat} (hfatal : s.status.fatal = false)
    (hb : (iirInitOperands s.operands).bLen = 3 * (n : Int)) (ha : (iirInitOperands s.operands).aLen = 3 * (n : Int))
    (hn : 0 < n) (hbr : (iirInitOperands s.operands).bAddr + 3 * n ≤ s.params.dmemWords)
    (har : (iirInitOperands s.operands).aAddr + 3 * n ≤ s.params.dmemWords)
    (hmax : n ≤ s.params.sMax) (hfree : s.freeSlot = some h) :
    let o := iirInitOperands s.operands
    let s1 := s.noteReads o.bAddr (3 * n)
    exec .iirInit s = finishInit h (.iir (IirState.fresh n (s.readWords o.bAddr (3 * n)) (s1.readWords o.aAddr (3 * n))))
      (s1.noteReads o.aAddr (3 * n)) := by
  have hbr := State.inRange_iff.2 hbr
  have har := State.inRange_iff.2 har
  have hlen : (3 * (n : Int)).toNat = 3 * n := by omega
  have hpos : ¬3 * (n : Int) ≤ 0 := by omega
  simp [exec, execIirInit, withFreeSlot, hfatal, hb, ha, hlen, hpos, hbr, har, hmax.not_gt, hfree]

/-- QPSK_MODULATE after checks 1 to 5 of R264: the bits are read, then checked. -/
theorem exec_qpskModulate_passed {s : State} (hfatal : s.status.fatal = false) :
    let o := modulateOperands s.operands
    0 < o.numBits → o.numBits % 2 = 0 → isRate o.fc = true → isRate o.fs = true → 0 < o.sps →
      o.bitsAddr + o.numBits.toNat ≤ s.params.dmemWords →
      o.outAddr + 2 * (o.numBits.toNat / 2 * o.sps.toNat) ≤ s.params.dmemWords →
      exec .qpskModulate s =
        if !(s.readWords o.bitsAddr o.numBits.toNat).all isBit then
          raiseError .invalidParam (s.noteReads o.bitsAddr o.numBits.toNat)
        else completeOk (modulateDone s) := by
  intro o hnb heven hfc hfs hsps hbits hout
  have hbits := State.inRange_iff.2 hbits
  have hout := State.inRange_iff.2 hout
  rw [exec, execQpskModulate, guardFatal_eq hfatal, if_neg (not_or.2 ⟨hnb.not_ge, not_not.2 heven⟩),
    if_neg (by simp [o, hfc, hfs]), if_neg hsps.not_ge, if_neg (by simp [o, hbits]), if_neg (by simp [o, hout])]
  rfl

/-- QPSK_DEMODULATE after the checks of R280. -/
theorem exec_qpskDemodulate_passed {s : State} (hfatal : s.status.fatal = false) :
    let o := demodulateOperands s.operands
    let m := ceilDiv (o.length.toNat - clampedDelay o.length o.delay) o.sps.toNat
    0 < o.length → isRate o.fc = true → isRate o.fs = true → 0 < o.sps → 0 ≤ o.delay →
      o.inAddr + 2 * o.length.toNat ≤ s.params.dmemWords → o.bitsAddr + 2 * m ≤ s.params.dmemWords →
      o.consAddr + 2 * m ≤ s.params.dmemWords → exec .qpskDemodulate s = completeOk (demodulateDone s) := by
  intro o m hlen hfc hfs hsps hdelay hin hbits hcons
  have hin := State.inRange_iff.2 hin
  have hbits := State.inRange_iff.2 hbits
  have hcons := State.inRange_iff.2 hcons
  rw [exec, execQpskDemodulate, guardFatal_eq hfatal, if_neg hlen.not_ge, if_neg (by simp [o, hfc, hfs]),
    if_neg hsps.not_ge, if_neg hdelay.not_gt, if_neg (by simp [o, hin]), if_neg (by simp [o, m, hbits, hcons])]
  rfl

/-! ## The commands that read no DMEM -/

theorem raiseError_marks {s t : State} {c : Code} (h : .next t = raiseError c s) : t.marks = s.marks := by
  cases h
  rfl

theorem completeOk_marks {s s' t : State} (h : .next t = completeOk s') (hmarks : s'.marks = s.marks) :
    t.marks = s.marks := by
  cases h
  exact hmarks

theorem EndsOr.marks {s t : State} {P : Answer → Prop} {r : Answer} (h : EndsOr s P r) (hr : r = .next t)
    (hP : P (.next t) → t.marks = s.marks) : t.marks = s.marks := by
  subst hr
  rcases h with ⟨_, _, he⟩ | h
  · exact raiseError_marks he
  · exact hP h

theorem exec_keeps_marks {i : Instr} {s t : State}
    (hi : i ∉ [Instr.firInit, .iirInit, .qpskModulate, .qpskDemodulate]) (h : exec i s = .next t) :
    t.marks = s.marks := by
  cases i with
  | firInit => simp at hi
  | firProcess g => exact (execFirProcess_cases g s).marks h fun ⟨_, _, ht⟩ => completeOk_marks ht rfl
  | firRelease g => exact (execFirRelease_cases g s).marks h fun ⟨_, ht⟩ => completeOk_marks ht rfl
  | iirInit => simp at hi
  | iirSetSection g => exact (execIirSetSection_cases g s).marks h fun ⟨_, _, _, _, ht⟩ => completeOk_marks ht rfl
  | iirProcess g =>
    refine (execIirProcess_cases g s).marks h ?_
    rintro ⟨_, _, ⟨_, ht⟩ | ⟨_, ht⟩⟩
    · exact raiseError_marks ht
    · exact completeOk_marks ht rfl
  | iirRelease g => exact (execIirRelease_cases g s).marks h fun ⟨_, ht⟩ => completeOk_marks ht rfl
  | lmsInit => exact (execLmsInit_cases s).marks h fun ⟨_, _, ht, _⟩ => completeOk_marks ht rfl
  | lmsProcess g => exact (execLmsProcess_cases g s).marks h fun ⟨_, _, ht⟩ => completeOk_marks ht rfl
  | lmsRelease g => exact (execLmsRelease_cases g s).marks h fun ⟨_, ht⟩ => completeOk_marks ht rfl
  | rlsInit => exact (execRlsInit_cases s).marks h fun ⟨_, _, ht, _⟩ => completeOk_marks ht rfl
  | rlsProcess g => exact (execRlsProcess_cases g s).marks h fun ⟨_, _, ht⟩ => completeOk_marks ht rfl
  | rlsRelease g => exact (execRlsRelease_cases g s).marks h fun ⟨_, ht⟩ => completeOk_marks ht rfl
  | qpskModulate => simp at hi
  | qpskDemodulate => simp at hi

/-- Settles O38: past its checks a reading command completes from a state its reads left (`State.noteReads`), and what it
does then writes no mark. -/
theorem unwrittenReadsAreMarked : Obligations.UnwrittenReadsAreMarked := by
  refine ⟨fun s hfatal => ⟨?firInit, ?iirInit, ?modulate, ?demodulate⟩, fun i s t hi h => exec_keeps_marks hi h⟩
  case firInit =>
    intro n ca hn hc hmax hfree
    obtain ⟨h, hfree⟩ := Option.isSome_iff_exists.1 hfree
    exact ⟨_, exec_firInit_passed hfatal hn hc hmax hfree, s.noteReads_marksUnwrittenRead ca n⟩
  case iirInit =>
    intro o n hb ha hn hbr har hmax hfree
    obtain ⟨h, hfree⟩ := Option.isSome_iff_exists.1 hfree
    refine ⟨_, exec_iirInit_passed hfatal hb ha hn hbr har hmax hfree, ?_⟩
    simp only [and_or_left, exists_or]
    exact (s.noteReads_marksUnwrittenRead o.bAddr (3 * n)).trans
      ((s.noteReads o.bAddr (3 * n)).noteReads_marksUnwrittenRead o.aAddr (3 * n))
  case modulate =>
    intro o nb hnb heven hfc hfc' hfs hfs' hsps hbits hout
    have hmarks := s.noteReads_marksUnwrittenRead o.bitsAddr nb
    rw [exec_qpskModulate_passed hfatal hnb heven (isRate_iff.2 ⟨hfc, hfc'⟩) (isRate_iff.2 ⟨hfs, hfs'⟩) hsps hbits hout]
    split
    · exact ⟨_, rfl, hmarks⟩
    · exact ⟨_, rfl, hmarks⟩
  case demodulate =>
    intro o skip len m hlen hfc hfc' hfs hfs' hsps hdelay hin hbits hcons
    exact ⟨_, exec_qpskDemodulate_passed hfatal hlen (isRate_iff.2 ⟨hfc, hfc'⟩) (isRate_iff.2 ⟨hfs, hfs'⟩) hsps hdelay hin
      hbits hcons, s.noteReads_marksUnwrittenRead (o.inAddr + 2 * skip) (2 * len)⟩

end Sys2Proof.Machine
end

section
/-! Encoding (30_encoding): a word without reserved bits is the word of its two fields, and the opcode map pairs
each command with its OP and HANDLE. -/

namespace Sys2Proof

/-! ## The fields of a command word (R100) -/

theorem opField_lt (w : Word) : opField w < 2 ^ 8 := Nat.mod_lt _ (by decide)

theorem handleField_lt (w : Word) : handleField w < 2 ^ 8 := Nat.mod_lt _ (by decide)

theorem toNat_commandWord {op : Nat} (hop : op < 2 ^ 8) (h : Nat) :
    (commandWord op h).toNat = h % 2 ^ 8 * 2 ^ 8 + op := by
  simp only [commandWord, BitVec.toNat_ofNat]
  omega

theorem opField_commandWord {op : Nat} (hop : op < 2 ^ 8) (h : Nat) : opField (commandWord op h) = op := by
  rw [opField, toNat_commandWord hop]
  omega

theorem handleField_commandWord {op h : Nat} (hop : op < 2 ^ 8) (hh : h < 2 ^ 8) :
    handleField (commandWord op h) = h := by
  rw [handleField, toNat_commandWord hop]
  omega

theorem reservedField_commandWord {op : Nat} (hop : op < 2 ^ 8) (h : Nat) : reservedField (commandWord op h) = 0 := by
  rw [reservedField, toNat_commandWord hop]
  omega

/-- A word without reserved bits is built from its OP and HANDLE. -/
theorem commandWord_fields {w : Word} (hw : reservedField w = 0) : commandWord (opField w) (handleField w) = w := by
  apply BitVec.eq_of_toNat_eq
  rw [toNat_commandWord (opField_lt w)]
  simp only [reservedField, opField, handleField] at hw ⊢
  omega

/-! ## The opcode map (R101, R102) -/

theorem opcodeOf_lt (i : Instr) : opcodeOf i < 2 ^ 8 := by
  cases i <;> simp [opcodeOf]

theorem wellFormed_iff (i : Instr) : WellFormed i ↔ i.handle.getD 0 < 2 ^ 8 := by
  cases hi : i.handle <;> simp [WellFormed, hi]

theorem withoutHandle_eq_ok_iff {h : Nat} {i j : Instr} : withoutHandle h i = .ok j ↔ i = j ∧ h = 0 := by
  by_cases hh : h = 0 <;> simp [withoutHandle, hh]

theorem withoutHandle_eq_error_iff {h : Nat} {i : Instr} : (∃ e, withoutHandle h i = .error e) ↔ h ≠ 0 := by
  by_cases hh : h = 0 <;> simp [withoutHandle, hh]

/-- The decoder's map and the encoder's are inverse: OP and HANDLE mean the command that has them. -/
theorem decodeFields_eq_ok_iff {op h : Nat} {i : Instr} :
    decodeFields op h = .ok i ↔ opcodeOf i = op ∧ i.handle.getD 0 = h := by
  constructor
  · intro hd
    unfold decodeFields at hd
    split at hd
    -- the six rows without a handle, the reserved opcodes, the nine rows with a handle
    case h_1 | h_4 | h_8 | h_11 | h_14 | h_15 =>
      obtain ⟨rfl, rfl⟩ := withoutHandle_eq_ok_iff.1 hd
      exact ⟨rfl, rfl⟩
    case h_16 => cases hd
    all_goals
      cases hd
      exact ⟨rfl, rfl⟩
  · rintro ⟨rfl, rfl⟩
    cases i <;> rfl

/-- The pairs of OP and HANDLE the opcode map refuses (R104): the branches are grouped as in `decodeFields_eq_ok_iff`. -/
theorem decodeFields_eq_error_iff {op h : Nat} :
    (∃ e, decodeFields op h = .error e) ↔
      (op ∉ [0x10, 0x11, 0x12, 0x20, 0x21, 0x22, 0x23, 0x30, 0x31, 0x32, 0x40, 0x41, 0x42, 0x50, 0x60] ∨
        (op ∈ [0x10, 0x20, 0x30, 0x40, 0x50, 0x60] ∧ h ≠ 0)) := by
  unfold decodeFields
  split
  case h_1 | h_4 | h_8 | h_11 | h_14 | h_15 => simp [withoutHandle_eq_error_iff]
  case h_16 =>
    refine iff_of_true ⟨_, rfl⟩ (.inl ?_)
    simp only [List.mem_cons, List.not_mem_nil, or_false, not_or]
    and_intros <;> assumption
  all_goals simp

/-! ## The decoder (R104, R105) -/

theorem decode_eq_ok_iff {w : Word} {i : Instr} :
    decode w = .ok i ↔ reservedField w = 0 ∧ opcodeOf i = opField w ∧ i.handle.getD 0 = handleField w := by
  by_cases hw : reservedField w = 0 <;> simp [decode, hw, decodeFields_eq_ok_iff]

theorem decode_eq_error_iff {w : Word} :
    (∃ e, decode w = .error e) ↔
      reservedField w ≠ 0 ∨ ∃ e, decodeFields (opField w) (handleField w) = .error e := by
  by_cases hw : reservedField w = 0 <;> simp [decode, hw]

/-- Settles O1: the three fields of the word are 0, the command's OP and its HANDLE (`decodeFields_eq_ok_iff`). -/
theorem decodeOfEncodeIsTheCommand : Obligations.DecodeOfEncodeIsTheCommand := by
  intro i hwf
  have hop := opcodeOf_lt i
  have hh := (wellFormed_iff i).1 hwf
  exact decode_eq_ok_iff.2 ⟨reservedField_commandWord hop _, (opField_commandWord hop _).symm,
    (handleField_commandWord hop hh).symm⟩

/-- Settles O2: OP and HANDLE of the command are the word's, and a word that decodes has no reserved bits. -/
theorem encodeOfDecodeIsTheWord : Obligations.EncodeOfDecodeIsTheWord := by
  intro w i hd
  obtain ⟨hres, hop, hh⟩ := decode_eq_ok_iff.1 hd
  constructor
  · rw [encode, hop, hh, commandWord_fields hres]
  · rw [wellFormed_iff, hh]
    exact handleField_lt w

/-- Settles O3: the decoder refuses the reserved bits and what the opcode map refuses. -/
theorem illegalWordsAreExactlyThese : Obligations.IllegalWordsAreExactlyThese := fun _ =>
  decode_eq_error_iff.trans (or_congr Iff.rfl decodeFields_eq_error_iff)

/-- Settles O4: each word is evaluated. -/
theorem specCommandWordsDecode : Obligations.SpecCommandWordsDecode := by
  unfold Obligations.SpecCommandWordsDecode
  decide

end Sys2Proof
end

section
/-! The core's turn and CMD writes (40_command R130 to R135): what the pending word decodes to is executed, an illegal word
and a latched FATAL change STATUS and PENDING only, and a CMD write is accepted or dropped. -/

namespace Sys2Proof.Machine

/-! ## Refusals -/

/-- An error that does not latch FATAL changes nothing but the completion fields (R311). -/
theorem raiseError_eq_endedWith (s : State) {c : Code} (hc : c ≠ .a0Zero) : raiseError c s = .next (s.endedWith c) :=
  congrArg Host.Outcome.next (State.raised_eq_complete hc)

/-- FATAL is the first check of every command (R133, R134). -/
theorem exec_of_fatal (i : Instr) {s : State} (hf : s.status.fatal = true) : exec i s = raiseError .fatal s := by
  cases i <;> exact guardFatal_fatal hf

/-! ## The core's turn -/

theorem State.coreStarts_pending {s s0 : State} (h : s.coreStarts s0) : s0.pending = s.pending := by
  rw [State.coreStarts_same h]

theorem State.coreStarts_status {s s0 : State} (h : s.coreStarts s0) : s0.status = s.status := by
  rw [State.coreStarts_same h]

/-- Settles O5: the step is the core's turn, which executes the decoded word. -/
theorem stepRunsTheDecodedCommand : Obligations.StepRunsTheDecodedCommand := by
  intro s s0 p i hturn hp hd
  rw [step_eq_coreTurn hturn, coreTurn_of_decode ((State.coreStarts_pending hturn).trans hp) hd]

theorem step_of_illegal {s s0 : State} {p : Pending} {e : DecodeError} (hturn : s.coreStarts s0)
    (hp : s.pending = some p) (hd : decode p.word = .error e) : step s = illegalCommand s0 := by
  rw [step_eq_coreTurn hturn, coreTurn_of_illegal ((State.coreStarts_pending hturn).trans hp) hd]

/-- Settles O6: with FATAL = 0 an illegal word gets step 2 of R133. -/
theorem illegalCommandChangesNothingElse : Obligations.IllegalCommandChangesNothingElse := by
  intro s s0 p e hturn hp hf hd
  rw [← State.coreStarts_status hturn] at hf
  rw [step_of_illegal hturn hp hd, illegalCommand, guardFatal_eq hf, raiseError_eq_endedWith s0 (by decide)]

/-- Settles O7: an illegal word and a command both begin with the check of FATAL. -/
theorem fatalRefusesEveryCommand : Obligations.FatalRefusesEveryCommand := by
  intro s s0 p hturn hp hf
  have hf0 : s0.status.fatal = true := by rw [State.coreStarts_status hturn, hf]
  rw [← raiseError_eq_endedWith s0 (by decide)]
  cases hd : decode p.word with
  | error e => rw [step_of_illegal hturn hp hd, illegalCommand, guardFatal_fatal hf0]
  | ok i => rw [stepRunsTheDecodedCommand s s0 p i hturn hp hd, exec_of_fatal i hf0]

/-! ## CMD writes (R130, R131) -/

theorem State.writeCmd_of_idle {s : State} (w : Word) (hb : s.status.busy = false) : s.writeCmd w = s.accept w := by
  simp [State.writeCmd, hb]

theorem State.writeCmd_of_busy {s : State} (w : Word) (hb : s.status.busy = true) :
    s.writeCmd w = { s with status := { s.status with ovr := true } } := by
  simp [State.writeCmd, hb]

theorem step_store_cmd {s : State} {w : Word} {rest : List Input} (hin : s.inputs = .store 64 0x018 w :: rest) :
    step s = .next { s.writeCmd w with inputs := rest, response := some .stored } :=
  step_store (tgt := .cmd) hin rfl (.inr rfl)

/-- Settles O10: the store is `State.accept`. -/
theorem cmdWriteIsAcceptedWhenIdle : Obligations.CmdWriteIsAcceptedWhenIdle := by
  intro s w rest hin hb
  exact ⟨_, step_store_cmd hin, by rw [State.writeCmd_of_idle w hb]; rfl⟩

/-- Settles O11: the store sets OVR. -/
theorem cmdWriteIsDroppedWhileBusy : Obligations.CmdWriteIsDroppedWhileBusy := by
  intro s w rest hin hb
  exact ⟨_, step_store_cmd hin, by rw [State.writeCmd_of_busy w hb]⟩

end Sys2Proof.Machine
end

section
/-! The nine handle commands (40_command R136, R137, R145, R147): each is `withEngine` on its handle, so what it does is
decided by FATAL, NUM_SLOTS and its slot, and the engine's part is run with what the slot holds. -/

namespace Sys2Proof.Machine

/-! ## The handle checks -/

/-- A command on a handle is its handle checks, then its engine's part. -/
theorem exec_eq_withEngine {i : Instr} {h : Nat} (hi : i.handle = some h) (s : State) :
    ∃ (α : Type) (kind : Slot → Option α) (k : α → Answer), exec i s = withEngine kind h s k := by
  cases i <;> cases hi <;> exact ⟨_, _, _, rfl⟩

/-- Settles O34: the handle checks refuse it before the engine's part. -/
theorem badHandleIsRefused : Obligations.BadHandleIsRefused := by
  intro i h s hi hf hb
  obtain ⟨α, kind, k, hexec⟩ := exec_eq_withEngine hi s
  rw [hexec, withEngine_badHandle hf hb, raiseError_eq_endedWith s (by decide)]

theorem Slot.asFir_eq_none {v : Slot} : v.asFir = none ↔ ∀ f, v ≠ .fir f := by
  simp [Option.eq_none_iff_forall_ne_some, Slot.asFir_eq_some]

theorem Slot.asIir_eq_none {v : Slot} : v.asIir = none ↔ ∀ q, v ≠ .iir q := by
  simp [Option.eq_none_iff_forall_ne_some, Slot.asIir_eq_some]

theorem Slot.asLms_eq_none {v : Slot} : v.asLms = none ↔ ∀ l, v ≠ .lms l := by
  simp [Option.eq_none_iff_forall_ne_some, Slot.asLms_eq_some]

theorem Slot.asRls_eq_none {v : Slot} : v.asRls = none ↔ ∀ r, v ≠ .rls r := by
  simp [Option.eq_none_iff_forall_ne_some, Slot.asRls_eq_some]

/-- Settles O35: for each engine kind, the third handle check refuses a slot its recogniser does not know. -/
theorem wrongKindIsRefused : Obligations.WrongKindIsRefused := by
  intro h s hf hh hs
  have refused {α : Type} {kind : Slot → Option α} {k : α → Answer} (he : kind (s.slot h) = none) :
      withEngine kind h s k = .next (s.endedWith .wrongType) := by
    rw [withEngine_wrongType hf hh hs he, raiseError_eq_endedWith s (by decide)]
  simp only [List.forall_mem_cons, List.not_mem_nil, false_implies, implies_true, and_true]
  refine ⟨fun hk => ?fir, fun hk => ?iir, fun hk => ?lms, fun hk => ?rls⟩
  case fir => exact ⟨refused (Slot.asFir_eq_none.2 hk), refused (Slot.asFir_eq_none.2 hk)⟩
  case iir =>
    have he := Slot.asIir_eq_none.2 hk
    exact ⟨refused he, refused he, refused he⟩
  case lms => exact ⟨refused (Slot.asLms_eq_none.2 hk), refused (Slot.asLms_eq_none.2 hk)⟩
  case rls => exact ⟨refused (Slot.asRls_eq_none.2 hk), refused (Slot.asRls_eq_none.2 hk)⟩

/-! ## RELEASE (R145) -/

theorem State.setSlot_otherSlotsKept (s : State) (h : Nat) (v : Slot) : State.otherSlotsKept h s (s.setSlot h v) :=
  ⟨List.length_set, fun _ hg => State.slot_setSlot_other hg⟩

theorem exec_release_eq {i : Instr} {h : Nat} {s : State} (hf : s.status.fatal = false) (hh : h < s.params.numSlots)
    (hi : (i = .firRelease h ∧ ∃ f, s.slot h = .fir f) ∨ (i = .iirRelease h ∧ ∃ q, s.slot h = .iir q) ∨
      (i = .lmsRelease h ∧ ∃ l, s.slot h = .lms l) ∨ (i = .rlsRelease h ∧ ∃ r, s.slot h = .rls r)) :
    s.slot h ≠ .free ∧ exec i s = finishRelease h s := by
  have runs {α : Type} {kind : Slot → Option α} {k : α → Answer} {e : α} (hs : s.slot h ≠ .free)
      (he : kind (s.slot h) = some e) : s.slot h ≠ .free ∧ withEngine kind h s k = k e :=
    ⟨hs, withEngine_eq hf hh hs he⟩
  rcases hi with ⟨rfl, f, he⟩ | ⟨rfl, q, he⟩ | ⟨rfl, l, he⟩ | ⟨rfl, r, he⟩
  · exact runs (by simp [he]) (Slot.asFir_eq_some.2 he)
  · exact runs (by simp [he]) (Slot.asIir_eq_some.2 he)
  · exact runs (by simp [he]) (Slot.asLms_eq_some.2 he)
  · exact runs (by simp [he]) (Slot.asRls_eq_some.2 he)

/-- Settles O36: past its checks a RELEASE is `finishRelease`, whatever its kind. -/
theorem releaseFreesTheSlot : Obligations.ReleaseFreesTheSlot := by
  intro i h s hf hh hi
  obtain ⟨hs, hexec⟩ := exec_release_eq hf hh hi
  have hfreed : (s.setSlot h .free).slot h = .free := State.slot_setSlot_same (State.lt_of_slot_ne_free hs)
  have hframe : State.onlySlotChanged h s ((s.setSlot h .free).complete .ok) :=
    ⟨⟨rfl, rfl, rfl, rfl, rfl⟩, fun _ => rfl, s.setSlot_otherSlotsKept h .free, rfl, rfl⟩
  exact ⟨_, hexec, hfreed, hframe, ⟨rfl, rfl, rfl, rfl, rfl, rfl⟩, rfl, rfl, rfl, rfl⟩

/-! ## Two states alike in one slot (R88, R147) -/

/-- Two answers with the same code, the same slot `h` and, if `out` holds and the code is OK, the same RES0. -/
def AnswersAlike (h : Nat) (out : Prop) (r r' : Answer) : Prop :=
  ∀ t, r = .next t → ∃ t', r' = .next t' ∧ t'.status.err = t.status.err ∧ t'.slot h = t.slot h ∧
    (out → t.status.err = .ok → t'.res0 = t.res0)

section
variable {s s' : State} {h : Nat} {out : Prop}

theorem raiseError_alike {c : Code} (hslot : s.slot h = s'.slot h) (hc : c ≠ .ok) :
    AnswersAlike h out (raiseError c s) (raiseError c s') := by
  rintro t ⟨⟩
  exact ⟨_, rfl, rfl, hslot.symm, fun _ hok => absurd hok hc⟩

/-- Where slot `h` is in use it takes the same value in both states. -/
theorem completeOk_setSlot_alike {t t' : State} {v : Slot} (hslot : s.slot h = s'.slot h) (hs : s.slot h ≠ .free)
    (ht : t.slots = s.slots.set h v) (ht' : t'.slots = s'.slots.set h v) (hout : out → t'.res0 = t.res0) :
    AnswersAlike h out (completeOk t) (completeOk t') := by
  have hv : (s.setSlot h v).slot h = v := State.slot_setSlot_same (State.lt_of_slot_ne_free hs)
  have hv' : (s'.setSlot h v).slot h = v := State.slot_setSlot_same (State.lt_of_slot_ne_free (hslot ▸ hs))
  rintro _ ⟨⟩
  refine ⟨_, rfl, rfl, ?_, fun ho _ => hout ho⟩
  rw [State.slot, State.complete_slots, ht', State.slot, State.complete_slots, ht]
  exact hv'.trans hv.symm

theorem finishProcess_alike {v : Slot} {y : F64} {drawn : Nat} (hslot : s.slot h = s'.slot h) (hs : s.slot h ≠ .free) :
    AnswersAlike h out (finishProcess h v y drawn s) (finishProcess h v y drawn s') :=
  completeOk_setSlot_alike hslot hs rfl rfl fun _ => rfl

/-- The handle checks see the slot, NUM_SLOTS and FATAL only. -/
theorem withEngine_alike {α : Type} {kind : Slot → Option α} {k k' : α → Answer} (hslot : s.slot h = s'.slot h)
    (hnum : s.params.numSlots = s'.params.numSlots) (hfatal : s.status.fatal = s'.status.fatal)
    (hk : ∀ e, s.slot h ≠ .free → AnswersAlike h out (k e) (k' e)) :
    AnswersAlike h out (withEngine kind h s k) (withEngine kind h s' k') := by
  simp only [withEngine, guardFatal, ← hslot, ← hnum, ← hfatal]
  split
  · exact raiseError_alike hslot (by decide)
  · split
    · exact raiseError_alike hslot (by decide)
    · next hb =>
      split
      · exact raiseError_alike hslot (by decide)
      · next e he => exact hk e fun hs => hb (.inr (Slot.isFree_iff.2 hs))

end

/-- Settles O37: the checks and the engine's part run alike in both states; only PROCESS makes a claim about RES0. -/
theorem handleCommandsSeeOnlyTheirSlot : Obligations.HandleCommandsSeeOnlyTheirSlot := by
  intro i h s s' t hi hslot hnum hfatal hops hdraws hexec
  have hchecks {α : Type} {kind : Slot → Option α} {k k' : α → Answer} {out : Prop} :=
    withEngine_alike (out := out) (kind := kind) (k := k) (k' := k') hslot hnum hfatal
  suffices halike : AnswersAlike h
      (i ∈ [Instr.firProcess h, .iirProcess h, .lmsProcess h, .rlsProcess h]) (exec i s) (exec i s') from
    halike t hexec
  cases i <;> cases hi
  case firProcess.refl =>
    rw [exec, exec, execFirProcess, execFirProcess, ← hops, ← hdraws]
    exact hchecks fun _ hs => finishProcess_alike hslot hs
  case firRelease.refl => exact hchecks fun _ hs => completeOk_setSlot_alike hslot hs rfl rfl (by simp)
  case iirSetSection.refl =>
    rw [exec, exec, execIirSetSection, execIirSetSection, ← hops]
    refine hchecks fun q hs => ?_
    dsimp only
    split
    · exact raiseError_alike hslot (by decide)
    · exact completeOk_setSlot_alike hslot hs rfl rfl (by simp)
  case iirProcess.refl =>
    rw [exec, exec, execIirProcess, execIirProcess, ← hops, ← hdraws]
    refine hchecks fun q hs => ?_
    split
    · exact raiseError_alike hslot (by decide)
    · exact finishProcess_alike hslot hs
  case iirRelease.refl => exact hchecks fun _ hs => completeOk_setSlot_alike hslot hs rfl rfl (by simp)
  case lmsProcess.refl =>
    rw [exec, exec, execLmsProcess, execLmsProcess, ← hops, ← hdraws]
    exact hchecks fun _ hs => finishProcess_alike hslot hs
  case lmsRelease.refl => exact hchecks fun _ hs => completeOk_setSlot_alike hslot hs rfl rfl (by simp)
  case rlsProcess.refl =>
    rw [exec, exec, execRlsProcess, execRlsProcess, ← hops, ← hdraws]
    exact hchecks fun _ hs => finishProcess_alike hslot hs
  case rlsRelease.refl => exact hchecks fun _ hs => completeOk_setSlot_alike hslot hs rfl rfl (by simp)

end Sys2Proof.Machine
end

section
/-! What a command may have written when it completes (40_command R142, R147; 30_encoding R108; 20_memory R79): how each of
the 15 ends, once, and from that the fields each of them keeps. -/

namespace Sys2Proof.Machine

/-! ## How a command ends -/

/-- How command `i` started in `s` can end. The marks and the draws, model fields, are left open. -/
inductive CommandEnd (s : State) : Instr → State → Prop
  /-- With an error, before anything is written; only IIR_PROCESS ends in the fault that latches FATAL (R186, R311). -/
  | error {i : Instr} (c : Code) (m : Marks) (d : Nat) (hc : c = .a0Zero → ∃ h, i = .iirProcess h) :
      CommandEnd s i (State.raised { s with marks := m, draws := d } c)
  /-- R139. -/
  | init {i : Instr} (h : Nat) (v : Slot) (m : Marks) (d : Nat)
      (hi : i ∈ [Instr.firInit, .iirInit, .lmsInit, .rlsInit]) (hfree : s.freeSlot = some h) :
      CommandEnd s i (State.complete { s.setSlot h v with res0 := zext64 h, marks := m, draws := d } .ok)
  /-- R145, R182. -/
  | update {i : Instr} (h : Nat) (v : Slot)
      (hi : i ∈ [Instr.firRelease h, .iirRelease h, .lmsRelease h, .rlsRelease h, .iirSetSection h]) :
      CommandEnd s i ((s.setSlot h v).complete .ok)
  /-- R161, R183, R211, R231. -/
  | process {i : Instr} (h : Nat) (v : Slot) (y : F64) (d : Nat)
      (hi : i ∈ [Instr.firProcess h, .iirProcess h, .lmsProcess h, .rlsProcess h]) :
      CommandEnd s i
        (State.complete { s.setSlot h v with res0 := y, status := s.status.noteResults [y], draws := d } .ok)
  /-- R263. -/
  | modulate : CommandEnd s .qpskModulate ((modulateDone s).complete .ok)
  /-- R280. -/
  | demodulate : CommandEnd s .qpskDemodulate ((demodulateDone s).complete .ok)

section
variable {s t : State} {i : Instr} {h : Nat} {v : Slot}

theorem raiseError_commandEnd {c : Code} (ht : .next t = raiseError c s) (hc : c = .a0Zero → ∃ h, i = .iirProcess h) :
    CommandEnd s i t := by
  cases ht
  exact .error c s.marks s.draws hc

theorem completeOk_setSlot_commandEnd (ht : .next t = completeOk (s.setSlot h v))
    (hi : i ∈ [Instr.firRelease h, .iirRelease h, .lmsRelease h, .rlsRelease h, .iirSetSection h]) :
    CommandEnd s i t := by
  cases ht
  exact .update h v hi

theorem finishProcess_commandEnd {y : F64} {drawn : Nat} (ht : .next t = finishProcess h v y drawn s)
    (hi : i ∈ [Instr.firProcess h, .iirProcess h, .lmsProcess h, .rlsProcess h]) : CommandEnd s i t := by
  cases ht
  exact .process h v y _ hi

/-- An INIT may have read its coefficients before it writes (R160, R180). -/
theorem finishInit_commandEnd {s' : State} (ht : .next t = finishInit h v s')
    (hs' : s' = { s with marks := s'.marks, draws := s'.draws }) (hfree : s.freeSlot = some h)
    (hi : i ∈ [Instr.firInit, .iirInit, .lmsInit, .rlsInit]) : CommandEnd s i t := by
  cases ht
  rw [hs']
  exact .init h v _ _ hi hfree

theorem EndsOr.commandEnd {P : Answer → Prop} {r : Answer} (hends : EndsOr s P r) (hr : r = .next t)
    (hP : P (.next t) → CommandEnd s i t) : CommandEnd s i t := by
  subst hr
  rcases hends with ⟨c, ⟨_, hc⟩, he⟩ | hp
  · exact raiseError_commandEnd he fun h0 => absurd h0 hc
  · exact hP hp

end

theorem exec_commandEnd {i : Instr} {s t : State} (h : exec i s = .next t) : CommandEnd s i t := by
  cases i with
  | firInit =>
    exact (execFirInit_cases s).commandEnd h fun ⟨_, hfree, ht, _⟩ => finishInit_commandEnd ht rfl hfree (by simp)
  | firProcess g =>
    exact (execFirProcess_cases g s).commandEnd h fun ⟨_, _, ht⟩ => finishProcess_commandEnd ht (by simp)
  | firRelease g =>
    exact (execFirRelease_cases g s).commandEnd h fun ⟨_, ht⟩ => completeOk_setSlot_commandEnd ht (by simp)
  | iirInit =>
    exact (execIirInit_cases s).commandEnd h fun ⟨_, hfree, ht, _⟩ => finishInit_commandEnd ht rfl hfree (by simp)
  | iirSetSection g =>
    exact (execIirSetSection_cases g s).commandEnd h fun ⟨_, _, _, _, ht⟩ =>
      completeOk_setSlot_commandEnd ht (by simp)
  | iirProcess g =>
    refine (execIirProcess_cases g s).commandEnd h ?_
    rintro ⟨_, _, ⟨_, ht⟩ | ⟨_, ht⟩⟩
    · exact raiseError_commandEnd ht fun _ => ⟨g, rfl⟩
    · exact finishProcess_commandEnd ht (by simp)
  | iirRelease g =>
    exact (execIirRelease_cases g s).commandEnd h fun ⟨_, ht⟩ => completeOk_setSlot_commandEnd ht (by simp)
  | lmsInit =>
    exact (execLmsInit_cases s).commandEnd h fun ⟨_, hfree, ht, _⟩ => finishInit_commandEnd ht rfl hfree (by simp)
  | lmsProcess g =>
    exact (execLmsProcess_cases g s).commandEnd h fun ⟨_, _, ht⟩ => finishProcess_commandEnd ht (by simp)
  | lmsRelease g =>
    exact (execLmsRelease_cases g s).commandEnd h fun ⟨_, ht⟩ => completeOk_setSlot_commandEnd ht (by simp)
  | rlsInit =>
    exact (execRlsInit_cases s).commandEnd h fun ⟨_, hfree, ht, _⟩ => finishInit_commandEnd ht rfl hfree (by simp)
  | rlsProcess g =>
    exact (execRlsProcess_cases g s).commandEnd h fun ⟨_, _, ht⟩ => finishProcess_commandEnd ht (by simp)
  | rlsRelease g =>
    exact (execRlsRelease_cases g s).commandEnd h fun ⟨_, ht⟩ => completeOk_setSlot_commandEnd ht (by simp)
  | qpskModulate =>
    refine (execQpskModulate_cases s).commandEnd h ?_
    rintro ⟨_, _, ht | ht⟩
    · cases ht
      exact .error .invalidParam _ _ nofun
    · cases ht
      exact .modulate
  | qpskDemodulate =>
    refine (execQpskDemodulate_cases s).commandEnd h ?_
    rintro ⟨_, _, ht⟩
    cases ht
    exact .demodulate

/-! ## What it keeps -/

/-- Settles O33: an error keeps the flags, and an OK completion only adds to them. -/
theorem commandsNeverClearStickyFlags : Obligations.CommandsNeverClearStickyFlags := by
  intro i s t h
  have noted (vs : List F64) (hnf : s.status.nf = true) : (s.status.noteResults vs).nf = true := by
    rw [Status.noteResults, hnf, Bool.true_or]
  cases exec_commandEnd h with
  | error | init | update => exact ⟨id, id, id⟩
  | process h v y d => exact ⟨noted [y], id, id⟩
  | modulate => exact ⟨noted _, id, id⟩
  | demodulate => exact ⟨noted _, fun hempty => Bool.or_eq_true_iff.2 (.inl hempty), id⟩

namespace CommandEnd

variable {s t : State} {i : Instr}

theorem hostSideKept (e : CommandEnd s i t) : s.hostSideKept t := by
  cases e <;> exact ⟨rfl, rfl, rfl, rfl, rfl⟩

theorem ovr (e : CommandEnd s i t) : t.status.ovr = s.status.ovr := by
  cases e <;> rfl

/-- An INIT takes no handle, and the other commands that write a slot write the one of their handle. -/
theorem otherSlotsKept {h : Nat} (e : CommandEnd s i t) (hi : i.handle = some h) : State.otherSlotsKept h s t := by
  cases e with
  | error | modulate | demodulate => exact ⟨rfl, fun _ _ => rfl⟩
  | init g v m d hinit => grind [Instr.handle]
  | update g v hupd =>
    obtain rfl : g = h := by grind [Instr.handle]
    exact s.setSlot_otherSlotsKept g v
  | process g v y d hproc =>
    obtain rfl : g = h := by grind [Instr.handle]
    exact s.setSlot_otherSlotsKept g v

theorem only_freeSlot_written (e : CommandEnd s i t) (hi : i ∈ [Instr.firInit, .iirInit, .lmsInit, .rlsInit]) :
    t.slots.length = s.slots.length ∧ ∀ g, s.freeSlot ≠ some g → t.slot g = s.slot g := by
  cases e with
  | error => exact ⟨rfl, fun _ _ => rfl⟩
  | init h v m d _ hfree =>
    obtain ⟨hlen, hother⟩ := s.setSlot_otherSlotsKept h v
    exact ⟨hlen, fun g hg => hother g fun hgh => hg (hgh ▸ hfree)⟩
  | update | process => grind
  | modulate | demodulate => simp at hi

theorem slots_of_modem (e : CommandEnd s i t) (hi : i ∈ [Instr.qpskModulate, .qpskDemodulate]) : t.slots = s.slots := by
  cases e with
  | error | modulate | demodulate => rfl
  | init | update | process => grind

theorem res1_emptyWin (e : CommandEnd s i t) (hi : i ≠ .qpskDemodulate) :
    t.res1 = s.res1 ∧ t.status.emptyWin = s.status.emptyWin := by
  cases e with
  | demodulate => exact absurd rfl hi
  | _ => exact ⟨rfl, rfl⟩

theorem res0 {h : Nat} (e : CommandEnd s i t)
    (hi : i ∈ [Instr.firRelease h, .iirRelease h, .lmsRelease h, .rlsRelease h, .iirSetSection h]) :
    t.res0 = s.res0 := by
  cases e with
  | error | update => rfl
  | init | process => grind
  | modulate | demodulate => simp at hi

theorem fatal (e : CommandEnd s i t) (hi : ∀ h, i ≠ .iirProcess h) : t.status.fatal = s.status.fatal := by
  cases e with
  | error c m d hc =>
    have h0 : c ≠ .a0Zero := fun h0 => (hc h0).elim hi
    simp [h0]
  | _ => rfl

theorem nf (e : CommandEnd s i t) (hproc : ∀ h, i ∉ [Instr.firProcess h, .iirProcess h, .lmsProcess h, .rlsProcess h])
    (hmod : i ≠ .qpskModulate) (hdemod : i ≠ .qpskDemodulate) : t.status.nf = s.status.nf := by
  cases e with
  | error | init | update => rfl
  | process h v y d hi => exact absurd hi (hproc h)
  | modulate => exact absurd rfl hmod
  | demodulate => exact absurd rfl hdemod

theorem memoryKept (e : CommandEnd s i t) (hmod : i ≠ .qpskModulate) (hdemod : i ≠ .qpskDemodulate) :
    s.memoryKept t := by
  cases e with
  | modulate => exact absurd rfl hmod
  | demodulate => exact absurd rfl hdemod
  | _ => exact fun _ => rfl

end CommandEnd

/-- The words a demodulation writes are its bit array and its constellation array (R280, R291). -/
theorem demodulateDone_byte_outside {s : State} {x : Nat}
    (hbits : let o := demodulateOperands s.operands
      let m := ceilDiv (o.length.toNat - clampedDelay o.length o.delay) o.sps.toNat
      x < 8 * o.bitsAddr ∨ 8 * (o.bitsAddr + 2 * m) ≤ x)
    (hcons : let o := demodulateOperands s.operands
      let m := ceilDiv (o.length.toNat - clampedDelay o.length o.delay) o.sps.toNat
      x < 8 * o.consAddr ∨ 8 * (o.consAddr + 2 * m) ≤ x) :
    Memory.byte (demodulateDone s).mem x = Memory.byte s.mem x :=
  (Memory.byte_putWords_outside (by simpa using hcons)).trans (Memory.byte_putWords_outside (by simpa using hbits))

/-- Settles O30: each clause is read off how the command ends (`CommandEnd`); the modem commands write their output arrays
(`modulateDone_byte_outside`, `demodulateDone_byte_outside`). -/
theorem commandFootprint : Obligations.CommandFootprint := by
  intro i s t h
  have e := exec_commandEnd h
  refine ⟨e.hostSideKept, e.ovr, fun _ => e.otherSlotsKept, e.only_freeSlot_written, e.slots_of_modem, e.res1_emptyWin,
    fun _ => e.res0, e.fatal, e.nf, e.memoryKept, ?modulate, ?demodulate⟩
  case modulate =>
    rintro rfl o x hx
    cases e with
    | error => rfl
    | init _ _ _ _ hi | update _ _ hi | process _ _ _ _ hi => simp at hi
    | modulate => exact modulateDone_byte_outside hx
  case demodulate =>
    rintro rfl o m x hbits hcons
    cases e with
    | error => rfl
    | init _ _ _ _ hi | update _ _ hi | process _ _ _ _ hi => simp at hi
    | demodulate => exact demodulateDone_byte_outside hbits hcons

end Sys2Proof.Machine
end

section
/-! How an INIT and a PROCESS complete, once for every engine kind (40_command R132, R139, R142, R147), and the FIR engine
(41_fir R160, R161): its checks, what a fresh filter holds and what a sample does to it. -/

namespace Sys2Proof.Machine

/-! ## How an INIT and a PROCESS complete -/

/-- An INIT that left its reads, if any, behind in `s'`: slot h, RES0 and the completion, and nothing else. -/
theorem finishInit_completes {s s' : State} {h : Nat} {v : Slot} (hl : h < s.slots.length)
    (hs' : s' = { s with marks := s'.marks, draws := s'.draws }) :
    ∃ t, finishInit h v s' = .next t ∧ t.slot h = v ∧ t.res0 = BitVec.ofNat 64 h ∧ State.onlySlotChanged h s t ∧
      s.completedOk t ∧ t.status.nf = s.status.nf ∧ t.marks = s'.marks := by
  have hslot : (s.setSlot h v).slot h = v := State.slot_setSlot_same hl
  have hothers := s.setSlot_otherSlotsKept h v
  rw [hs']
  exact ⟨_, rfl, hslot, rfl, ⟨⟨rfl, rfl, rfl, rfl, rfl⟩, fun _ => rfl, hothers, rfl, rfl⟩, ⟨rfl, rfl, rfl, rfl, rfl, rfl⟩,
    rfl, rfl⟩

/-- A PROCESS that answers y. -/
theorem finishProcess_completes {s : State} {h drawn : Nat} {v : Slot} {y : F64} (hl : h < s.slots.length) :
    ∃ t, finishProcess h v y drawn s = .next t ∧ t.slot h = v ∧ t.res0 = y ∧
      t.status.nf = (s.status.nf || !F64.isFinite y) ∧ State.onlySlotChanged h s t ∧ s.completedOk t ∧
      t.marks = s.marks := by
  have hslot : (s.setSlot h v).slot h = v := State.slot_setSlot_same hl
  have hothers := s.setSlot_otherSlotsKept h v
  exact ⟨_, rfl, hslot, rfl, by simp, ⟨⟨rfl, rfl, rfl, rfl, rfl⟩, fun _ => rfl, hothers, rfl, rfl⟩,
    ⟨rfl, rfl, rfl, rfl, rfl, rfl⟩, rfl⟩

/-! ## FIR_INIT (R160) -/

@[simp] theorem State.length_readWords (s : State) (a n : Nat) : (s.readWords a n).length = n := by
  simp [State.readWords]

/-- A word that has been written reads as it stands (R42). -/
theorem State.getD_readWords_of_word {s : State} {a n j : Nat} {w : Word} (hj : j < n)
    (hw : Memory.word s.mem (a + j) = some w) (d : Word) : (s.readWords a n).getD j d = w := by
  simp [State.readWords, State.wordRead, hj, hw]

/-- Settles O39: past its checks FIR_INIT is `finishInit` of a fresh filter, whose buffer holds no input
(`ringHolds_fresh`) and whose coefficients are the words read. -/
theorem firInitBuildsTheFilter : Obligations.FirInitBuildsTheFilter := by
  intro s h n hfatal harg hn hrange hmax hl hfree hlowest
  have htoNat : (i64 s.operands.arg0).toNat = n := by omega
  have hexec := exec_firInit_passed hfatal (by omega) (htoNat ▸ hrange) (htoNat ▸ hmax)
    (State.freeSlot_eq_some.2 ⟨hl, hfree, hlowest⟩)
  rw [htoNat] at hexec
  obtain ⟨t, ht, hslot, hres, hframe, hok, hnf, _⟩ :=
    finishInit_completes (s' := s.noteReads (u64 s.operands.arg1) n) hl rfl
  exact ⟨t, _, hexec.trans ht, hslot, rfl, s.length_readWords _ n, List.length_replicate, rfl, ringHolds_fresh n,
    fun j w hj hw => State.getD_readWords_of_word hj hw _, hres, hframe, hok, hnf⟩

theorem withFreeSlot_of_none {s : State} {k : Nat → Answer} (h : s.freeSlot = none) :
    withFreeSlot s k = raiseError .alloc s := by
  simp only [withFreeSlot, h]

/-- Settles O40: the checks of `execFirInit`, one after the other; each refuses with a code that latches nothing. -/
theorem firInitChecks : Obligations.FirInitChecks := by
  intro s hfatal n ca
  simp only [exec, execFirInit, guardFatal_eq hfatal]
  refine ⟨fun hn => ?length, fun hn hout => ?addr, fun hn hin hno => ?alloc⟩
  case length => exact (if_pos hn).trans (raiseError_eq_endedWith s (by decide))
  case addr =>
    have hrange : (!s.inRange ca n.toNat) = true := by simpa [State.inRange] using hout
    exact (if_neg hn.not_ge).trans ((if_pos hrange).trans (raiseError_eq_endedWith s (by decide)))
  case alloc =>
    have hrange : ¬(!s.inRange ca n.toNat) = true := by simp [State.inRange_iff.2 hin]
    rw [← raiseError_eq_endedWith s (by decide)]
    refine (if_neg hn.not_ge).trans ((if_neg hrange).trans ?_)
    by_cases hmax : s.params.nMax < n.toNat
    · exact if_pos hmax
    · exact (if_neg hmax).trans (withFreeSlot_of_none (State.freeSlot_eq_none.2 (hno.resolve_left hmax)))

/-! ## FIR_PROCESS (R161) -/

/-- FIR_PROCESS after the handle checks. -/
theorem exec_firProcess_passed {s : State} {h : Nat} {f : FirState} (hfatal : s.status.fatal = false)
    (hh : h < s.params.numSlots) (hslot : s.slot h = .fir f) :
    exec (.firProcess h) s = finishProcess h (.fir (f.push s.operands.arg0))
      (F64.settle s.draws (f.push s.operands.arg0).output) 1 s :=
  withEngine_eq hfatal hh (by simp [hslot]) (Slot.asFir_eq_some.2 hslot)

section
variable {f : FirState} {u : List F64} (hlen : f.buf.length = f.n) (hpos : f.pos < f.n)
  (hring : ringHolds f.buf f.pos f.n u) (x : F64)
include hlen hpos hring

/-- A sample goes to the front of what the buffer holds. -/
theorem FirState.ringHolds_push : ringHolds (f.push x).buf (f.push x).pos f.n (x :: u) :=
  ringHolds_set hlen hpos hring

/-- The sum taken after a sample is stored is the convolution of the coefficients with that sample and the earlier ones. -/
theorem FirState.output_push :
    (f.push x).output = F64.sum f.n (fun j => F64.mul (f.c.getD j F64.zero) ((x :: u).getD j F64.zero)) :=
  F64.sum_congr fun j hj => congrArg (F64.mul (f.c.getD j F64.zero)) (FirState.ringHolds_push hlen hpos hring x j hj)

end

/-- Settles O41: past the handle checks the slot takes the filter with the sample pushed (`FirState.ringHolds_push`), and
the answer is its sum (`FirState.output_push`), stored. -/
theorem firProcessConvolves : Obligations.FirProcessConvolves := by
  intro s h f u hfatal hh hslot hlen hpos hring
  obtain ⟨t, ht, hslot', hres, hnf, hframe, hok, hmarks⟩ :=
    finishProcess_completes (State.lt_of_slot_ne_free (s := s) (h := h) (by simp [hslot]))
  refine ⟨t, _, (exec_firProcess_passed hfatal hh hslot).trans ht, hslot', rfl, rfl, List.length_set.trans hlen, rfl,
    FirState.ringHolds_push hlen hpos hring _, ?stored, hres ▸ hnf, hframe, hok, hmarks⟩
  rw [hres, FirState.output_push hlen hpos hring]
  exact F64.stores_settle _ _

end Sys2Proof.Machine
end

section
/-! The IIR engine (42_iir R180 to R186): its checks, the sections a fresh cascade has, a section overwritten, the signal
through the cascade, and the fault of a section whose a0 is zero. -/

namespace Sys2Proof.Machine

/-! ## IIR_INIT (R180, R181) -/

theorem IirState.getElem?_sec_fresh {n j : Nat} {b a : List F64} {c : Section} :
    (IirState.fresh n b a).sec[j]? = some c ↔ j < n ∧ sectionOf b a j = c := by
  simp [IirState.fresh, List.getElem?_eq_some_iff, and_assoc]

/-- Settles O42: past its checks IIR_INIT is `finishInit` of a fresh cascade, whose section j is `sectionOf` the words
read. -/
theorem iirInitBuildsTheCascade : Obligations.IirInitBuildsTheCascade := by
  intro s h n hfatal o hb ha hn hbr har hmax hl hfree hlowest
  have hexec := exec_iirInit_passed hfatal hb ha hn hbr har hmax (State.freeSlot_eq_some.2 ⟨hl, hfree, hlowest⟩)
  obtain ⟨t, ht, hslot, hres, hframe, hok, hnf, _⟩ :=
    finishInit_completes (s' := (s.noteReads o.bAddr (3 * n)).noteReads o.aAddr (3 * n)) hl rfl
  refine ⟨t, _, hexec.trans ht, hslot, rfl, by simp [IirState.fresh], fun j c hc => ?sections, hres, hframe, hok, hnf⟩
  obtain ⟨hj, rfl⟩ := IirState.getElem?_sec_fresh.1 hc
  have hread (s' : State) (addr : Nat) (i : Fin 3) (w : Word)
      (hw : Memory.word s'.mem (addr + (3 * j + i)) = some w) :
      (s'.readWords addr (3 * n)).getD (3 * j + i) F64.zero = w :=
    State.getD_readWords_of_word (by omega) hw _
  have hread_b := hread s o.bAddr
  have hread_a := hread (s.noteReads o.bAddr (3 * n)) o.aAddr
  exact ⟨rfl, rfl, rfl, rfl, hread_b 0, hread_b 1, hread_b 2, hread_a 0, hread_a 1, hread_a 2⟩

/-- Settles O43: the checks of `execIirInit`, one after the other; each refuses with a code that latches nothing. -/
theorem iirInitChecks : Obligations.IirInitChecks := by
  intro s hfatal o
  simp only [exec, execIirInit, guardFatal_eq hfatal]
  refine ⟨fun hbad => ?length, fun hb hthree heq => ?passed⟩
  case length =>
    rw [← raiseError_eq_endedWith s (by decide)]
    by_cases hpos : o.bLen ≤ 0 ∨ o.aLen ≤ 0
    · exact if_pos hpos
    · exact (if_neg hpos).trans (if_pos ((or_assoc.2 hbad).resolve_left hpos))
  case passed =>
    have hpos : ¬(o.bLen ≤ 0 ∨ o.aLen ≤ 0) := by omega
    have hshape : ¬(o.bLen % 3 ≠ 0 ∨ o.aLen % 3 ≠ 0 ∨ o.bLen ≠ o.aLen) := by omega
    refine ⟨fun hout => ?addr, fun hbr har hno => ?alloc⟩
    case addr =>
      have hrange : (!s.inRange o.bAddr o.bLen.toNat || !s.inRange o.aAddr o.aLen.toNat) = true := by
        simpa [State.inRange] using hout
      exact (if_neg hpos).trans ((if_neg hshape).trans ((if_pos hrange).trans (raiseError_eq_endedWith s (by decide))))
    case alloc =>
      have hrange : ¬(!s.inRange o.bAddr o.bLen.toNat || !s.inRange o.aAddr o.aLen.toNat) = true := by
        simp [State.inRange_iff.2 hbr, State.inRange_iff.2 har]
      rw [← raiseError_eq_endedWith s (by decide)]
      refine (if_neg hpos).trans ((if_neg hshape).trans ((if_neg hrange).trans ?_))
      by_cases hmax : s.params.sMax < o.bLen.toNat / 3
      · exact if_pos hmax
      · exact (if_neg hmax).trans (withFreeSlot_of_none (State.freeSlot_eq_none.2 (hno.resolve_left hmax)))

/-! ## IIR_SET_SECTION (R182) -/

/-- A command past its handle checks on a slot that holds a cascade. -/
theorem withEngine_iir {s : State} {h : Nat} {q : IirState} {k : IirState → Answer} (hfatal : s.status.fatal = false)
    (hh : h < s.params.numSlots) (hslot : s.slot h = .iir q) : withEngine Slot.asIir h s k = k q :=
  withEngine_eq hfatal hh (by simp [hslot]) (Slot.asIir_eq_some.2 hslot)

/-- A completion with OK that wrote slot h and nothing else. -/
theorem completeOk_setSlot_completes {s : State} {h : Nat} {v : Slot} (hl : h < s.slots.length) :
    ∃ t, completeOk (s.setSlot h v) = .next t ∧ t.slot h = v ∧ State.onlySlotChanged h s t ∧ s.completedOk t ∧
      t.res0 = s.res0 ∧ t.status.nf = s.status.nf ∧ t.marks = s.marks ∧ t.draws = s.draws := by
  have hslot : (s.setSlot h v).slot h = v := State.slot_setSlot_same hl
  have hothers := s.setSlot_otherSlotsKept h v
  exact ⟨_, rfl, hslot, ⟨⟨rfl, rfl, rfl, rfl, rfl⟩, fun _ => rfl, hothers, rfl, rfl⟩, ⟨rfl, rfl, rfl, rfl, rfl, rfl⟩,
    rfl, rfl, rfl, rfl⟩

/-- Settles O44: past the handle checks the index is checked, then `List.modify` overwrites its section. -/
theorem iirSetSectionOverwritesOneSection : Obligations.IirSetSectionOverwritesOneSection := by
  intro s h q hfatal hh hslot hlen a
  rw [exec, execIirSetSection, withEngine_iir hfatal hh hslot]
  refine ⟨fun hidx => ?refused, fun k c hk hc => ?written⟩
  case refused => exact (if_pos hidx).trans (raiseError_eq_endedWith s (by decide))
  case written =>
    have hkS : k < q.s := hlen ▸ (List.getElem?_eq_some_iff.1 hc).1
    have hidx : ¬(i64 a.arg0 < 0 ∨ (q.s : Int) ≤ i64 a.arg0) := by omega
    obtain ⟨t, ht, hslot', hframe⟩ :=
      completeOk_setSlot_completes (State.lt_of_slot_ne_free (s := s) (h := h) (by simp [hslot]))
    refine ⟨t, _, (if_neg hidx).trans ht, hslot', rfl, ?_, fun j hj => ?_, hframe⟩
    · simp [a, hk, hc, Section.withCoefficients, f64]
    · simp [a, hk, hj.symm]

/-! ## IIR_PROCESS (R183, R184) -/

/-- The signal through a cascade from draw k: x, then the stored output of each section in turn (R183). -/
def cascadeSignal (k : Nat) : List Section → F64 → Nat → F64
  | _, x, 0 => x
  | [], x, _ + 1 => x
  | q :: qs, x, j + 1 => cascadeSignal (k + 1) qs (F64.settle k (q.output x)) j

@[simp] theorem cascadeSignal_zero (k : Nat) (qs : List Section) (x : F64) : cascadeSignal k qs x 0 = x := by
  cases qs <;> rfl

theorem cascade_output (k : Nat) (qs : List Section) (x : F64) : (cascade k qs x).2 = cascadeSignal k qs x qs.length := by
  induction qs generalizing k x with
  | nil => rfl
  | cons q qs ih => exact ih (k + 1) _

theorem cascadeSignal_succ {k j : Nat} {qs : List Section} {x : F64} {c : Section} (hc : qs[j]? = some c) :
    cascadeSignal k qs x (j + 1) = F64.settle (k + j) (c.output (cascadeSignal k qs x j)) := by
  induction qs generalizing k j x with
  | nil => simp at hc
  | cons q qs ih =>
    cases j with
    | zero =>
      obtain rfl : q = c := by simpa using hc
      simp [cascadeSignal]
    | succ j => simpa [cascadeSignal, Nat.add_assoc, Nat.add_comm 1] using ih (k := k + 1) hc

/-- Each section's history is shifted by its own input and output (R184). -/
theorem cascade_section {k j : Nat} {qs : List Section} {x : F64} {c : Section} (hc : qs[j]? = some c) :
    (cascade k qs x).1[j]? = some (c.shift (cascadeSignal k qs x j) (cascadeSignal k qs x (j + 1))) := by
  induction qs generalizing k j x with
  | nil => simp at hc
  | cons q qs ih =>
    cases j with
    | zero =>
      obtain rfl : q = c := by simpa using hc
      simp [cascade, cascadeSignal]
    | succ j => exact ih hc

/-- Settles O45: past its checks the slot takes the cascade run on the sample; its values are `cascadeSignal`. -/
theorem iirProcessRunsTheDifferenceEquations : Obligations.IirProcessRunsTheDifferenceEquations := by
  intro s h q hfatal hh hslot ha0
  have hnonzero : ¬q.hasZeroA0 = true := by simpa [IirState.hasZeroA0] using ha0
  obtain ⟨t, ht, hslot', hres, hnf, hframe, hok, hmarks⟩ :=
    finishProcess_completes (State.lt_of_slot_ne_free (s := s) (h := h) (by simp [hslot]))
  refine ⟨t, _, cascadeSignal s.draws q.sec s.operands.arg0,
    (withEngine_iir hfatal hh hslot).trans ((if_neg hnonzero).trans ht), hslot', rfl, length_cascade _ _ _,
    cascadeSignal_zero _ _ _, hres.trans (cascade_output _ _ _), fun j c hc => ⟨?stored, cascade_section hc⟩,
    hres ▸ hnf, hframe, hok, hmarks⟩
  rw [cascadeSignal_succ hc]
  exact F64.stores_settle _ _

/-! ## FAULT_A0_ZERO (R186) -/

/-- A section with a0 = +0.0 or a0 = −0.0 (R17). -/
theorem IirState.hasZeroA0_of_mem {q : IirState} {c : Section} (hc : c ∈ q.sec)
    (ha0 : c.a0 = 0x0000000000000000#64 ∨ c.a0 = 0x8000000000000000#64) : q.hasZeroA0 = true := by
  refine List.any_eq_true.2 ⟨c, hc, ?_⟩
  rcases ha0 with h | h <;> rw [h] <;> decide

theorem State.raised_a0Zero (s : State) :
    s.raised .a0Zero =
      { s with status := { s.status with err := .a0Zero, done := true, busy := false, fatal := true }, pending := none } := by
  simp [State.raised, State.complete]

/-- Settles O46: the check of a0 comes before the cascade is run, and what it raises latches FATAL (`exec_of_fatal`). -/
theorem zeroA0IsFatal : Obligations.ZeroA0IsFatal := by
  intro s h q c hfatal hh hslot hc ha0
  have hexec : exec (.iirProcess h) s = raiseError .a0Zero s :=
    (withEngine_iir hfatal hh hslot).trans (if_pos (IirState.hasZeroA0_of_mem hc ha0))
  refine ⟨_, hexec, s.raised_a0Zero, fun i => ?_⟩
  rw [exec_of_fatal i (by simp), raiseError_eq_endedWith _ (by decide)]

end Sys2Proof.Machine
end

section
/-! The LMS engine (43_lms R210, R211): its checks, what a fresh filter holds, and what a sample does to the buffer and
the weights. -/

namespace Sys2Proof.Machine

/-! ## LMS_INIT (R210) -/

/-- LMS_INIT after the checks of R210. -/
theorem exec_lmsInit_passed {s : State} {h n : Nat} (hfatal : s.status.fatal = false)
    (harg : i64 s.operands.arg0 = (n : Int)) (hn : 0 < n) (hmu : F64.lt F64.zero s.operands.arg1 = true)
    (hfinite : F64.isFinite s.operands.arg1 = true) (hmax : n ≤ s.params.nMax) (hfree : s.freeSlot = some h) :
    exec .lmsInit s = finishInit h (.lms (LmsState.fresh n s.operands.arg1)) s := by
  simp [exec, execLmsInit, withFreeSlot, f64, hfatal, harg, hn.ne', hmu, hfinite, hmax.not_gt, hfree]

/-- Settles O47: past its checks LMS_INIT is `finishInit` of a fresh filter, whose buffer holds no input
(`ringHolds_fresh`). -/
theorem lmsInitBuildsTheFilter : Obligations.LmsInitBuildsTheFilter := by
  intro s h n hfatal harg hn hmu hfinite hmax hl hfree hlowest
  have hexec := exec_lmsInit_passed hfatal harg hn hmu hfinite hmax (State.freeSlot_eq_some.2 ⟨hl, hfree, hlowest⟩)
  obtain ⟨t, ht, hslot, hend⟩ := finishInit_completes (s' := s) hl rfl
  exact ⟨t, _, hexec.trans ht, hslot, rfl, rfl, rfl, List.length_replicate, rfl, ringHolds_fresh n, hend⟩

/-- Settles O48: the checks of `execLmsInit`, one after the other; each refuses with a code that latches nothing. -/
theorem lmsInitChecks : Obligations.LmsInitChecks := by
  intro s hfatal n mu
  simp only [exec, execLmsInit, guardFatal_eq hfatal]
  refine ⟨fun hn => ?length, fun hn hbad => ?param, fun hn hlt hfinite hno => ?alloc⟩
  case length => exact (if_pos hn).trans (raiseError_eq_endedWith s (by decide))
  case param =>
    have hrefused : (!F64.lt F64.zero mu || !F64.isFinite mu) = true := by simpa using hbad
    exact (if_neg hn.not_ge).trans ((if_pos hrefused).trans (raiseError_eq_endedWith s (by decide)))
  case alloc =>
    have hpassed : ¬(!F64.lt F64.zero mu || !F64.isFinite mu) = true := by simp [hlt, hfinite]
    rw [← raiseError_eq_endedWith s (by decide)]
    refine (if_neg hn.not_ge).trans ((if_neg hpassed).trans ?_)
    by_cases hmax : s.params.nMax < n.toNat
    · exact if_pos hmax
    · exact (if_neg hmax).trans (withFreeSlot_of_none (State.freeSlot_eq_none.2 (hno.resolve_left hmax)))

/-! ## LMS_PROCESS (R211) -/

@[simp] theorem LmsState.length_updated (l : LmsState) (buf : List F64) (e : F64) : (l.updated buf e).length = l.n := by
  simp [LmsState.updated]

/-- LMS_PROCESS after the handle checks. -/
theorem exec_lmsProcess_passed {s : State} {h : Nat} {l : LmsState} (hfatal : s.status.fatal = false)
    (hh : h < s.params.numSlots) (hslot : s.slot h = .lms l) :
    exec (.lmsProcess h) s =
      finishProcess h (.lms (l.sample s.draws s.operands.arg0 s.operands.arg1).1)
        (l.sample s.draws s.operands.arg0 s.operands.arg1).2 (1 + l.n) s :=
  withEngine_eq hfatal hh (by simp [hslot]) (Slot.asLms_eq_some.2 hslot)

section
variable {l : LmsState} {u : List F64} (hlen : l.buf.length = l.n) (hpos : l.pos < l.n)
  (hring : ringHolds l.buf l.pos l.n u) (x : F64)
include hlen hpos hring

/-- The a-priori output, taken after the input is stored, is the sum over that input and the earlier ones. -/
theorem LmsState.output_set :
    l.output (l.buf.set l.pos x) =
      F64.sum l.n (fun j => F64.mul (l.w.getD j F64.zero) ((x :: u).getD j F64.zero)) :=
  F64.sum_congr fun j hj => congrArg (F64.mul (l.w.getD j F64.zero)) (tapAt_set hlen hpos hring hj)

/-- Weight j, stored, has moved by (mu · e) times the j-th newest sample, the input included. -/
theorem LmsState.stores_updated_set (k : Nat) (e : F64) {j : Nat} (hj : j < l.n) :
    F64.Stores
      (F64.add (l.w.getD j F64.zero) (F64.mul (F64.mul l.mu e) ((x :: u).getD j F64.zero)))
      ((F64.settleAll k (l.updated (l.buf.set l.pos x) e)).getD j F64.zero) := by
  have hstores := F64.stores_settleAll k (l.updated (l.buf.set l.pos x) e) j (by simpa using hj) F64.zero
  simp only [LmsState.updated, List.getElem_map, List.getElem_range, tapAt_set hlen hpos hring hj] at hstores
  exact hstores

end

/-- Settles O49: past the handle checks the slot takes the filter after one `LmsState.sample`, whose sum is
`LmsState.output_set` and whose weights are `LmsState.stores_updated_set`. -/
theorem lmsProcessFiltersAndAdapts : Obligations.LmsProcessFiltersAndAdapts := by
  intro s h l u hfatal hh hslot hlen hpos hring x y e
  have hy : l.output (l.buf.set l.pos s.operands.arg0) = y := LmsState.output_set hlen hpos hring _
  obtain ⟨t, ht, hslot', hres, hnf, hframe, hok, hmarks⟩ :=
    finishProcess_completes (State.lt_of_slot_ne_free (s := s) (h := h) (by simp [hslot]))
  refine ⟨t, _, (exec_lmsProcess_passed hfatal hh hslot).trans ht, hslot', rfl, rfl, List.length_set.trans hlen, rfl,
    ringHolds_set hlen hpos hring, by simp [LmsState.sample], fun j hj => ?weights, ?stored,
    hres ▸ hnf, hframe, hok, hmarks⟩
  case weights =>
    simp only [LmsState.sample, hy]
    exact LmsState.stores_updated_set hlen hpos hring _ _ _ hj
  case stored =>
    rw [hres, ← hy]
    exact F64.stores_settle _ _

end Sys2Proof.Machine
end

section
/-! The RLS engine (44_rls R230, R231): its checks, what a fresh filter holds, and the steps of R231 over the samples of
the buffer, newest first. -/

namespace Sys2Proof.Machine

/-! ## RLS_INIT (R230) -/

/-- RLS_INIT after the checks of R230. -/
theorem exec_rlsInit_passed {s : State} {h n : Nat} (hfatal : s.status.fatal = false)
    (harg : i64 s.operands.arg0 = (n : Int)) (hn : 0 < n) (hlam : F64.lt F64.zero s.operands.arg1 = true)
    (hone : F64.le s.operands.arg1 F64.one = true) (hdelta : F64.lt F64.zero s.operands.arg2 = true)
    (hfinite : F64.isFinite s.operands.arg2 = true) (hmax : n ≤ s.params.nMax) (hfree : s.freeSlot = some h) :
    exec .rlsInit s = finishInit h (.rls (RlsState.fresh n s.operands.arg1 s.operands.arg2)) s := by
  simp [exec, execRlsInit, withFreeSlot, f64, hfatal, harg, hn.ne', hlam, hone, hdelta, hfinite, hmax.not_gt, hfree]

theorem entry_diagonal {n : Nat} (r : F64) {i j : Nat} (hi : i < n) (hj : j < n) :
    entry (diagonal n r) i j = if i = j then r else F64.zero :=
  entry_map_range _ hi hj

/-- Settles O50: past its checks RLS_INIT is `finishInit` of a fresh filter, whose buffer holds no input
(`ringHolds_fresh`) and whose matrix is diagonal (`entry_diagonal`). -/
theorem rlsInitBuildsTheFilter : Obligations.RlsInitBuildsTheFilter := by
  intro s h n hfatal harg hn hlam hone hdelta hfinite hmax hl hfree hlowest
  have hexec := exec_rlsInit_passed hfatal harg hn hlam hone hdelta hfinite hmax
    (State.freeSlot_eq_some.2 ⟨hl, hfree, hlowest⟩)
  obtain ⟨t, ht, hslot, hend⟩ := finishInit_completes (s' := s) hl rfl
  exact ⟨t, _, hexec.trans ht, hslot, rfl, rfl, rfl, rfl, List.length_replicate, rfl, ringHolds_fresh n,
    fun _ _ hi hj => entry_diagonal _ hi hj, hend⟩

/-- The two causes of ERR_ALLOC: a size above the capacity, or no FREE slot (R139). -/
theorem allocation_refused {s : State} {k : Nat → Answer} {capacity size : Nat}
    (hno : capacity < size ∨ ∀ g, g < s.slots.length → s.slot g ≠ .free) :
    (if capacity < size then raiseError .alloc s else withFreeSlot s k) = .next (s.endedWith .alloc) := by
  rw [← raiseError_eq_endedWith s (by decide)]
  by_cases hmax : capacity < size
  · exact if_pos hmax
  · exact (if_neg hmax).trans (withFreeSlot_of_none (State.freeSlot_eq_none.2 (hno.resolve_left hmax)))

/-- Settles O51: the checks of `execRlsInit`, one after the other; each refuses with a code that latches nothing. -/
theorem rlsInitChecks : Obligations.RlsInitChecks := by
  intro s hfatal n lam delta
  simp only [exec, execRlsInit, guardFatal_eq hfatal]
  refine ⟨fun hn => ?length, fun hn hbad => ?param, fun hn hlt hone hdelta hfinite hno => ?alloc⟩
  case length => exact (if_pos hn).trans (raiseError_eq_endedWith s (by decide))
  case param =>
    rw [← raiseError_eq_endedWith s (by decide)]
    refine (if_neg hn.not_ge).trans ?_
    by_cases hlam : (!(F64.lt F64.zero lam && F64.le lam F64.one)) = true
    · exact if_pos hlam
    · have hrefused : (!F64.lt F64.zero delta || !F64.isFinite delta) = true := by simp_all
      exact (if_neg hlam).trans (if_pos hrefused)
  case alloc =>
    have hlam : ¬(!(F64.lt F64.zero lam && F64.le lam F64.one)) = true := by simp [hlt, hone]
    have hpassed : ¬(!F64.lt F64.zero delta || !F64.isFinite delta) = true := by simp [hdelta, hfinite]
    exact (if_neg hn.not_ge).trans ((if_neg hlam).trans ((if_neg hpassed).trans (allocation_refused hno)))

/-! ## RLS_PROCESS (R231) -/

/-- RLS_PROCESS after the handle checks. -/
theorem exec_rlsProcess_passed {s : State} {h : Nat} {r : RlsState} (hfatal : s.status.fatal = false)
    (hh : h < s.params.numSlots) (hslot : s.slot h = .rls r) :
    exec (.rlsProcess h) s =
      finishProcess h (.rls (r.sample s.draws s.operands.arg0 s.operands.arg1).1)
        (r.sample s.draws s.operands.arg0 s.operands.arg1).2 (1 + r.n + r.n * r.n) s :=
  withEngine_eq hfatal hh (by simp [hslot]) (Slot.asRls_eq_some.2 hslot)

/-- The first n elements of xs are f 0, …, f (n − 1): a vector of the model as the indexed family a statement writes. -/
def Tabulates (n : Nat) (xs : List F64) (f : Nat → F64) : Prop := ∀ i < n, xs.getD i F64.zero = f i

theorem tabulates_map_range (n : Nat) (f : Nat → F64) : Tabulates n ((List.range n).map f) f := by
  intro i hi
  simp [List.getD_eq_getElem?_getD, hi]

theorem Tabulates.congr {n : Nat} {xs : List F64} {f g : Nat → F64} (h : Tabulates n xs f) (hfg : ∀ i < n, f i = g i) :
    Tabulates n xs g :=
  fun i hi => (h i hi).trans (hfg i hi)

/-- The samples over which a step runs: the one just written, then what the buffer held. -/
theorem RlsState.taps_set {r : RlsState} {u : List F64} (hlen : r.buf.length = r.n) (hpos : r.pos < r.n)
    (hring : ringHolds r.buf r.pos r.n u) (x : F64) :
    Tabulates r.n (r.taps (r.buf.set r.pos x)) (fun i => (x :: u).getD i F64.zero) :=
  (tabulates_map_range r.n _).congr fun _ hi => tapAt_set hlen hpos hring hi

section
variable {r : RlsState} {xs pxs ks : List F64} {x px k : Nat → F64}

theorem RlsState.output_eq (hx : Tabulates r.n xs x) :
    r.output xs = F64.sum r.n (fun j => F64.mul (r.w.getD j F64.zero) (x j)) :=
  F64.sum_congr fun j hj => congrArg (F64.mul _) (hx j hj)

theorem RlsState.tabulates_px (hx : Tabulates r.n xs x) :
    Tabulates r.n (r.px xs) (fun i => F64.sum r.n (fun j => F64.mul (entry r.p i j) (x j))) :=
  (tabulates_map_range r.n _).congr fun _ _ => F64.sum_congr fun j hj => congrArg (F64.mul _) (hx j hj)

theorem RlsState.denom_eq (hx : Tabulates r.n xs x) (hpx : Tabulates r.n pxs px) :
    r.denom xs pxs = F64.add r.lam (F64.sum r.n (fun i => F64.mul (x i) (px i))) :=
  congrArg (F64.add r.lam) (F64.sum_congr fun i hi => congrArg₂ F64.mul (hx i hi) (hpx i hi))

theorem RlsState.tabulates_gain (hpx : Tabulates r.n pxs px) (denom : F64) :
    Tabulates r.n (r.gain pxs denom) (fun i => F64.div (px i) denom) :=
  (tabulates_map_range r.n _).congr fun i hi => congrArg (F64.div · denom) (hpx i hi)

/-- Step 6, stored. -/
theorem RlsState.stores_newWeights (hk : Tabulates r.n ks k) (d : Nat) (e : F64) {i : Nat} (hi : i < r.n) :
    F64.Stores (F64.add (r.w.getD i F64.zero) (F64.mul (k i) e))
      ((F64.settleAll d (r.newWeights ks e)).getD i F64.zero) := by
  have hstores := F64.stores_settleAll d (r.newWeights ks e) i (by simpa [RlsState.newWeights] using hi) F64.zero
  simp only [RlsState.newWeights, List.getElem_map, List.getElem_range, hk i hi] at hstores
  exact hstores

/-- Step 7, stored. -/
theorem RlsState.stores_newP (hk : Tabulates r.n ks k) (d : Nat) (denom : F64) {i j : Nat} (hi : i < r.n)
    (hj : j < r.n) :
    F64.Stores (F64.div (F64.sub (entry r.p i j) (F64.mul (F64.mul (k i) (k j)) denom)) r.lam)
      (entry (r.newP d ks denom) i j) := by
  rw [RlsState.newP, entry_map_range _ hi hj, ← hk i hi, ← hk j hj]
  exact F64.stores_settle _ _

end

/-- Settles O52: past the handle checks the slot takes the filter after one `RlsState.sample`. The vectors of its steps
tabulate the families of the statement, from the samples x on (`RlsState.taps_set`). -/
theorem rlsProcessRunsTheRecursion : Obligations.RlsProcessRunsTheRecursion := by
  intro s h r u hfatal hh hslot hlen hpos hring x y e px denom k
  obtain ⟨xs, htaps⟩ : ∃ xs, r.taps (r.buf.set r.pos s.operands.arg0) = xs := ⟨_, rfl⟩
  have hx : Tabulates r.n xs x := htaps ▸ RlsState.taps_set hlen hpos hring _
  have hy : r.output xs = y := RlsState.output_eq hx
  have hpx : Tabulates r.n (r.px xs) px := RlsState.tabulates_px hx
  have hdenom : r.denom xs (r.px xs) = denom := RlsState.denom_eq hx hpx
  have hk : Tabulates r.n (r.gain (r.px xs) denom) k := RlsState.tabulates_gain hpx denom
  obtain ⟨t, ht, hslot', hres, hnf, hframe, hok, hmarks⟩ :=
    finishProcess_completes (State.lt_of_slot_ne_free (s := s) (h := h) (by simp [hslot]))
  refine ⟨t, _, (exec_rlsProcess_passed hfatal hh hslot).trans ht, hslot', rfl, rfl, rfl, List.length_set.trans hlen,
    rfl, ringHolds_set hlen hpos hring, by simp [RlsState.sample, RlsState.newWeights], fun i hi => ?weights,
    fun i j hi hj => ?matrix, ?stored, hres ▸ hnf, hframe, hok, hmarks⟩
  case weights =>
    simp only [RlsState.sample, htaps, hy, hdenom]
    exact RlsState.stores_newWeights hk _ _ hi
  case matrix =>
    simp only [RlsState.sample, htaps, hdenom]
    exact RlsState.stores_newP hk _ _ hi hj
  case stored =>
    rw [hres]
    simp only [RlsState.sample, htaps, hy]
    exact F64.stores_settle _ _

end Sys2Proof.Machine
end

section
/-! The QPSK modulator (45_qpsk_mod R260 to R264): its checks, the bits it reads, the samples it makes of them and the
words it stores. -/

namespace Sys2Proof.Machine

/-! ## The bits (R44, R264) -/

theorem isBit_iff {w : Word} : isBit w = true ↔ w = 0 ∨ w = 1 := by
  have hzero : i64 w = 0 ↔ w = 0 := BitVec.toInt_inj (y := 0#64)
  have hone : i64 w = 1 ↔ w = 1 := BitVec.toInt_inj (y := 1#64)
  rw [isBit, decide_eq_true_iff, hzero, hone]

theorem State.wordRead_of_word {s : State} {a i : Nat} {w : Word} (hw : Memory.word s.mem (a + i) = some w) :
    s.wordRead a i = w := by
  simp [State.wordRead, hw]

theorem State.written_of_word {s : State} {a : Nat} {w : Word} (hw : Memory.word s.mem a = some w) :
    s.written a = true := by
  simp [State.written, hw]

theorem State.readWords_all_isBit {s : State} {a n : Nat} :
    (s.readWords a n).all isBit = true ↔ ∀ j < n, s.wordRead a j = 0 ∨ s.wordRead a j = 1 := by
  simp [State.readWords, isBit_iff]

/-- A written bit array that passes check 6 of R264. -/
theorem State.word_of_readWords_all_isBit {s : State} {a n j : Nat} (hbits : (s.readWords a n).all isBit = true)
    (hj : j < n) (hwritten : s.written (a + j) = true) :
    Memory.word s.mem (a + j) = some 0 ∨ Memory.word s.mem (a + j) = some 1 := by
  obtain ⟨w, hw⟩ := Option.isSome_iff_exists.1 hwritten
  rw [hw, Option.some_inj, Option.some_inj, ← State.wordRead_of_word hw]
  exact State.readWords_all_isBit.1 hbits j hj

theorem State.noteReads_marks_of_written {s : State} {a n : Nat} (h : ∀ j < n, s.written (a + j) = true) :
    (s.noteReads a n).marks = s.marks := by
  have hall : s.allWritten a n = true := by simpa [State.allWritten] using h
  simp [hall]

section
variable {s : State} {a n : Nat}
  (hbits : ∀ j, j < n → Memory.word s.mem (a + j) = some 0 ∨ Memory.word s.mem (a + j) = some 1)
include hbits

theorem State.readWords_all_isBit_of_word : (s.readWords a n).all isBit = true :=
  State.readWords_all_isBit.2 fun j hj => (hbits j hj).imp State.wordRead_of_word State.wordRead_of_word

theorem bitAt_readWords {j : Nat} (hj : j < n) :
    bitAt (s.readWords a n) j = !decide (Memory.word s.mem (a + j) = some 0) := by
  rcases hbits j hj with h | h <;> rw [bitAt, State.getD_readWords_of_word hj h, h] <;> rfl

/-- The Gray map of R260 on symbol k of a bit array in memory. -/
theorem symbolPoint_readWords {k : Nat} (hk : 2 * k + 1 < n) :
    symbolPoint (bitAt (s.readWords a n) (2 * k)) (bitAt (s.readWords a n) (2 * k + 1)) =
      (if Memory.word s.mem (a + (2 * k + 1)) = some 0 then F64.amp else F64.negAmp,
        if Memory.word s.mem (a + 2 * k) = some 0 then F64.amp else F64.negAmp) := by
  rw [bitAt_readWords hbits hk, bitAt_readWords hbits (by omega : 2 * k < n)]
  simp [symbolPoint]

end

/-! ## The samples (R262, R263) -/

theorem phase_eq_iterate {inc : F64} {th : Nat → F64} (hzero : th 0 = F64.zero)
    (hsucc : ∀ n, th (n + 1) = phaseStep inc (th n)) (n : Nat) : th n = (phaseStep inc)^[n] F64.zero := by
  induction n with
  | zero => exact hzero
  | succ n ih => rw [hsucc, ih, Function.iterate_succ_apply']

theorem getElem_modulated (T : Trig) (bits : List Word) (sps : Nat) {len n : Nat} (inc : F64) (hn : n < len) :
    (modulated T bits sps len inc)[n]'(by simpa using hn) = sampleAt T bits sps n ((phaseStep inc)^[n] F64.zero) := by
  simp [modulated, getElem_phases inc len F64.zero n hn]

/-! ## Rows of stored results in memory -/

/-- Element n of a stored complex array (R43). -/
theorem word_putWords_complexWords (m : List Host.Cell) (a k : Nat) {ps : List (F64 × F64)} {n : Nat}
    (hn : n < ps.length) :
    let mem := Memory.putWords m a (F64.settleAll k (complexWords ps))
    ∃ wr wi, Memory.word mem (a + 2 * n) = some wr ∧ Memory.word mem (a + 2 * n + 1) = some wi ∧
      F64.Stores ps[n].1 wr ∧ F64.Stores ps[n].2 wi := by
  obtain ⟨hre, him⟩ := getElem_complexWords ps n hn
  have stored {i : Nat} {v : F64} (hv : (complexWords ps)[i]? = some v) :
      ∃ w, Memory.word (Memory.putWords m a (F64.settleAll k (complexWords ps))) (a + i) = some w ∧ F64.Stores v w := by
    obtain ⟨hi, rfl⟩ := List.getElem?_eq_some_iff.1 hv
    refine ⟨_, Memory.word_putWords_inside (by simpa using hi), ?_⟩
    rw [F64.getElem_settleAll k _ i hi]
    exact F64.stores_settle _ _
  obtain ⟨wr, hwr, hsr⟩ := stored hre
  obtain ⟨wi, hwi, hsi⟩ := stored him
  exact ⟨wr, wi, hwr, hwi, hsr, hsi⟩

/-- What holds of one of the words of a row holds of one of the words read back from it. -/
theorem Memory.any_iff_word_putWords (m : List Host.Cell) (a : Nat) (ws : List Word) (p : Word → Bool) :
    ws.any p = true ↔
      ∃ j w, j < ws.length ∧ Memory.word (Memory.putWords m a ws) (a + j) = some w ∧ p w = true := by
  rw [List.any_eq_true]
  constructor
  · rintro ⟨w, hw, hp⟩
    obtain ⟨j, hj, rfl⟩ := List.mem_iff_getElem.1 hw
    exact ⟨j, _, hj, Memory.word_putWords_inside hj, hp⟩
  · rintro ⟨j, w, hj, hw, hp⟩
    rw [Memory.word_putWords_inside hj, Option.some_inj] at hw
    exact ⟨w, hw ▸ List.getElem_mem hj, hp⟩

/-! ## The checks (R264) -/

/-- Settles O53: the checks of `execQpskModulate`, one after the other; check 6 comes after the bit reads, which write no
field but marks and draws. -/
theorem modulateChecks : Obligations.ModulateChecks := by
  intro s hfatal o len
  have hlength (hpos : 0 < o.numBits) (heven : o.numBits % 2 = 0) : ¬(o.numBits ≤ 0 ∨ o.numBits % 2 ≠ 0) := by omega
  refine ⟨fun hbad => ?length, fun hpos heven => ⟨fun hbad => ?param, fun hfc hfc' hfs hfs' hsps =>
    ⟨fun hout => ?addr, fun hbits hout hbad => ?bit⟩⟩⟩
  case length => exact (guardFatal_eq hfatal).trans ((if_pos hbad).trans (raiseError_eq_endedWith s (by decide)))
  case param =>
    have hrefused : (!isRate o.fc || !isRate o.fs) = true ∨ o.sps ≤ 0 := by simpa [isRate, or_assoc] using hbad
    rw [← raiseError_eq_endedWith s (by decide)]
    exact (guardFatal_eq hfatal).trans ((if_neg (hlength hpos heven)).trans ((ite_or ..).symm.trans (if_pos hrefused)))
  case addr =>
    have hrates : ¬(!isRate o.fc || !isRate o.fs) = true := by simp [isRate, hfc, hfc', hfs, hfs']
    have hrefused : (!s.inRange o.bitsAddr o.numBits.toNat) = true ∨ (!s.inRange o.outAddr (2 * len)) = true := by
      simpa [State.inRange] using hout
    rw [← raiseError_eq_endedWith s (by decide)]
    exact (guardFatal_eq hfatal).trans ((if_neg (hlength hpos heven)).trans ((if_neg hrates).trans
      ((if_neg hsps.not_ge).trans ((ite_or ..).symm.trans (if_pos hrefused)))))
  case bit =>
    obtain ⟨j, w, hj, hw, hzero, hone⟩ := hbad
    have hrefused : (!(s.readWords o.bitsAddr o.numBits.toNat).all isBit) = true := by
      rw [Bool.not_eq_true', ← Bool.not_eq_true, State.readWords_all_isBit]
      exact fun hall => (hall j hj).elim (State.wordRead_of_word hw ▸ hzero) (State.wordRead_of_word hw ▸ hone)
    have hexec := exec_qpskModulate_passed hfatal hpos heven (isRate_iff.2 ⟨hfc, hfc'⟩) (isRate_iff.2 ⟨hfs, hfs'⟩) hsps
      hbits hout
    exact ⟨_, hexec.trans ((if_pos hrefused).trans (raiseError_eq_endedWith _ (by decide))), rfl⟩

/-! ## The command (R263) -/

/-- Sample n as it stands in the output array. -/
theorem modulateDone_sample (s : State) {n : Nat} :
    let o := modulateOperands s.operands
    let v := sampleAt trig (s.readWords o.bitsAddr o.numBits.toNat) o.sps.toNat n
      ((phaseStep (phaseInc o.fc o.fs))^[n] F64.zero)
    n < o.numBits.toNat / 2 * o.sps.toNat →
      ∃ wr wi, Memory.word (modulateDone s).mem (o.outAddr + 2 * n) = some wr ∧
        Memory.word (modulateDone s).mem (o.outAddr + 2 * n + 1) = some wi ∧ F64.Stores v.1 wr ∧ F64.Stores v.2 wi := by
  intro o v hn
  have hstored := word_putWords_complexWords s.mem o.outAddr (s.draws + o.numBits.toNat) (n := n)
    (ps := modulated trig (s.readWords o.bitsAddr o.numBits.toNat) o.sps.toNat _ (phaseInc o.fc o.fs)) (by simpa using hn)
  rw [getElem_modulated _ _ _ _ hn] at hstored
  exact hstored

/-- Settles O54: past its checks QPSK_MODULATE completes from `modulateDone`, which stores the samples of
`getElem_modulated` in order (`word_putWords_complexWords`). -/
theorem modulateWritesTheSamples : Obligations.ModulateWritesTheSamples := by
  intro s th hfatal o nb sps len hpos heven hfc hfc' hfs hfs' hsps hbitsAddr hout hbits hzero hsucc
  have hpassed : ¬(!(s.readWords o.bitsAddr nb).all isBit) = true := by simp [State.readWords_all_isBit_of_word hbits]
  have hexec := exec_qpskModulate_passed hfatal hpos heven (isRate_iff.2 ⟨hfc, hfc'⟩) (isRate_iff.2 ⟨hfs, hfs'⟩) hsps
    hbitsAddr hout
  refine ⟨_, hexec.trans (if_neg hpassed), rfl, fun n hn => ?samples, fun x hx => modulateDone_byte_outside hx, ?nf,
    rfl, rfl, rfl, ⟨rfl, rfl, rfl, rfl, rfl⟩, ⟨rfl, rfl, rfl, rfl, rfl, rfl⟩, ?marks⟩
  case samples =>
    have hk : 2 * (n / sps) + 1 < nb := by
      have := Nat.div_lt_of_lt_mul (hn.trans_eq (Nat.mul_comm _ sps))
      omega
    obtain ⟨wr, wi, hwr, hwi, hsr, hsi⟩ := modulateDone_sample s hn
    have hphase : th n = (phaseStep (phaseInc o.fc o.fs))^[n] F64.zero := phase_eq_iterate hzero hsucc n
    rw [← hphase, sampleAt, symbolPoint_readWords hbits hk] at hsr hsi
    exact ⟨wr, wi, hwr, hwi, hsr, hsi⟩
  case nf =>
    have hany := Memory.any_iff_word_putWords s.mem o.outAddr (F64.settleAll (s.draws + nb)
      (complexWords (modulated trig (s.readWords o.bitsAddr nb) sps len (phaseInc o.fc o.fs)))) (!F64.isFinite ·)
    simp only [F64.length_settleAll, length_complexWords, length_modulated, Bool.not_eq_true'] at hany
    exact Bool.or_eq_true_iff.trans (or_congr_right hany)
  case marks =>
    exact State.noteReads_marks_of_written fun j hj => (hbits j hj).elim State.written_of_word State.written_of_word

/-! ## Sample 0 (I4) -/

/-- A check that a command with OK has passed. -/
theorem passed_of_ok {c : Prop} [Decidable c] {code : Code} {s t : State} {k : Answer} (hok : t.status.err = .ok)
    (hcode : code ≠ .ok) (h : (if c then raiseError code s else k) = .next t) : ¬c ∧ k = .next t := by
  by_cases hc : c
  · rw [if_pos hc] at h
    cases h
    exact absurd hok hcode
  · exact ⟨hc, (if_neg hc).symm.trans h⟩

/-- A modulation that ends with OK has passed the checks of R264. -/
theorem exec_qpskModulate_of_ok {s t : State} (h : exec .qpskModulate s = .next t) (hok : t.status.err = .ok) :
    let o := modulateOperands s.operands
    1 < o.numBits.toNat ∧ 0 < o.sps.toNat ∧ (s.readWords o.bitsAddr o.numBits.toNat).all isBit = true ∧
      t = (modulateDone s).complete .ok := by
  dsimp only
  obtain ⟨-, h⟩ := passed_of_ok hok (by decide) h
  obtain ⟨hlength, h⟩ := passed_of_ok hok (by decide) h
  obtain ⟨-, h⟩ := passed_of_ok hok (by decide) h
  obtain ⟨hsps, h⟩ := passed_of_ok hok (by decide) h
  obtain ⟨-, h⟩ := passed_of_ok hok (by decide) h
  obtain ⟨-, h⟩ := passed_of_ok hok (by decide) h
  obtain ⟨hbits, h⟩ := passed_of_ok hok (by decide) h
  simp only [not_or, not_le, not_not, Bool.not_eq_true', Bool.not_eq_false] at hlength hsps hbits
  exact ⟨by omega, by omega, hbits, (Host.Outcome.next.inj h).symm⟩

/-- I4 property 2: at phase +0.0 the carrier is (1.0, +0.0), and turning a symbol by it is exact. -/
theorem rotated_symbolPoint_zero :
    ∀ b0 b1 : Bool, rotated trig (symbolPoint b0 b1) F64.zero = symbolPoint b0 b1 := by
  decide +kernel

theorem symbolPoint_not_nan :
    ∀ b0 b1 : Bool, F64.isNaN (symbolPoint b0 b1).1 = false ∧ F64.isNaN (symbolPoint b0 b1).2 = false := by
  decide

theorem F64.Stores.eq_of_not_nan {v w : F64} (h : F64.Stores v w) (hv : F64.isNaN v = false) : w = v := by
  simpa [F64.Stores, hv] using h

/-- Settles O55: sample 0 (`modulateDone_sample`) is the first symbol at phase +0.0, and its two words are stored as they
are. -/
theorem firstSampleIsTheSymbol : Obligations.FirstSampleIsTheSymbol := by
  intro s t o hwritten h hok
  obtain ⟨hnb, hsps, hall, rfl⟩ := exec_qpskModulate_of_ok h hok
  obtain ⟨wr, wi, hwr, hwi, hsr, hsi⟩ := modulateDone_sample s (Nat.mul_pos (Nat.div_pos hnb two_pos) hsps)
  simp only [sampleAt, Nat.zero_div, Function.iterate_zero, id_eq, rotated_symbolPoint_zero] at hsr hsi
  rw [hsr.eq_of_not_nan (symbolPoint_not_nan _ _).1] at hwr
  rw [hsi.eq_of_not_nan (symbolPoint_not_nan _ _).2] at hwi
  rw [symbolPoint_readWords (fun j hj => State.word_of_readWords_all_isBit hall hj (hwritten j hj)) hnb] at hwr hwi
  exact ⟨hwr, hwi⟩

end Sys2Proof.Machine
end

section
/-! The QPSK demodulator (46_qpsk_demod R280 to R291): its checks, the samples it reads and turns to baseband, the decision
of each symbol and the words it stores. -/

namespace Sys2Proof.Machine

/-! ## The checks (R280) -/

/-- Settles O56: the checks of `execQpskDemodulate`, one after the other; checks that answer alike in a row are one. -/
theorem demodulateChecks : Obligations.DemodulateChecks := by
  intro s hfatal o skip m
  rw [exec, execQpskDemodulate, guardFatal_eq hfatal]
  refine ⟨fun hlen => ?length, fun hlen => ⟨fun hbad => ?param, fun hfc hfc' hfs hfs' hsps hdelay hout => ?addr⟩⟩
  case length => exact (if_pos hlen).trans (raiseError_eq_endedWith s (by decide))
  case param =>
    have hrefused : ((!isRate o.fc || !isRate o.fs) = true ∨ o.sps ≤ 0) ∨ o.delay < 0 := by
      simpa [isRate, or_assoc] using hbad
    rw [if_neg hlen.not_ge, ← ite_or, ← ite_or, if_pos hrefused]
    exact raiseError_eq_endedWith s (by decide)
  case addr =>
    have hrates : ¬(!isRate o.fc || !isRate o.fs) = true := by simp [isRate, hfc, hfc', hfs, hfs']
    have hrefused : (!s.inRange o.inAddr (2 * o.length.toNat)) = true ∨
        (!s.inRange o.bitsAddr (2 * m) || !s.inRange o.consAddr (2 * m)) = true := by
      simpa [State.inRange] using hout
    rw [if_neg hlen.not_ge, if_neg hrates, if_neg hsps.not_ge, if_neg hdelay.not_gt, ← ite_or]
    exact (if_pos hrefused).trans (raiseError_eq_endedWith s (by decide))

/-! ## The samples (R43, R282 to R284) -/

/-- Words 2n and 2n + 1 of a row are complex sample n. -/
theorem getElem?_complexOfWords {ws : List Word} {n : Nat} {re im : Word} (hre : ws[2 * n]? = some re)
    (him : ws[2 * n + 1]? = some im) : (complexOfWords ws)[n]? = some (re, im) := by
  induction n generalizing ws with
  | zero =>
    match ws with
    | [] | [_] => simp at him
    | _ :: _ :: _ => simpa [complexOfWords, f64] using And.intro hre him
  | succ n ih =>
    match ws with
    | [] | [_] => simp [Nat.mul_add] at him
    | _ :: _ :: ws => exact ih hre him

theorem State.getElem?_readWords_of_word {s : State} {a n j : Nat} {w : Word} (hj : j < n)
    (hw : Memory.word s.mem (a + j) = some w) : (s.readWords a n)[j]? = some w := by
  simp [State.readWords, hj, State.wordRead_of_word hw]

/-- Sample n is turned by the phase advanced n times. -/
theorem getElem?_baseband (T : Trig) {smp : List (F64 × F64)} (inc : F64) {n : Nat} {p : F64 × F64}
    (hp : smp[n]? = some p) :
    (baseband T smp inc)[n]? = some (downconvert T p ((phaseStep inc)^[n] F64.zero)) := by
  obtain ⟨hn, -⟩ := List.getElem?_eq_some_iff.1 hp
  have hphase : (phases inc smp.length F64.zero)[n]? = some ((phaseStep inc)^[n] F64.zero) :=
    List.getElem?_eq_some_iff.2 ⟨by simpa using hn, getElem_phases inc _ _ n hn⟩
  simp [baseband, List.getElem?_zipWith, hp, hphase]

/-! ## The decision of a symbol (R286 to R289) -/

/-- The average of R287 over the samples lo .. hi-1 of a family. -/
def windowMean (f : Nat → F64 × F64) (lo hi : Nat) : F64 × F64 :=
  (F64.div (F64.sum (hi - lo) fun i => (f (lo + i)).1) (F64.ofNat (hi - lo)),
    F64.div (F64.sum (hi - lo) fun i => (f (lo + i)).2) (F64.ofNat (hi - lo)))

/-- Only the samples in the window count. -/
theorem average_eq_windowMean {bb : List (F64 × F64)} {f : Nat → F64 × F64} {lo hi : Nat}
    (hbb : ∀ i < hi - lo, bb[lo + i]? = some (f (lo + i))) :
    average bb lo hi = windowMean f lo hi := by
  have hget {i : Nat} (hi : i < hi - lo) : bb.getD (lo + i) (F64.zero, F64.zero) = f (lo + i) := by
    rw [List.getD_eq_getElem?_getD, hbb i hi, Option.getD_some]
  rw [average, windowMean, F64.sum_congr fun i hi => congrArg Prod.fst (hget hi),
    F64.sum_congr fun i hi => congrArg Prod.snd (hget hi)]

section
variable (T : Trig) (bb : List (F64 × F64)) (sps len k j : Nat)

theorem empty_decisionAt :
    (decisionAt T bb sps len k j).empty = decide (windowHi sps len j ≤ windowLo sps j) := by
  simp only [decisionAt]
  split <;> simp [*]

theorem decisionAt_of_window {sps len j : Nat} (h : windowLo sps j < windowHi sps len j) :
    let p := average bb (windowLo sps j) (windowHi sps len j)
    decisionAt T bb sps len k j =
      { point := (F64.settle k p.1, F64.settle (k + 1) p.2), dibit := decideSymbol T p, empty := false } :=
  if_neg h.not_ge

end

/-- The two bit words of a sector (R289, R291). -/
theorem bitWord_sectorOf (a : F64) :
    (bitWord (sectorOf a).1, bitWord (sectorOf a).2) =
      if F64.le F64.zero a && F64.lt a F64.halfPi then (0#64, 0#64)
      else if F64.le F64.halfPi a && F64.lt a F64.piF then (0#64, 1#64)
      else if F64.le F64.negHalfPi a && F64.lt a F64.zero then (1#64, 0#64)
      else (1#64, 1#64) := by
  unfold sectorOf
  split_ifs <;> rfl

/-! ## The command (R280, R291) -/

/-- The decisions of a QPSK_DEMODULATE that passes every check. -/
def demodulateDecisions (s : State) : List Decision :=
  let o := demodulateOperands s.operands
  let skip := clampedDelay o.length o.delay
  let len := o.length.toNat - skip
  let smp := complexOfWords (s.readWords (o.inAddr + 2 * skip) (2 * len))
  decisions trig (baseband trig smp (phaseInc o.fc o.fs)) o.sps.toNat len (s.draws + 2 * len) (ceilDiv len o.sps.toNat)

/-- The bits are written first, then the points (R291). -/
theorem demodulateDone_mem (s : State) :
    let o := demodulateOperands s.operands
    (demodulateDone s).mem = Memory.putWords (Memory.putWords s.mem o.bitsAddr (bitWords (demodulateDecisions s)))
      o.consAddr (complexWords ((demodulateDecisions s).map Decision.point)) :=
  rfl

theorem Memory.word_putWords_of_getElem? {m : List Host.Cell} {a i : Nat} {ws : List Word} {w : Word}
    (hw : ws[i]? = some w) : Memory.word (Memory.putWords m a ws) (a + i) = some w := by
  obtain ⟨hi, rfl⟩ := List.getElem?_eq_some_iff.1 hw
  exact Memory.word_putWords_inside hi

section
variable {s : State} {d : Decision} {j : Nat} (hd : (demodulateDecisions s)[j]? = some d)
include hd

/-- Point j as it stands in the constellation array. -/
theorem demodulateDone_point :
    let a := (demodulateOperands s.operands).consAddr
    Memory.word (demodulateDone s).mem (a + 2 * j) = some d.point.1 ∧
      Memory.word (demodulateDone s).mem (a + 2 * j + 1) = some d.point.2 := by
  obtain ⟨hj, rfl⟩ := List.getElem?_eq_some_iff.1 hd
  obtain ⟨hre, him⟩ := getElem_complexWords ((demodulateDecisions s).map Decision.point) j (by simpa using hj)
  rw [List.getElem_map] at hre him
  exact ⟨Memory.word_putWords_of_getElem? hre, Memory.word_putWords_of_getElem? him⟩

/-- The bits of symbol j as they stand in the bit array, where the constellation array does not cover them. -/
theorem demodulateDone_bit {b : Nat} (hb : b < 2) :
    let o := demodulateOperands s.operands
    (o.bitsAddr + 2 * j + b < o.consAddr ∨ o.consAddr + 2 * (demodulateDecisions s).length ≤ o.bitsAddr + 2 * j + b) →
      Memory.word (demodulateDone s).mem (o.bitsAddr + 2 * j + b) =
        some (if b = 0 then bitWord d.dibit.1 else bitWord d.dibit.2) := by
  intro o hout
  obtain ⟨hj, rfl⟩ := List.getElem?_eq_some_iff.1 hd
  obtain ⟨hb0, hb1⟩ := getElem_bitWords (demodulateDecisions s) j hj
  rw [demodulateDone_mem, Memory.word_putWords_outside (by simpa using hout), Nat.add_assoc]
  obtain rfl | rfl : b = 0 ∨ b = 1 := by omega
  · exact Memory.word_putWords_of_getElem? hb0
  · exact Memory.word_putWords_of_getElem? hb1

end

theorem length_demodulateDecisions (s : State) :
    let o := demodulateOperands s.operands
    (demodulateDecisions s).length = ceilDiv (o.length.toNat - clampedDelay o.length o.delay) o.sps.toNat :=
  length_decisions ..

/-- Symbol j with a window, decided from the samples `smp` in memory at the phases `th`. -/
theorem demodulateDecisions_of_window {s : State} {smp : Nat → F64 × F64} {th : Nat → F64} {j : Nat} :
    let o := demodulateOperands s.operands
    let skip := clampedDelay o.length o.delay
    let len := o.length.toNat - skip
    let sps := o.sps.toNat
    let lo := windowLo sps j
    let hi := windowHi sps len j
    let p := windowMean (fun n => downconvert trig (smp n) (th n)) lo hi
    (∀ n, n < len → Memory.word s.mem (o.inAddr + 2 * (skip + n)) = some (smp n).1 ∧
      Memory.word s.mem (o.inAddr + 2 * (skip + n) + 1) = some (smp n).2) →
    (∀ n, th n = (phaseStep (phaseInc o.fc o.fs))^[n] F64.zero) →
    j < ceilDiv len sps → lo < hi →
      ∃ k, (demodulateDecisions s)[j]? =
        some { point := (F64.settle k p.1, F64.settle (k + 1) p.2), dibit := decideSymbol trig p, empty := false } := by
  intro o skip len sps lo hi p hsmp hth hj hwin
  refine ⟨s.draws + 2 * len + 2 * j, ?_⟩
  have hsample (n : Nat) (hn : n < len) :
      (complexOfWords (s.readWords (o.inAddr + 2 * skip) (2 * len)))[n]? = some (smp n) := by
    obtain ⟨hre, him⟩ := hsmp n hn
    rw [Nat.mul_add, ← Nat.add_assoc] at hre him
    exact getElem?_complexOfWords (State.getElem?_readWords_of_word (by omega) hre)
      (State.getElem?_readWords_of_word (by omega) him)
  have havg : average (baseband trig (complexOfWords (s.readWords (o.inAddr + 2 * skip) (2 * len)))
      (phaseInc o.fc o.fs)) lo hi = p := by
    refine average_eq_windowMean fun i hi' => ?_
    have hlen : lo + i < len := by
      have : hi ≤ len := Nat.min_le_right _ _
      omega
    rw [getElem?_baseband trig _ (hsample _ hlen), ← hth]
  rw [← havg, ← decisionAt_of_window trig _ _ hwin]
  simp [demodulateDecisions, decisions, o, skip, len, sps, hj]

theorem any_empty_demodulateDecisions (s : State) :
    let o := demodulateOperands s.operands
    let len := o.length.toNat - clampedDelay o.length o.delay
    let sps := o.sps.toNat
    (demodulateDecisions s).any (fun d => d.empty) = true ↔
      ∃ j, j < ceilDiv len sps ∧ windowHi sps len j ≤ windowLo sps j := by
  simp [demodulateDecisions, decisions, empty_decisionAt]

/-- Settles O57: past its checks QPSK_DEMODULATE completes from `demodulateDone`, which stores the decisions of
`demodulateDecisions_of_window`. -/
theorem demodulateDecidesTheSymbols : Obligations.DemodulateDecidesTheSymbols := by
  intro s smp th hfatal o skip len sps m hlen hfc hfc' hfs hfs' hsps hdelay hin hbits hcons hsmp hzero hsucc c sn lo hi
    re im dibit
  have hexec := exec_qpskDemodulate_passed hfatal hlen (isRate_iff.2 ⟨hfc, hfc'⟩) (isRate_iff.2 ⟨hfs, hfs'⟩) hsps hdelay
    hin hbits hcons
  have hphase (n : Nat) : th n = (phaseStep (phaseInc o.fc o.fs))^[n] F64.zero := phase_eq_iterate hzero hsucc n
  have hsymbol {j : Nat} (hj : j < m) (hwin : lo j < hi j) := demodulateDecisions_of_window hsmp hphase hj hwin
  refine ⟨_, hexec, rfl, rfl, fun j hj hwin => ?points, fun j hj hwin b hb hout => ?bits,
    fun x hx hx' => demodulateDone_byte_outside hx hx', ?empty, ?nf, rfl, ⟨rfl, rfl, rfl, rfl, rfl⟩,
    ⟨rfl, rfl, rfl, rfl, rfl, rfl⟩, ?marks⟩
  case points =>
    obtain ⟨k, hd⟩ := hsymbol hj hwin
    obtain ⟨hre, him⟩ := demodulateDone_point hd
    exact ⟨_, _, hre, him, F64.stores_settle _ _, F64.stores_settle _ _⟩
  case bits =>
    obtain ⟨k, hd⟩ := hsymbol hj hwin
    have hdibit : (bitWord (sectorOf (F64.atan2 (im j) (re j))).1, bitWord (sectorOf (F64.atan2 (im j) (re j))).2) =
      dibit j := bitWord_sectorOf _
    rw [← hdibit]
    exact demodulateDone_bit hd hb (by rwa [length_demodulateDecisions])
  case empty => exact Bool.or_eq_true_iff.trans (or_congr_right (any_empty_demodulateDecisions s))
  case nf =>
    have hany := Memory.any_iff_word_putWords (Memory.putWords s.mem o.bitsAddr (bitWords (demodulateDecisions s)))
      o.consAddr (complexWords ((demodulateDecisions s).map Decision.point)) (!F64.isFinite ·)
    simp only [length_complexWords, List.length_map, length_demodulateDecisions, Bool.not_eq_true'] at hany
    exact Bool.or_eq_true_iff.trans (or_congr_right hany)
  case marks =>
    refine State.noteReads_marks_of_written fun j (hj : j < 2 * len) => ?_
    obtain ⟨n, hn⟩ := Nat.even_or_odd' j
    obtain ⟨hre, him⟩ := hsmp n (by omega)
    rw [Nat.mul_add, ← Nat.add_assoc] at hre him
    rcases hn with rfl | rfl
    · exact State.written_of_word hre
    · exact State.written_of_word him

end Sys2Proof.Machine
end

section
/-! The decision inverts the Gray map (46_qpsk_demod R290): the sectors of R289 as intervals of reals, and the point of each
dibit at the centre of its own. -/

namespace Sys2Proof.Machine

/-! ## Finite values as reals -/

/-- The real number a finite value stands for. -/
noncomputable def F64.real (x : F64) : ℝ := (F64.signedUnits x : ℝ) / 2 ^ 1074

theorem F64.le_iff_real {x y : F64} (hx : F64.isFinite x = true) (hy : F64.isFinite y = true) :
    F64.le x y = true ↔ F64.real x ≤ F64.real y := by
  rw [((comparisonsOrderTheValues x y).1 hx hy).2.1, F64.real, F64.real, div_le_div_iff_of_pos_right (by positivity),
    Int.cast_le]

theorem F64.lt_iff_real {x y : F64} (hx : F64.isFinite x = true) (hy : F64.isFinite y = true) :
    F64.lt x y = true ↔ F64.real x < F64.real y := by
  rw [((comparisonsOrderTheValues x y).1 hx hy).1, F64.real, F64.real, div_lt_div_iff_of_pos_right (by positivity),
    Int.cast_lt]

theorem F64.real_zero : F64.real F64.zero = 0 := by
  have h : F64.signedUnits F64.zero = 0 := by decide
  simp [F64.real, h]

theorem F64.real_neg_of_signedUnits {x y : F64} (h : F64.signedUnits x = -F64.signedUnits y) :
    F64.real x = -F64.real y := by
  rw [F64.real, F64.real, h, Int.cast_neg, neg_div]

/-- The borders of the sectors: HALF_PI as a real, and PI_F and the negated HALF_PI in terms of it (R21, R289). -/
theorem F64.real_halfPi : F64.real F64.halfPi = 7074237752028440 / 2 ^ 52 := by
  have h : F64.signedUnits F64.halfPi = 2 ^ 1022 * 7074237752028440 := by decide +kernel
  rw [F64.real, h, Int.cast_mul, Int.cast_pow, show (1074 : Nat) = 1022 + 52 from rfl, pow_add]
  exact mul_div_mul_left _ _ (by positivity)

theorem F64.real_piF : F64.real F64.piF = 2 * F64.real F64.halfPi := by
  have h : F64.signedUnits F64.piF = 2 * F64.signedUnits F64.halfPi := by decide +kernel
  rw [F64.real, F64.real, h, Int.cast_mul, Int.cast_ofNat, mul_div_assoc]

theorem F64.real_negHalfPi : F64.real F64.negHalfPi = -F64.real F64.halfPi :=
  F64.real_neg_of_signedUnits (by decide +kernel)

/-- One ulp of an angle below 4 is below 0.1. -/
theorem F64.withinUlps.near {v : F64} {r : ℝ} (h : F64.withinUlps 1 v r) (hr : |r| < 4) : |F64.real v - r| ≤ 0.1 := by
  obtain ⟨-, e, -, hulp, hdist⟩ := h
  have he : e ≤ -50 := by
    rcases hulp with rfl | hulp
    · norm_num
    · have : (2 : ℝ) ^ (e + 52) < 2 ^ (2 : ℤ) := by linarith
      have := (zpow_lt_zpow_iff_right₀ (one_lt_two : (1 : ℝ) < 2)).1 this
      omega
  calc |F64.real v - r| ≤ 1 * 2 ^ e := hdist
    _ ≤ 1 * 2 ^ (-50 : ℤ) := by gcongr; exact one_le_two
    _ ≤ 0.1 := by norm_num

/-! ## The sectors (R289) -/

/-- The sector of a finite angle (R289), in reals. -/
theorem sectorOf_eq_of_finite {v : F64} (hv : F64.isFinite v = true) :
    let h := F64.real F64.halfPi
    let x := F64.real v
    sectorOf v =
      if 0 ≤ x ∧ x < h then (false, false)
      else if h ≤ x ∧ x < 2 * h then (false, true)
      else if -h ≤ x ∧ x < 0 then (true, false)
      else (true, true) := by
  have hzero : F64.isFinite F64.zero = true := by decide
  have hhalf : F64.isFinite F64.halfPi = true := by decide
  have hneg : F64.isFinite F64.negHalfPi = true := by decide
  have hpi : F64.isFinite F64.piF = true := by decide
  simp only [sectorOf, Bool.and_eq_true, F64.le_iff_real hzero hv, F64.le_iff_real hhalf hv, F64.le_iff_real hneg hv,
    F64.lt_iff_real hv hhalf, F64.lt_iff_real hv hpi, F64.lt_iff_real hv hzero, F64.real_zero, F64.real_piF,
    F64.real_negHalfPi]

/-- The angle of the point of a dibit (R260), the centre of its sector. -/
noncomputable def symbolAngle (b0 b1 : Bool) : ℝ :=
  (if b0 then -1 else 1) * (if b1 then 3 * (Real.pi / 4) else Real.pi / 4)

theorem abs_symbolAngle_lt_pi (b0 b1 : Bool) : |symbolAngle b0 b1| < Real.pi := by
  have hpi := Real.pi_pos
  rw [abs_lt, symbolAngle]
  split_ifs <;> constructor <;> linarith

/-- An angle within 0.1 of the centre of a sector lies in it. -/
theorem sectorOf_near_symbolAngle {v : F64} {b0 b1 : Bool} (hv : F64.isFinite v = true)
    (hnear : |F64.real v - symbolAngle b0 b1| ≤ 0.1) : sectorOf v = (b0, b1) := by
  have hlo := Real.pi_gt_d2
  have hhi := Real.pi_lt_d2
  obtain ⟨hnear, hnear'⟩ := abs_le.1 hnear
  rw [sectorOf_eq_of_finite hv, F64.real_halfPi]
  cases b0 <;> cases b1 <;> simp only [symbolAngle, if_true, if_false, Bool.false_eq_true] at hnear hnear'
  · rw [if_pos ⟨by linarith, by linarith⟩]
  · rw [if_neg fun h => by linarith [h.2], if_pos ⟨by linarith, by linarith⟩]
  · rw [if_neg fun h => by linarith [h.1], if_neg fun h => by linarith [h.1], if_pos ⟨by linarith, by linarith⟩]
  · rw [if_neg fun h => by linarith [h.1], if_neg fun h => by linarith [h.1], if_neg fun h => by linarith [h.1]]

/-! ## The constellation (R260) -/

/-- A point at `±r ± r i` lies on a diagonal. -/
theorem arg_symbol {r : ℝ} (hr : 0 < r) (b0 b1 : Bool) :
    Complex.arg ⟨if b1 then -r else r, if b0 then -r else r⟩ = symbolAngle b0 b1 := by
  have hcos : Real.cos (3 * (Real.pi / 4)) = -(√2 / 2) := by
    rw [show 3 * (Real.pi / 4) = Real.pi - Real.pi / 4 by ring, Real.cos_pi_sub, Real.cos_pi_div_four]
  have hsin : Real.sin (3 * (Real.pi / 4)) = √2 / 2 := by
    rw [show 3 * (Real.pi / 4) = Real.pi - Real.pi / 4 by ring, Real.sin_pi_sub, Real.sin_pi_div_four]
  have hhalf : r * √2 * (√2 / 2) = r := by
    linear_combination (r / 2) * Real.mul_self_sqrt (show (0 : ℝ) ≤ 2 by norm_num)
  have hre : (if b1 then -r else r) = r * √2 * Real.cos (symbolAngle b0 b1) := by
    cases b0 <;> cases b1 <;> simp [symbolAngle, hcos, hhalf]
  have him : (if b0 then -r else r) = r * √2 * Real.sin (symbolAngle b0 b1) := by
    cases b0 <;> cases b1 <;> simp [symbolAngle, hsin, hhalf]
  obtain ⟨hgt, hlt⟩ := abs_lt.1 (abs_symbolAngle_lt_pi b0 b1)
  rw [hre, him]
  refine (congrArg Complex.arg (Complex.ext ?_ ?_)).trans
    (Complex.arg_mul_cos_add_sin_mul_I (r := r * √2) (by positivity) ⟨hgt, hlt.le⟩)
  · simp [Complex.cos_ofReal_re]
  · simp [Complex.sin_ofReal_re]

theorem F64.real_amp_pos : 0 < F64.real F64.amp := by
  have h : 0 < F64.signedUnits F64.amp := by decide +kernel
  exact div_pos (by exact_mod_cast h) (by positivity)

theorem F64.real_negAmp : F64.real F64.negAmp = -F64.real F64.amp :=
  F64.real_neg_of_signedUnits (by decide +kernel)

theorem arg_symbolPoint (b0 b1 : Bool) :
    let p := symbolPoint b0 b1
    Complex.arg ⟨F64.real p.1, F64.real p.2⟩ = symbolAngle b0 b1 := by
  simp only [← arg_symbol F64.real_amp_pos, symbolPoint, apply_ite F64.real, F64.real_negAmp]

/-- Settles O58: the point of a dibit has the angle in the centre of its sector, and one ulp does not leave the sector. -/
theorem decisionInvertsTheGrayMap : Obligations.DecisionInvertsTheGrayMap := by
  intro T b0 b1 p hulp
  have harg : Complex.arg ⟨(F64.signedUnits p.1 : ℝ) / 2 ^ 1074, (F64.signedUnits p.2 : ℝ) / 2 ^ 1074⟩ =
    symbolAngle b0 b1 := arg_symbolPoint b0 b1
  rw [harg] at hulp
  exact sectorOf_near_symbolAngle hulp.1 (hulp.near ((abs_symbolAngle_lt_pi b0 b1).trans Real.pi_lt_four))

end Sys2Proof.Machine
end

section
/-! Whose step it is (20_memory R83, 60_exceptions R327, 70_reset R351): the core's turn, a host access or the reset input.
Every one of them answers, a pending command completes at the core's turn (40_command R132), and the interrupt line
follows (60_exceptions R316, R317). -/

namespace Sys2Proof.Machine

/-! ## The core's turn (R132) -/

/-- What a completion writes, with any code (R132). -/
def State.completed (t : State) : Prop := t.pending = none ∧ t.status.done = true ∧ t.status.busy = false

theorem exec_completes (i : Instr) (s : State) : ∃ t, exec i s = .next t ∧ t.completed := by
  rcases exec_error_or i s with ⟨c, _, h⟩ | ⟨_, h⟩ | ⟨t, h⟩
  · exact ⟨_, h, rfl, rfl, rfl⟩
  · exact ⟨_, h, rfl, rfl, rfl⟩
  · exact ⟨_, h, rfl, rfl, rfl⟩

theorem illegalCommand_eq_raiseError (s : State) : ∃ c, illegalCommand s = raiseError c s := by
  cases hf : s.status.fatal with
  | true => exact ⟨_, guardFatal_fatal hf⟩
  | false => exact ⟨_, guardFatal_eq hf⟩

theorem coreTurn_of_idle {s : State} (hp : s.pending = none) : coreTurn s = .next s := by
  simp only [coreTurn, hp]

/-- With a command pending, the core's turn is an illegal word's error or the command. -/
theorem coreTurn_of_pending {s : State} (hp : s.pending.isSome = true) :
    (∃ c, coreTurn s = raiseError c s) ∨ ∃ i, coreTurn s = exec i s := by
  obtain ⟨p, hp⟩ := Option.isSome_iff_exists.1 hp
  cases hd : decode p.word with
  | error e =>
    rw [coreTurn_of_illegal hp hd]
    exact .inl (illegalCommand_eq_raiseError s)
  | ok i => exact .inr ⟨i, coreTurn_of_decode hp hd⟩

theorem coreTurn_completes {s : State} (hp : s.pending.isSome = true) : ∃ t, coreTurn s = .next t ∧ t.completed := by
  rcases coreTurn_of_pending hp with ⟨c, h⟩ | ⟨i, h⟩
  · exact ⟨_, h, rfl, rfl, rfl⟩
  · rw [h]
    exact exec_completes i s

theorem coreTurn_answers (s : State) : ∃ t, coreTurn s = .next t := by
  cases hp : s.pending with
  | none => exact ⟨s, coreTurn_of_idle hp⟩
  | some p =>
    obtain ⟨t, ht, _⟩ := coreTurn_completes (s := s) (by simp [hp])
    exact ⟨t, ht⟩

/-- No command writes CTRL (R147). -/
theorem coreTurn_keeps_ie {s t : State} (hp : s.pending.isSome = true) (h : coreTurn s = .next t) : t.ie = s.ie := by
  rcases coreTurn_of_pending hp with ⟨c, he⟩ | ⟨i, he⟩
  · cases h.symm.trans he
    rfl
  · obtain ⟨_, hie, _⟩ := (exec_commandEnd (he.symm.trans h)).hostSideKept
    exact hie

/-! ## The next step -/

theorem step_reset {s : State} {rest : List Input} (hin : s.inputs = .reset :: rest) :
    step s = .next (State.resetInput { s with inputs := rest }) := by
  simp only [step, nextStep, hin, runInput]

/-- A step is the core's turn, a host load, a host store or the reset input, with some inputs left. -/
theorem step_cases (s : State) :
    ∃ is, step s = coreTurn { s with inputs := is } ∨
      (∃ width off, step s = .next (hostLoad width off { s with inputs := is })) ∨
      (∃ width off w, step s = .next (hostStore width off w { s with inputs := is })) ∨
      step s = .next (State.resetInput { s with inputs := is }) := by
  rw [step, nextStep]
  split
  · exact ⟨s.inputs, .inl rfl⟩
  · next i rest _ =>
    cases i with
    | load width off => exact ⟨rest, .inr (.inl ⟨width, off, rfl⟩)⟩
    | store width off w => exact ⟨rest, .inr (.inr (.inl ⟨width, off, w, rfl⟩))⟩
    | reset => exact ⟨rest, .inr (.inr (.inr rfl))⟩
    | coreTurn => exact ⟨rest, .inl rfl⟩
    | wait =>
      simp only [runInput, waitTurn]
      split
      · exact ⟨.wait :: rest, .inl rfl⟩
      · exact ⟨rest, .inr (.inl ⟨64, 0x010, rfl⟩)⟩

/-- Settles O8: only the core's turn could fail to answer (`step_cases`), and it ends a pending command with an error or
with OK. -/
theorem everyStepAnswersAndCommandsComplete : Obligations.EveryStepAnswersAndCommandsComplete := by
  refine ⟨fun s => ?_, fun s s0 hturn hp => ?_⟩
  · obtain ⟨is, h | ⟨width, off, h⟩ | ⟨width, off, w, h⟩ | h⟩ := step_cases s
    · rw [h]
      exact coreTurn_answers _
    · exact ⟨_, h⟩
    · exact ⟨_, h⟩
    · exact ⟨_, h⟩
  · rw [step_eq_coreTurn hturn]
    exact coreTurn_completes (State.coreStarts_pending hturn ▸ hp)

/-- Settles O9: the step is the core's turn, with nothing pending. -/
theorem idleBlockKeepsAllState : Obligations.IdleBlockKeepsAllState := fun _ hp hin =>
  (step_eq_coreTurn (.inl ⟨hin, rfl⟩)).trans (coreTurn_of_idle hp)

/-- Settles O22: the step is `State.resetInput`, whatever is pending. -/
theorem resetInputResetsEverything : Obligations.ResetInputResetsEverything := by
  intro s rest hin
  refine ⟨_, step_reset hin, rfl, ?status, rfl, rfl, fun k hk => ?args, rfl, State.slot_eq_free rfl, List.length_replicate,
    fun _ => rfl, rfl, rfl, rfl⟩
  case status =>
    change Status.reset.word = 0
    decide
  case args => interval_cases k <;> rfl

/-! ## The interrupt line (R316, R317) -/

theorem State.irq_iff {s : State} : s.irq = true ↔ s.ie = true ∧ s.status.done = true := Bool.and_eq_true_iff

theorem State.irq_of_not_done {s : State} (h : s.status.done = false) : s.irq = false := by
  rw [State.irq, h, Bool.and_false]

/-- Settles O21: irq is IE and DONE; a completion sets DONE and keeps IE, and the stores and the reset input write the one
bit or the other. -/
theorem irqFollowsDoneAndEnable : Obligations.IrqFollowsDoneAndEnable := by
  refine ⟨fun s => State.irq_iff, ?completion, ?ctrl, ?cmd, ?status, ?reset⟩
  case completion =>
    intro s s0 t hturn hp hie hstep
    rw [step_eq_coreTurn hturn] at hstep
    rw [← State.coreStarts_pending hturn] at hp
    have hie0 : s0.ie = true := by rw [State.coreStarts_same hturn, hie]
    obtain ⟨u, hu, _, hdone, _⟩ := coreTurn_completes hp
    cases hu.symm.trans hstep
    exact State.irq_iff.2 ⟨(coreTurn_keeps_ie hp hstep).trans hie0, hdone⟩
  case ctrl =>
    intro s t w rest hin hstep
    cases (step_store (tgt := .ctrl) hin rfl (.inr rfl)).symm.trans hstep
    exact ⟨rfl, rfl⟩
  case cmd =>
    intro s t w rest hin hbusy hstep
    cases (step_store_cmd hin).symm.trans hstep
    rw [State.writeCmd_of_idle w hbusy]
    exact State.irq_of_not_done rfl
  case status =>
    intro s t w rest hin hw hstep
    cases (step_store (tgt := .status) hin rfl (.inr rfl)).symm.trans hstep
    have hdone : (s.status.clearOnes w).done = false := by simp [hw]
    exact State.irq_of_not_done hdone
  case reset =>
    intro s t rest hin hstep
    cases (step_reset hin).symm.trans hstep
    rfl

end Sys2Proof.Machine
end

section
/-! The model fault marks (60_exceptions R329, R330; 70_reset R356, R357): which host accesses set one and do nothing else,
and that a mark stays. -/

namespace Sys2Proof.Machine

/-! ## Refused accesses (R329, R356) -/

theorem step_store_eq_hostStore {s : State} {width off : Nat} {w : Word} {rest : List Input}
    (hin : s.inputs = .store width off w :: rest) : step s = .next (hostStore width off w { s with inputs := rest }) := by
  simp only [step, nextStep, hin, runInput]

/-- A load or a store is a `hostAccess`, which refuses before it looks at what the access does. -/
theorem step_access {s : State} {a : Input} {width off : Nat} {rest : List Input}
    (ha : a = .load width off ∨ ∃ w, a = .store width off w) (hin : s.inputs = a :: rest) :
    ∃ k, step s = .next (hostAccess width off { s with inputs := rest } k) := by
  rcases ha with rfl | ⟨w, rfl⟩
  · exact ⟨_, step_load_eq_hostLoad hin⟩
  · exact ⟨_, step_store_eq_hostStore hin⟩

theorem targetAt_reserved {p : Config.Params} {off : Nat}
    (h : (0x030 ≤ off ∧ off < 0x040) ∨ (0x080 ≤ off ∧ off < 0x80000) ∨ 0x80000 + 8 * p.dmemWords ≤ off) :
    targetAt p off = none := by
  have hbase : dmemOffset = 0x80000 := rfl
  refine Option.eq_none_iff_forall_ne_some.2 fun t ht => ?_
  rw [targetAt] at ht
  split_ifs at ht <;> omega

/-- RES, ARG and DMEM stand at these offsets. -/
theorem admitted_hazardous {p : Config.Params} {off : Nat} (halign : off % 8 = 0)
    (h : (0x020 ≤ off ∧ off < 0x030) ∨ (0x040 ≤ off ∧ off < 0x080) ∨
      (0x80000 ≤ off ∧ off < 0x80000 + 8 * p.dmemWords)) :
    ∃ t, admitted p 64 off = some t ∧ t.hazardous = true := by
  rcases h with ⟨hlo, hhi⟩ | ⟨hlo, hhi⟩ | ⟨hlo, hhi⟩
  · obtain rfl | rfl : off = 0x020 ∨ off = 0x028 := by omega
    · exact ⟨.res0, rfl, rfl⟩
    · exact ⟨.res1, rfl, rfl⟩
  · obtain ⟨k, hk, rfl⟩ : ∃ k < 8, off = 0x040 + 8 * k := ⟨(off - 0x040) / 8, by omega, by omega⟩
    exact ⟨.arg k, admitted_arg p hk, rfl⟩
  · obtain ⟨a, ha, rfl⟩ : ∃ a < p.dmemWords, off = 0x80000 + 8 * a := ⟨(off - 0x80000) / 8, by omega, by omega⟩
    exact ⟨.dmem a, admitted_dmem ha, rfl⟩

/-- Settles O12: none of these accesses is admitted, and what is not admitted is `State.busError`. -/
theorem busErrorHasNoEffect : Obligations.BusErrorHasNoEffect := by
  intro s a width off rest ha hin hbad
  obtain ⟨k, hstep⟩ := step_access ha hin
  have hadm : admitted s.params width off = none := by
    rw [admitted]
    split
    · next hok => exact targetAt_reserved ((hbad.resolve_left (not_not.2 hok.1)).resolve_left (not_not.2 hok.2))
    · rfl
  rw [hstep, hostAccess, hadm]
  rfl

/-! ## The end of a run (R357, R369) -/

theorem State.not_unmarked_iff {s : State} :
    ¬s.unmarked ↔ s.marks.unwrittenRead = true ∨ s.marks.hostBusError = true ∨ s.marks.hostHazard = true := by
  rcases hm : s.marks with ⟨read, bus, hazard⟩
  simp [State.unmarked, Marks.clear, hm, -not_and, not_and_or]

/-- Settles O13: the access is admitted at a hazardous target, so while BUSY = 1 it is `State.hazard`, which leaves a
mark. -/
theorem busyHazardOnlySetsItsMark : Obligations.BusyHazardOnlySetsItsMark := by
  intro s a off rest ha hin hbusy halign hrange
  obtain ⟨k, hstep⟩ := step_access ha hin
  obtain ⟨tgt, hadm, hhaz⟩ := admitted_hazardous halign hrange
  have hhazard : hostAccess 64 off { s with inputs := rest } k = State.hazard { s with inputs := rest } := by
    simp only [hostAccess, hadm, hbusy, hhaz, Bool.and_self, if_true]
  rw [hstep, hhazard]
  exact ⟨_, rfl, fun hfinal => State.not_unmarked_iff.2 (.inr (.inr rfl)) hfinal.2, rfl⟩

/-! ## Marks stay (R330) -/

/-- Every mark of s is a mark of t. -/
def State.marksStay (s t : State) : Prop :=
  (s.marks.unwrittenRead = true → t.marks.unwrittenRead = true) ∧
    (s.marks.hostBusError = true → t.marks.hostBusError = true) ∧
    (s.marks.hostHazard = true → t.marks.hostHazard = true)

theorem State.marksStay_of_eq {s t : State} (h : t.marks = s.marks) : s.marksStay t := by
  rw [State.marksStay, h]
  exact ⟨id, id, id⟩

theorem State.marksStay.trans {s t u : State} (hst : s.marksStay t) (htu : t.marksStay u) : s.marksStay u := by
  obtain ⟨hread, hbus, hhazard⟩ := hst
  obtain ⟨hread', hbus', hhazard'⟩ := htu
  exact ⟨hread' ∘ hread, hbus' ∘ hbus, hhazard' ∘ hhazard⟩

theorem State.noteReads_marksStay (s : State) (a n : Nat) : s.marksStay (s.noteReads a n) :=
  ⟨fun h => by simp [h], id, id⟩

theorem State.busError_marksStay (s : State) : s.marksStay s.busError := ⟨id, fun _ => rfl, id⟩

theorem State.hazard_marksStay (s : State) : s.marksStay s.hazard := ⟨id, id, fun _ => rfl⟩

theorem State.marksStay.not_unmarked {s t : State} (h : s.marksStay t) (hs : ¬s.unmarked) : ¬t.unmarked := by
  obtain ⟨hread, hbus, hhazard⟩ := h
  exact State.not_unmarked_iff.2 ((State.not_unmarked_iff.1 hs).imp hread (.imp hbus hhazard))

theorem raiseError_marksStay {s s' t : State} {c : Code} (h : .next t = raiseError c s') (hs : s.marksStay s') :
    s.marksStay t := by
  cases h
  exact hs

theorem completeOk_marksStay {s s' t : State} (h : .next t = completeOk s') (hs : s.marksStay s') : s.marksStay t := by
  cases h
  exact hs

theorem EndsOr.marksStay {s t : State} {P : Answer → Prop} {r : Answer} (h : EndsOr s P r) (hr : r = .next t)
    (hP : P (.next t) → s.marksStay t) : s.marksStay t := by
  subst hr
  rcases h with ⟨_, _, he⟩ | h
  · exact raiseError_marksStay he (State.marksStay_of_eq rfl)
  · exact hP h

/-- A command that reads DMEM may set UNWRITTEN_READ, and the others leave the marks alone (R80). -/
theorem exec_marksStay {i : Instr} {s t : State} (h : exec i s = .next t) : s.marksStay t := by
  by_cases hi : i ∈ [Instr.firInit, .iirInit, .qpskModulate, .qpskDemodulate]
  · cases i with
    | firInit =>
      exact (execFirInit_cases s).marksStay h fun ⟨_, _, ht, _⟩ => completeOk_marksStay ht (s.noteReads_marksStay _ _)
    | iirInit =>
      exact (execIirInit_cases s).marksStay h fun ⟨_, _, ht, _⟩ =>
        completeOk_marksStay ht ((s.noteReads_marksStay _ _).trans (State.noteReads_marksStay _ _ _))
    | qpskModulate =>
      refine (execQpskModulate_cases s).marksStay h ?_
      rintro ⟨_, _, ht | ht⟩
      · exact raiseError_marksStay ht (s.noteReads_marksStay _ _)
      · exact completeOk_marksStay ht (s.noteReads_marksStay _ _)
    | qpskDemodulate =>
      exact (execQpskDemodulate_cases s).marksStay h fun ⟨_, _, ht⟩ =>
        completeOk_marksStay ht (s.noteReads_marksStay _ _)
    | _ => simp at hi
  · exact State.marksStay_of_eq (exec_keeps_marks hi h)

theorem coreTurn_marksStay {s t : State} (h : coreTurn s = .next t) : s.marksStay t := by
  cases hp : s.pending with
  | none =>
    cases (coreTurn_of_idle hp).symm.trans h
    exact State.marksStay_of_eq rfl
  | some p =>
    rcases coreTurn_of_pending (s := s) (by simp [hp]) with ⟨c, he⟩ | ⟨i, he⟩
    · exact raiseError_marksStay (h.symm.trans he) (State.marksStay_of_eq rfl)
    · exact exec_marksStay (he.symm.trans h)

theorem hostAccess_marksStay (width off : Nat) {s : State} {k : Target → State} (hk : ∀ t, s.marksStay (k t)) :
    s.marksStay (hostAccess width off s k) := by
  rcases hostAccess_cases width off s k with ⟨_, he⟩ | ⟨t, _, ⟨_, _, he⟩ | ⟨_, he⟩⟩ <;> rw [he]
  · exact s.busError_marksStay
  · exact s.hazard_marksStay
  · exact hk t

theorem writeTarget_marks (tgt : Target) (w : Word) (s : State) : (writeTarget tgt w s).marks = s.marks := by
  cases tgt with
  | cmd =>
    simp only [writeTarget, State.writeCmd]
    split <;> rfl
  | _ => rfl

/-- No step clears a mark. -/
theorem step_marksStay {s t : State} (h : step s = .next t) : s.marksStay t := by
  obtain ⟨is, he | ⟨width, off, he⟩ | ⟨width, off, w, he⟩ | he⟩ := step_cases s
  · exact coreTurn_marksStay (s := { s with inputs := is }) (he.symm.trans h)
  · cases he.symm.trans h
    exact hostAccess_marksStay (s := { s with inputs := is }) width off fun _ => State.marksStay_of_eq rfl
  · cases he.symm.trans h
    exact hostAccess_marksStay (s := { s with inputs := is }) width off fun tgt =>
      State.marksStay_of_eq (writeTarget_marks tgt w _)
  · cases he.symm.trans h
    exact State.marksStay_of_eq rfl

/-- Settles O26: every mark stays (`step_marksStay`), and a final state has none. -/
theorem marksAreNeverCleared : Obligations.MarksAreNeverCleared := by
  intro s t hstep
  obtain ⟨hread, hbus, hhazard⟩ := step_marksStay hstep
  exact ⟨hread, hbus, hhazard, fun hs hfinal => (step_marksStay hstep).not_unmarked hs hfinal.2⟩

end Sys2Proof.Machine
end

section
/-! How a command fails (60_exceptions R311, R313; 40_command R133): what an error writes, and which codes each command can
end with. -/

namespace Sys2Proof.Machine

/-- Settles O29: an error is raised in the state the command started from or, by check 6 of QPSK_MODULATE, in the one its
bit reads left; an OK completion has no other code. -/
theorem failedCommandChangesOnlyStatus : Obligations.FailedCommandChangesOnlyStatus := by
  intro i s t h herr
  rcases exec_error_or i s with ⟨c, _, he⟩ | ⟨hi, he⟩ | ⟨u, he⟩ <;> cases he.symm.trans h
  · exact ⟨rfl, fun _ => ⟨rfl, rfl⟩⟩
  · exact ⟨rfl, fun hne => absurd hi hne⟩
  · exact absurd rfl herr

/-! ## The codes of an answer (R313) -/

/-- An answer that completes with one of the codes `cs`. -/
def CodesIn (cs : List Code) (r : Answer) : Prop := ∀ t, r = .next t → t.status.err ∈ cs

namespace CodesIn

variable {cs : List Code} {s : State}

theorem raiseError {c : Code} (hc : c ∈ cs := by decide) : CodesIn cs (raiseError c s) := by
  rintro _ ⟨⟩
  exact hc

theorem completeOk (hok : Code.ok ∈ cs := by decide) : CodesIn cs (completeOk s) := by
  rintro _ ⟨⟩
  exact hok

theorem ite {P : Prop} [Decidable P] {a b : Answer} (ha : CodesIn cs a) (hb : CodesIn cs b) :
    CodesIn cs (if P then a else b) := by
  split
  · exact ha
  · exact hb

theorem guardFatal {k : Answer} (hk : CodesIn cs k) (hfatal : Code.fatal ∈ cs := by decide) :
    CodesIn cs (guardFatal s k) :=
  ite (raiseError hfatal) hk

theorem withEngine {α : Type} {kind : Slot → Option α} {h : Nat} {k : α → Answer} (hk : ∀ e, CodesIn cs (k e))
    (hchecks : ∀ c ∈ [Code.fatal, .badHandle, .wrongType], c ∈ cs := by decide) :
    CodesIn cs (withEngine kind h s k) := by
  rcases withEngine_cases kind h s k with ⟨c, hc, he⟩ | ⟨_, _, _, e, _, he⟩ <;> rw [he]
  · exact raiseError (hchecks c (by simpa using hc))
  · exact hk e

theorem withFreeSlot {k : Nat → Answer} (hk : ∀ h, CodesIn cs (k h)) (halloc : Code.alloc ∈ cs := by decide) :
    CodesIn cs (withFreeSlot s k) := by
  rcases withFreeSlot_cases s k with ⟨_, he⟩ | ⟨h, _, he⟩ <;> rw [he]
  · exact raiseError halloc
  · exact hk h

end CodesIn

/-- Settles O31: the codes of each command are those of its checks, in the order it makes them. -/
theorem codesOfEachCommand : Obligations.CodesOfEachCommand := by
  intro i s
  cases i <;> dsimp only <;> change CodesIn _ (exec _ s)
  case firInit | lmsInit =>
    exact .guardFatal (.ite .raiseError (.ite .raiseError (.ite .raiseError (.withFreeSlot fun _ => .completeOk))))
  case iirInit | rlsInit =>
    exact .guardFatal (.ite .raiseError (.ite .raiseError (.ite .raiseError (.ite .raiseError
      (.withFreeSlot fun _ => .completeOk)))))
  case iirSetSection | iirProcess => exact .withEngine fun _ => .ite .raiseError .completeOk
  case qpskModulate | qpskDemodulate =>
    exact .guardFatal (.ite .raiseError (.ite .raiseError (.ite .raiseError (.ite .raiseError (.ite .raiseError
      (.ite .raiseError .completeOk))))))
  case firProcess | firRelease | iirRelease | lmsProcess | lmsRelease | rlsProcess | rlsRelease =>
    exact .withEngine fun _ => .completeOk

end Sys2Proof.Machine
end
